-- ==== Sys2Proof/Word.lean ====
section
/-! DEFINITION. The plainest types of the model: the 32-bit word of the host register port and of the command word, the
byte, and the bit sequence in air order of rule R6 (`s[0]` is the first symbol received). -/

namespace Sys2Proof

/-- A 32-bit word of the host register port (rules R12 to R16). -/
abbrev Word := BitVec 32

/-- A byte (rule R6: an unsigned integer of width 8). -/
abbrev Byte := BitVec 8

/-- A bit sequence in air order (rule R6): the head is the first symbol received. -/
abbrev Bits := List Bool

end Sys2Proof
end

