-- ==== Sys2Proof/Machine/Bits.lean ====
section
/-! DEFINITION. Bit sequences and integers: the conversions of rules R90 and R91, the reversal of rule R95, and the small
counts the units use (rule R6). -/

namespace Sys2Proof.Machine

/-- `AirToHost` over a whole sequence (rule R90): the sum of `s[i] * 2^i`. -/
def airValue : Bits → Nat
  | [] => 0
  | b :: s => b.toNat + 2 * airValue s

/-- `AirToHost(s, n)` (rule R90): bits at and beyond `n` are ignored. -/
def airToHost (s : Bits) (n : Nat) : Nat := airValue (s.take n)

/-- `HostToAir(v, n)` (rule R91): bit `i` of the sequence is bit `i` of `v`. -/
def hostToAir (v n : Nat) : Bits := (List.range n).map v.testBit

/-- `Rev8(b)` (rule R95): bit `i` of the result is bit `7 - i` of `b`. -/
def rev8 (b : Byte) : Byte := b.reverse

/-- `popcount(v)` of a `w`-bit value (rule R6). -/
def popcount {w : Nat} (v : BitVec w) : Nat := (hostToAir v.toNat w).count true

/-- `ceil(a / b)` (rule R6). -/
def ceilDiv (a b : Nat) : Nat := (a + b - 1) / b

/-- `s[a .. a + n - 1]` (rule R6). -/
def slice (s : Bits) (a n : Nat) : Bits := (s.drop a).take n

/-- The number of positions below `n` at which two sequences differ (rule R129). -/
def distance (s t : Bits) (n : Nat) : Nat := ((s.take n).zip (t.take n)).countP fun p => p.1 != p.2

end Sys2Proof.Machine
end

