-- ==== Sys2Proof/Syntax.lean ====
section
/-! DEFINITION. The syntax: one constructor of `Instr` per row of spec/opcode_table.json, the 27 commands of rule R61 and
the 16 packet types of rule R72, and the two kinds of word that encode them. -/

namespace Sys2Proof

/-- The fields of an 18-bit packet header other than `TYPE` (rule R66). `TYPE` is the constructor of `Instr`. -/
structure HeaderFields where
  /-- `LT_ADDR`, header bits 2:0. -/
  ltAddr : BitVec 3
  /-- `FLOW`, header bit 7. -/
  flow : Bool
  /-- `ARQN`, header bit 8. -/
  arqn : Bool
  /-- `SEQN`, header bit 9. -/
  seqn : Bool
  /-- `HEC`, header bits 17:10. -/
  hec : Byte
deriving DecidableEq, Repr

/-- The sixteen values of the 4-bit `TYPE` field (rule R72). -/
inductive PacketType where
  | null | poll | fhs | dm1 | dh1 | hv1 | hv2 | hv3Ev3 | dv | aux1 | dm3 | dh3 | ev4 | ev5 | dm5 | dh5
deriving DecidableEq, Repr

/-- All sixteen, in the order of the enumeration. -/
def packetTypes : List PacketType :=
  [.null, .poll, .fhs, .dm1, .dh1, .hv1, .hv2, .hv3Ev3, .dv, .aux1, .dm3, .dh3, .ev4, .ev5, .dm5, .dh5]

/-- The instructions: a command carries no operand in its word (rule R60: the operands are in `A0` to `A3`); a packet
header row carries the header's other fields (rule R66). -/
inductive Instr where
  -- control (rules R210, R212, R220)
  | nop
  | restart
  | clrCtx
  -- bit-whitening-engine (rules R96 to R99)
  | air2host
  | host2air
  | rev8
  | dewhiten
  -- hamming-fec-decoder (rules R112, R116)
  | unfec13
  | unfec23
  -- access-code-correlator (rules R128, R133, R130)
  | acgen
  | sniff
  | verify
  -- packet-header-ec-decoder (rules R147, R149, R150)
  | hec2uap
  | probeUap
  | decodeHeader
  -- crc-16-validator (rules R162, R163)
  | crcgen
  | crcchk
  -- payload-demux-fec-selector (rule R170)
  | decodePayload
  -- packet context (rules R211, R213 to R218, R222, R224)
  | create
  | setLap
  | setUap
  | setNap
  | setClock
  | setChannel
  | setWhitened
  | decode
  | emit
  -- the sixteen packet types, each selecting its payload handler (rules R72, R171)
  | pktNull (h : HeaderFields)
  | pktPoll (h : HeaderFields)
  | pktFhs (h : HeaderFields)
  | pktDm1 (h : HeaderFields)
  | pktDh1 (h : HeaderFields)
  | pktHv1 (h : HeaderFields)
  | pktHv2 (h : HeaderFields)
  | pktHv3Ev3 (h : HeaderFields)
  | pktDv (h : HeaderFields)
  | pktAux1 (h : HeaderFields)
  | pktDm3 (h : HeaderFields)
  | pktDh3 (h : HeaderFields)
  | pktEv4 (h : HeaderFields)
  | pktEv5 (h : HeaderFields)
  | pktDm5 (h : HeaderFields)
  | pktDh5 (h : HeaderFields)
deriving DecidableEq, Repr

/-- A word that stands for an instruction: a 32-bit command word written to `CMD` (rule R60), or the 18-bit packet header
held in `PACKET_HEADER` (rule R66). -/
inductive InstrWord where
  | command (w : Word)
  | header (h : BitVec 18)
deriving DecidableEq, Repr

end Sys2Proof
end

