-- ==== Sys2Proof/Config.lean ====
section
/-! DEFINITION. The configuration record: the parameters of rule R5 and the constant tables of rule R11. They are fixed
before reset is released and are no part of the state. The values this hardware takes are `hw`, in Machine/Hardware.lean. -/

namespace Sys2Proof.Machine

/-- The cause codes of rule R241, by name. Codes 13 and 14 are never written, so they have no constructor. -/
inductive Cause where
  | ok | shortBuffer | fecUncorrectable | repetitionGate | badHec | implausibleLength | crcMismatch | notFound
  | unvalidated | badOperand | badState | noUap | illegalCommand | invariant
deriving DecidableEq, Repr

/-- The values of `RESULT`, `STATUS[11:8]` (rules R29, R76): 0, 1 and 10. -/
inductive Confidence where
  | zero | one | ten
deriving DecidableEq, Repr

end Sys2Proof.Machine

namespace Sys2Proof

/-- The FEC policy of a packet type (rule R72). -/
inductive Fec where
  | none | block | repetition | voiceThenBlock
deriving DecidableEq, Repr

/-- The handlers that rules R72 and R171 name. Their numbers are the other columns of the row. -/
inductive HandlerName where
  | plNone | plFhs | plDm | plDh | plHv | plType7 | plDv | plAux1 | plEv4 | plEvUncoded
deriving DecidableEq, Repr

/-- One row of the packet type table (rule R72). -/
structure PacketRow where
  /-- The value of `TYPE`. -/
  code : BitVec 4
  handler : HandlerName
  /-- The payload header width in bytes. -/
  hdr : Nat
  /-- The FEC policy; of a type that is found by discovery the handler's name says it already. -/
  fec : Fec
  /-- Whether the type has a CRC. -/
  crc : Bool
  /-- The largest legal `PAYLOAD_LENGTH`. -/
  maxBytes : Nat
  /-- The `PAYLOAD_LENGTH` of the reading whose length is fixed, 0 where the row has none. -/
  fixedBytes : Nat
deriving DecidableEq, Repr

/-- The two legal values of `AUX1_DECODE` (rules R5, R183). -/
inductive Aux1Decode where
  /-- AUX1 is decoded as an uncoded payload with a 1-byte header and no CRC. -/
  | dhNocrc
  /-- AUX1 has no decode path; dispatching on it enters `Fault` (rule R247). -/
  | fault
deriving DecidableEq, Repr

/-- The parameters of rule R5. -/
structure Config where
  /-- `MAX_SYMBOLS`. -/
  maxSymbols : Nat
  /-- `WHITEN_PERIOD`. -/
  whitenPeriod : Nat
  /-- `WHITEN_SEQ`: bit `j` is entry `j` (rule R92). -/
  whitenSeq : BitVec 127
  /-- `WHITEN_IDX`: entry `c` is the start index for the 6-bit clock `c` (rule R93). -/
  whitenIdx : List Nat
  /-- `REP_GATE` (rule R111). -/
  repGate : Nat → Nat
  /-- `FEC23_GEN` (rule R113). -/
  fec23Gen : List (BitVec 5)
  /-- `AC_LEN`. -/
  acLen : Nat
  /-- `AC_CMP_LEN`. -/
  acCmpLen : Nat
  /-- `AC_MAX_ERR`: an access code is accepted when its errors are below this (rule R129). -/
  acMaxErr : Nat
  /-- `SNIFF_BUDGET`: the largest preamble distance plus trailer distance (rule R132). -/
  sniffBudget : Nat
  /-- `PREAMBLE_BITS`. -/
  preambleBits : Nat
  /-- `TRAILER_BITS`. -/
  trailerBits : Nat
  /-- `PREAMBLE_DIST`: entry `v` is the distance of the 5-bit value `v` (rule R131). -/
  preambleDist : List Nat
  /-- `TRAILER_DIST`: entry `v` is the distance of the 7-bit value `v` (rule R131). -/
  trailerDist : List Nat
  /-- `PREAMBLE_POS`. -/
  preamblePos : Nat
  /-- `TRAILER_POS`. -/
  trailerPos : Nat
  /-- `LAP_POS`. -/
  lapPos : Nat
  /-- `SYNC_G`: bit `k` is the coefficient of `D^k` (rule R125). -/
  syncG : Nat
  /-- `SYNC_PN` (rule R125). -/
  syncPn : BitVec 64
  /-- `HEC_POLY` (rule R146). -/
  hecPoly : Byte
  /-- `CRC_TAPS`: the register bits inverted by a feedback of 1, bits 15, 10 and 3 (rule R160). -/
  crcTaps : BitVec 16
  /-- `HDR_POS`. -/
  hdrPos : Nat
  /-- `HDR_SYMBOLS`. -/
  hdrSymbols : Nat
  /-- `PAYLOAD_POS`. -/
  payloadPos : Nat
  /-- `FHS_RETRY`: the retry clocks in order (rule R176). -/
  fhsRetry : List Nat
  /-- The packet type table (rule R72). -/
  packetRow : PacketType → PacketRow
  /-- The result codes (rule R76). -/
  resultCode : Machine.Confidence → Nat
  /-- The cause codes (rule R241). -/
  causeCode : Machine.Cause → Nat
  /-- `AUX1_DECODE` (rule R183). -/
  aux1Decode : Aux1Decode
  /-- `PAY_BITS`. -/
  payBits : Nat
  /-- `REC_BYTES`. -/
  recBytes : Nat

end Sys2Proof
end

