-- ==== Sys2Proof/Machine/Hardware.lean ====
section
/-! DEFINITION. The configuration this hardware takes: the value of every parameter of rule R5 and the contents of the
constant tables of rules R72, R76, R92, R93, R113, R131 and R241. -/

namespace Sys2Proof

/-- The packet type table of rule R72, row by row. The maximum of AUX1 counts no CRC; the DV row is that of its data
field; of code 7 the maximum and the CRC are those of EV3, the fixed length that of HV3. -/
def packetTable : PacketType → PacketRow
  | .null => ⟨0, .plNone, 0, .none, false, 0, 0⟩
  | .poll => ⟨1, .plNone, 0, .none, false, 0, 0⟩
  | .fhs => ⟨2, .plFhs, 0, .block, true, 20, 20⟩
  | .dm1 => ⟨3, .plDm, 1, .block, true, 20, 0⟩
  | .dh1 => ⟨4, .plDh, 1, .none, true, 30, 0⟩
  | .hv1 => ⟨5, .plHv, 0, .repetition, false, 10, 10⟩
  | .hv2 => ⟨6, .plHv, 0, .block, false, 20, 20⟩
  | .hv3Ev3 => ⟨7, .plType7, 0, .none, true, 32, 30⟩
  | .dv => ⟨8, .plDv, 1, .voiceThenBlock, true, 12, 0⟩
  | .aux1 => ⟨9, .plAux1, 1, .none, false, 30, 0⟩
  | .dm3 => ⟨10, .plDm, 2, .block, true, 125, 0⟩
  | .dh3 => ⟨11, .plDh, 2, .none, true, 187, 0⟩
  | .ev4 => ⟨12, .plEv4, 0, .block, true, 122, 0⟩
  | .ev5 => ⟨13, .plEvUncoded, 0, .none, true, 182, 0⟩
  | .dm5 => ⟨14, .plDm, 2, .block, true, 228, 0⟩
  | .dh5 => ⟨15, .plDh, 2, .none, true, 343, 0⟩

/-- The result codes of rule R76. -/
def resultTable : Machine.Confidence → Nat
  | .zero => 0
  | .one => 1
  | .ten => 10

/-- The cause codes of rule R241. -/
def causeTable : Machine.Cause → Nat
  | .ok => 0
  | .shortBuffer => 1
  | .fecUncorrectable => 2
  | .repetitionGate => 3
  | .badHec => 4
  | .implausibleLength => 5
  | .crcMismatch => 6
  | .notFound => 7
  | .unvalidated => 8
  | .badOperand => 9
  | .badState => 10
  | .noUap => 11
  | .illegalCommand => 12
  | .invariant => 15

/-- The values this hardware takes (rule R5). -/
def hw : Config where
  maxSymbols := 3125
  whitenPeriod := 127
  whitenSeq := 0x78779648113175b066a73da157d28dc7#127
  whitenIdx :=
    [99, 85, 17, 50, 102, 58, 108, 45, 92, 62, 32, 118, 88, 11, 80, 2] ++
    [37, 69, 55, 8, 20, 40, 74, 114, 15, 106, 30, 78, 53, 72, 28, 26] ++
    [68, 7, 39, 113, 105, 77, 71, 25, 84, 49, 57, 44, 61, 117, 10, 1] ++
    [123, 124, 22, 125, 111, 23, 42, 126, 6, 112, 76, 24, 48, 43, 116, 0]
  repGate := fun n => n / 4
  fec23Gen := [26, 13, 28, 14, 7, 25, 22, 11, 31, 21]
  acLen := 72
  acCmpLen := 68
  acMaxErr := 7
  sniffBudget := 2
  preambleBits := 5
  trailerBits := 7
  preambleDist := [2, 2, 1, 2, 2, 1, 2, 2, 1, 2, 0, 1, 2, 2, 1, 2] ++
    [2, 1, 2, 2, 1, 0, 2, 1, 2, 2, 1, 2, 2, 1, 2, 2]
  trailerDist :=
    [3, 3, 2, 3, 3, 2, 3, 3, 2, 3, 1, 2, 3, 3, 2, 3] ++
    [3, 2, 3, 3, 2, 1, 3, 2, 3, 3, 2, 3, 3, 2, 3, 3] ++
    [2, 3, 1, 2, 3, 3, 2, 3, 1, 2, 0, 1, 2, 3, 1, 2] ++
    [3, 3, 2, 3, 3, 2, 3, 3, 2, 3, 1, 2, 3, 3, 2, 3] ++
    [3, 2, 3, 3, 2, 1, 3, 2, 3, 3, 2, 3, 3, 2, 3, 3] ++
    [2, 1, 3, 2, 1, 0, 2, 1, 3, 2, 3, 3, 2, 1, 3, 2] ++
    [3, 3, 2, 3, 3, 2, 3, 3, 2, 3, 1, 2, 3, 3, 2, 3] ++
    [3, 2, 3, 3, 2, 1, 3, 2, 3, 3, 2, 3, 3, 2, 3, 3]
  preamblePos := 0
  trailerPos := 65
  lapPos := 38
  syncG := 0x585713DA9
  syncPn := 0x83848D96BBCC54FC
  hecPoly := 0x65
  crcTaps := 0x8408
  hdrPos := 72
  hdrSymbols := 54
  payloadPos := 126
  fhsRetry :=
    [32, 33, 34, 35, 36, 37, 38, 39, 40, 41, 42, 43, 44, 45, 46, 47] ++
    [48, 49, 50, 51, 52, 53, 54, 55, 56, 57, 58, 59, 60, 61, 62, 63]
  packetRow := packetTable
  resultCode := resultTable
  causeCode := causeTable
  aux1Decode := .dhNocrc
  payBits := 2744
  recBytes := 352

end Sys2Proof
end

