-- ==== Sys2Proof/Machine/State.lean ====
section
/-! DEFINITION. The state of one instance of the block (rules R10 to R37), as plain data, and the machine after reset. -/

namespace Sys2Proof.Machine

/-- The states of the packet context, `STATUS[2:0]` (rule R30). The value 6 never occurs and has no constructor. -/
inductive Phase where
  | idle | created | headerPending | headerDecoded | payloadPending | payloadDecoded | fault
deriving DecidableEq, Repr

/-- One move of the host on the register port, or the reset input (rules R8, R10, R270). -/
inductive HostAction where
  /-- `wr <reg>, <value>`; register 0x00 is `CMD`, so this also issues a command. -/
  | write (reg : BitVec 6) (value : Word)
  /-- `rd <reg>`. -/
  | read (reg : BitVec 6)
  /-- The reset input is applied. -/
  | reset
deriving DecidableEq, Repr

/-- `A0` to `A3` (rule R14). -/
structure OperandRegs where
  a0 : Word
  a1 : Word
  a2 : Word
  a3 : Word
deriving DecidableEq, Repr

/-- `R0`, `R1` (rule R15) and `STATUS.CAUSE` (rule R13): what every command writes. -/
structure ResultRegs where
  r0 : Word
  r1 : Word
  cause : Cause
deriving DecidableEq, Repr

/-- The registers of the symbol load port that hold a value: `SYM_ADDR` and `WLEN` (rule R16). -/
structure LoadPort where
  symAddr : BitVec 12
  wlen : BitVec 12
deriving DecidableEq, Repr

/-- `PKT_BASE` and `LENGTH` (rule R17). -/
structure PacketRange where
  base : BitVec 12
  length : BitVec 12
deriving DecidableEq, Repr

/-- The context registers and their flags (rules R18 to R21): what the host knows about the packet. -/
structure Context where
  lap : BitVec 24
  uap : Byte
  nap : BitVec 16
  clock : BitVec 27
  channel : Byte
  haveLap : Bool
  haveUap : Bool
  haveNap : Bool
  haveFullClock : Bool
  whitened : Bool
deriving DecidableEq, Repr

/-- The decode-progress state of rule R35, but for `STATE` itself. -/
structure Progress where
  haveHeader : Bool
  havePayload : Bool
  packetType : BitVec 4
  packetHeader : BitVec 18
  payloadHeader : BitVec 16
  payloadLength : BitVec 9
  payloadInfo : BitVec 6
  fhsClk : BitVec 6
  fhsClkValid : Bool
  recLen : BitVec 9
  result : Confidence
deriving DecidableEq, Repr

/-- The bit buffers `SYM`, `WB`, `PAY`, `VOICE` and `REC` in the bit address space of rule R41: a list of cells, one bit
per byte, keyed by bit address. In its canonical form the addresses rise strictly and every listed cell holds 1; a bit
address that is not listed reads as 0, the reset value of every buffer bit (rule R31). -/
abbrev Memory := List Host.Cell

/-- The state. The last two fields are the model's own: the moves the host has yet to make, oldest first, and the value
its last register read returned. -/
structure State where
  ops : OperandRegs
  res : ResultRegs
  port : LoadPort
  range : PacketRange
  ctx : Context
  /-- `STATUS.STATE` (rule R30). -/
  phase : Phase
  /-- `STATUS.FAULT`, sticky (rule R13). -/
  faultFlag : Bool
  prog : Progress
  mem : Memory
  queue : List HostAction
  readData : Word
deriving DecidableEq, Repr

/-- The reasons for which the machine stops. It has none: every command ends in a next state (rules R240, R248), and the
`Fault` of rule R247 is a phase of the state, not a stop of the machine. -/
inductive Fault where
deriving DecidableEq, Repr

/-- The reasons for which an instruction has no meaning. -/
inductive Refusal where
  /-- An instruction that has no meaning yet; raised only by an arm of `exec`. Safe: nothing is claimed of it. No arm
  raises it, every instruction having its meaning. -/
  | notModelled (mnemonic : String)
deriving DecidableEq, Repr

/-- The context registers after reset and after `CLR_CTX`: `FLAGS` = 0x10, all else 0 (rules R37, R220). -/
def Context.cleared : Context where
  lap := 0
  uap := 0
  nap := 0
  clock := 0
  channel := 0
  haveLap := false
  haveUap := false
  haveNap := false
  haveFullClock := false
  whitened := true

/-- The decode-progress state when it is cleared (rule R35). -/
def Progress.cleared : Progress where
  haveHeader := false
  havePayload := false
  packetType := 0
  packetHeader := 0
  payloadHeader := 0
  payloadLength := 0
  payloadInfo := 0
  fhsClk := 0
  fhsClkValid := false
  recLen := 0
  result := .zero

/-- The machine right after reset (rules R37, R270). -/
def State.reset : State where
  ops := ⟨0, 0, 0, 0⟩
  res := ⟨0, 0, .ok⟩
  port := ⟨0, 0⟩
  range := ⟨0, 0⟩
  ctx := Context.cleared
  phase := .idle
  faultFlag := false
  prog := Progress.cleared
  mem := []
  queue := []
  readData := 0

end Sys2Proof.Machine
end

