-- ==== Sys2Proof/Machine/Flags.lean ====
section
/-! DEFINITION. The numeric codes of the status fields and the two status words the host reads: `STATUS` (rule R13) and
`FLAGS` (rule R21). -/

namespace Sys2Proof.Machine

/-- The number of a cause (rule R241). -/
def Cause.code (c : Cause) : Nat := hw.causeCode c

/-- The state codes (rule R30). -/
def Phase.code : Phase → Nat
  | .idle => 0
  | .created => 1
  | .headerPending => 2
  | .headerDecoded => 3
  | .payloadPending => 4
  | .payloadDecoded => 5
  | .fault => 7

/-- The number of a result (rule R76). -/
def Confidence.code (r : Confidence) : Nat := hw.resultCode r

/-- `STATUS.BUSY` (rule R13): 1 while a command runs. Between two steps a command is running exactly in the two transient
states of rule R30. -/
def State.busy (s : State) : Bool :=
  match s.phase with
  | .headerPending => true
  | .payloadPending => true
  | _ => false

/-- The word the host reads from `STATUS` (rule R13). -/
def State.statusWord (s : State) : Word :=
  BitVec.ofNat 32 (s.phase.code + 8 * s.faultFlag.toNat + 16 * s.res.cause.code + 256 * s.prog.result.code +
    4096 * s.busy.toNat)

/-- The byte the host reads from `FLAGS` (rule R21). -/
def State.flagsByte (s : State) : Byte :=
  BitVec.ofBool s.prog.fhsClkValid ++ BitVec.ofBool s.prog.havePayload ++ BitVec.ofBool s.prog.haveHeader ++
    BitVec.ofBool s.ctx.whitened ++ BitVec.ofBool s.ctx.haveFullClock ++ BitVec.ofBool s.ctx.haveNap ++
    BitVec.ofBool s.ctx.haveUap ++ BitVec.ofBool s.ctx.haveLap

end Sys2Proof.Machine
end

