-- ==== Sys2Proof/Machine/Memory.lean ====
section
/-! DEFINITION. The bit address space (rules R40, R41), the canonical form of the memory, and reading and writing cells
(rules R43, R44). -/

namespace Sys2Proof.Machine

/-- The regions of the map of rule R41. -/
inductive Region where
  | sym | wb | pay | packetHeader | payloadHeader | voice | record
deriving DecidableEq, Repr

/-- The bit address of a region's offset 0 (rule R41). -/
def Region.base : Region → Nat
  | .sym => 0x0000
  | .wb => 0x1000
  | .pay => 0x2000
  | .packetHeader => 0x3000
  | .payloadHeader => 0x3100
  | .voice => 0x3200
  | .record => 0x4000

/-- The number of bits of a region (rule R41). -/
def Region.size : Region → Nat
  | .sym => hw.maxSymbols
  | .wb => hw.maxSymbols
  | .pay => hw.payBits
  | .packetHeader => 18
  | .payloadHeader => 16
  | .voice => 80
  | .record => 8 * hw.recBytes

/-- Whether a region is a buffer, whose bits stand in memory; the other two are the registers of that name (rules R23,
R24), which hold their bits themselves. -/
def Region.isBuffer : Region → Bool
  | .packetHeader => false
  | .payloadHeader => false
  | _ => true

/-- Whether bit address `a` lies in a region. -/
def Region.holds (r : Region) (a : Nat) : Bool := r.base ≤ a && a < r.base + r.size

/-- The regions in the order of the map. -/
def regions : List Region := [.sym, .wb, .pay, .packetHeader, .payloadHeader, .voice, .record]

/-- The region a bit address lies in; `none` where the address is unmapped (rule R41, continued). -/
def regionOf (a : Nat) : Option Region := regions.find? fun r => r.holds a

/-- The form of a cell list from address `lo` on: addresses rise strictly and every cell holds 1. -/
def Memory.wfFrom (lo : Nat) : Memory → Bool
  | [] => true
  | c :: m => lo ≤ c.1 && c.2 == 1 && Memory.wfFrom (c.1 + 1) m

/-- The canonical form of the memory. -/
def Memory.wf (m : Memory) : Bool := Memory.wfFrom 0 m

/-- Every cell lies in one of the five buffers of rule R31. -/
def Memory.inMap (m : Memory) : Bool := m.all fun c => regions.any fun r => r.isBuffer && r.holds c.1

/-- The bit at a bit address; an unlisted address reads 0 (rule R31). -/
def Memory.get : Memory → Nat → Bool
  | [], _ => false
  | c :: m, a => if c.1 = a then c.2 != 0 else Memory.get m a

/-- The cells of a bit sequence laid out from address `a` upward: one cell for each 1. -/
def cellsAt : Nat → Bits → Memory
  | _, [] => []
  | a, b :: s => if b then (a, 1) :: cellsAt (a + 1) s else cellsAt (a + 1) s

/-- The memory with the sequence `s` written from bit address `a` upward (rule R44). -/
def Memory.put (m : Memory) (a : Nat) (s : Bits) : Memory :=
  m.filter (fun c => c.1 < a) ++ (cellsAt a s ++ m.filter (fun c => a + s.length ≤ c.1))

end Sys2Proof.Machine
end

