-- ==== Sys2Proof/Machine/Operands.lean ====
section
/-! DEFINITION. The operand forms of rule R63: how a command narrows an argument register. A field is the low bits of the
register; a count, a length, a skip or a symbol offset is the whole 32-bit value. Nothing is sign-extended. -/

namespace Sys2Proof.Machine

/-- A bit address: `A[15:0]`. -/
def bitAddress (a : Word) : Nat := (a.setWidth 16).toNat

/-- A LAP: `A[23:0]`. -/
def lapOperand (a : Word) : BitVec 24 := a.setWidth 24

/-- A UAP, a byte, a channel or a HEC value: `A[7:0]`. -/
def byteOperand (a : Word) : Byte := a.setWidth 8

/-- A NAP: `A[15:0]`. -/
def napOperand (a : Word) : BitVec 16 := a.setWidth 16

/-- A 10-bit header data field: `A[9:0]`. -/
def headerDataOperand (a : Word) : BitVec 10 := a.setWidth 10

/-- A clock hypothesis: `A[5:0]`. -/
def clockOperand (a : Word) : Nat := (a.setWidth 6).toNat

/-- A full clock: `A[26:0]`. -/
def fullClockOperand (a : Word) : BitVec 27 := a.setWidth 27

/-- A one-bit flag: `A[0]`. -/
def flagOperand (a : Word) : Bool := a.getLsbD 0

/-- A count, a length, a skip or a symbol offset: the whole value. -/
def countOperand (a : Word) : Nat := a.toNat

end Sys2Proof.Machine
end

