-- ==== Sys2Proof/Machine/Ops.lean ====
section
/-! DEFINITION. The named operations over registers and buffers that the meanings share: reading and writing bits, ending
a command, `raise`, entering `Fault`, clearing the decode progress, and the setters of the payload registers. -/

namespace Sys2Proof.Machine

/-! ## Reading -/

/-- `WLEN` as a count. -/
def State.wlen (s : State) : Nat := s.port.wlen.toNat

/-- `PKT_BASE` as a symbol address. -/
def State.pktBase (s : State) : Nat := s.range.base.toNat

/-- `LENGTH` as a count. -/
def State.length (s : State) : Nat := s.range.length.toNat

/-- `PAYLOAD_LENGTH` as a count of bytes. -/
def State.payloadBytes (s : State) : Nat := s.prog.payloadLength.toNat

/-- `CLOCK[5:0]`, the whitening key (rule R19). -/
def State.clock6 (s : State) : Nat := (s.ctx.clock.setWidth 6).toNat

/-- `BitRead(a)` (rule R43): the buffer bit, or the bit of `PACKET_HEADER` or `PAYLOAD_HEADER`, at bit address `a`. -/
def State.bitRead (s : State) (a : Nat) : Bool :=
  match regionOf a with
  | some .packetHeader => s.prog.packetHeader.getLsbD (a - Region.packetHeader.base)
  | some .payloadHeader => s.prog.payloadHeader.getLsbD (a - Region.payloadHeader.base)
  | _ => s.mem.get a

/-- `[BitRead(a + i) for i in 0 .. n-1]`. -/
def State.bitsAt (s : State) (a n : Nat) : Bits := (List.range n).map fun i => s.bitRead (a + i)

/-- The extent of a region that a source range may cover (rule R41): for `SYM` it is `WLEN`. -/
def State.extent (s : State) : Region → Nat
  | .sym => s.wlen
  | r => r.size

/-- `RangeOk(a, n)` (rule R45). -/
def State.rangeOk (s : State) (a n : Nat) : Bool :=
  n == 0 ||
    match regionOf a with
    | some r => a - r.base + n ≤ s.extent r
    | none => false

/-- Bits `off .. off + n - 1` of a buffer. -/
def State.readBuf (s : State) (r : Region) (off n : Nat) : Bits :=
  (List.range n).map fun i => s.mem.get (r.base + off + i)

/-- `S(a .. a + n - 1)` (rule R46): packet symbols. -/
def State.symbols (s : State) (a n : Nat) : Bits := s.readBuf .sym (s.pktBase + a) n

/-! ## Writing -/

/-- Writing a bit sequence into a buffer from offset `off` (rule R44). Bits past the buffer's last bit have no place and
are dropped, as rule R47 says of symbols. -/
def State.writeBuf (s : State) (r : Region) (off : Nat) (bits : Bits) : State :=
  { s with mem := s.mem.put (r.base + off) (bits.take (r.size - off)) }

/-- `R0`, `R1` and `CAUSE`, which every command writes (rules R13, R15). -/
def State.finish (s : State) (r0 r1 : Nat) (c : Cause) : State :=
  { s with res := ⟨BitVec.ofNat 32 r0, BitVec.ofNat 32 r1, c⟩ }

/-- `raise <Cause>` (rule R245): the cause is written and `R0` and `R1` become 0. There is nothing else to save and
nowhere to go: no saved register, no mode, no vector exists (rule R246). -/
def State.raise (s : State) (c : Cause) : State := s.finish 0 0 c

/-- Writing `STATE`. -/
def State.setPhase (s : State) (p : Phase) : State := { s with phase := p }

/-- Entering `Fault` (rule R247). `HAVE_HEADER`, `PACKET_HEADER` and `PACKET_TYPE` keep their values. Nothing returns
from it but reset (rule R271). -/
def State.enterFault (s : State) : State :=
  { s with
    phase := .fault
    faultFlag := true
    res := ⟨0, 0, .invariant⟩
    prog := { s.prog with result := .zero, havePayload := false } }

/-- Clearing the decode-progress state but for `STATE` (rule R35). -/
def State.clearProgress (s : State) : State := { s with prog := Progress.cleared }

/-- `Restart` (rules R36, R213): clear the decode progress; `STATE` becomes `Created` unless it is `Idle`. -/
def State.restart (s : State) : State :=
  s.clearProgress.setPhase (if s.phase = .idle then .idle else .created)

/-- What a host write to `SYM_DATA` or `WLEN` does to the packet (rule R48): the decode progress is cleared, the packet
range is dropped, and `STATE` becomes `Idle` unless it is `Fault`. -/
def State.dropPacket (s : State) : State :=
  { s.clearProgress with
    range := ⟨0, 0⟩
    phase := if s.phase = .fault then .fault else .idle }

/-- Clearing the payload registers: `PAYLOAD_HEADER`, `PAYLOAD_LENGTH`, `PAYLOAD_INFO`, `FHS_CLK`, `FHS_CLK_VALID`
(rule R170). -/
def State.clearPayload (s : State) : State :=
  { s with
    prog := { s.prog with payloadHeader := 0, payloadLength := 0, payloadInfo := 0, fhsClk := 0, fhsClkValid := false } }

/-- Writing `PAYLOAD_LENGTH`. -/
def State.setPayloadLength (s : State) (n : Nat) : State :=
  { s with prog := { s.prog with payloadLength := BitVec.ofNat 9 n } }

/-- The three fields of `PAYLOAD_INFO` (rule R26): `LLID` in 1:0, `FLOW` in 2, bit 3 zero, the header width in 5:4. -/
def payloadInfoOf (p : Bits) (hlen : Nat) : BitVec 6 :=
  BitVec.ofNat 2 hlen ++ 0#1 ++ BitVec.ofNat 3 (airToHost p 3)

/-- The register writes of `SetPlHeader(p, hlen)` (rule R173). -/
def State.setPlHeader (s : State) (p : Bits) (hlen : Nat) : State :=
  { s with
    prog := { s.prog with
      payloadHeader := BitVec.ofNat 16 (airToHost p (8 * hlen))
      payloadInfo := payloadInfoOf p hlen } }

/-- The body length that `SetPlHeader(p, hlen)` returns (rule R173): 5 bits of a 1-byte header, 10 of a 2-byte one. -/
def bodyLength (p : Bits) (hlen : Nat) : Nat :=
  if hlen = 1 then airToHost (slice p 3 5) 5 else airToHost (slice p 3 10) 10

/-- Writing the clock an FHS payload validated under (rules R27, R176). -/
def State.setFhsClock (s : State) (c : Nat) : State :=
  { s with prog := { s.prog with fhsClk := BitVec.ofNat 6 c, fhsClkValid := true } }

/-! ## Running a command -/

/-- Every command is refused in `Fault`: the write to `CMD` is ignored altogether (rules R244, R247). Otherwise the
command ends in the state its body gives; no command stops the machine (rule R248). -/
def command (s : State) (body : State → State) : Host.Outcome State Fault Refusal :=
  if s.phase = .fault then .next s else .next (body s)

/-- A command of the context setters (rule R36): its own write, `Restart`, and `R0`, `R1`, `CAUSE` all 0. -/
def setter (s : State) (f : Context → Context) : Host.Outcome State Fault Refusal :=
  command s fun s => ({ s with ctx := f s.ctx } : State).restart.finish 0 0 .ok

end Sys2Proof.Machine
end

