-- ==== Sys2Proof/Machine/AccessCode.lean ====
section
/-! DEFINITION. The access-code-correlator: generating (rules R125 to R127), verifying (rule R129) and searching (rules
R131, R132) an access code, and the commands `ACGEN`, `SNIFF` and `VERIFY` (rules R128, R133, R130). -/

namespace Sys2Proof.Machine

/-- The 6-bit extension of a LAP, bit `j` being `ext[j]` (rule R125, step 1): `0,0,1,1,0,1` or `1,1,0,0,1,0`. -/
def syncExtension (lap : BitVec 24) : BitVec 6 := if lap.getLsbD 23 then 0b010011 else 0b101100

/-- `X(D) mod SYNC_G(D)` over GF(2), for `X` of degree at most 63: long division from the top coefficient (rule R125,
step 4). -/
def syncRemainder (x : Nat) : Nat :=
  (List.range 30).foldl (fun r j => if r.testBit (63 - j) then r ^^^ (hw.syncG <<< (29 - j)) else r) x

/-- `SyncWord(lap)`, bit `i` being `sw[i]` (rule R125). -/
def syncWord (lap : BitVec 24) : BitVec 64 :=
  let info : BitVec 30 := syncExtension lap ++ lap
  let xt : BitVec 30 := info ^^^ hw.syncPn.extractLsb' 34 30
  let ct : BitVec 34 := BitVec.ofNat 34 (syncRemainder (xt.toNat <<< 34))
  (xt ++ ct) ^^^ hw.syncPn

/-- The preamble, bit `i` being `pre[i]` (rule R126). -/
def preamble (sw : BitVec 64) : BitVec 4 := if sw.getLsbD 0 then 0b0101 else 0b1010

/-- The trailer, bit `i` being `tr[i]` (rule R126). -/
def trailer (sw : BitVec 64) : BitVec 4 := if sw.getLsbD 63 then 0b1010 else 0b0101

/-- `AcGen(lap)` as a 72-bit number, bit `i` being `ac[i]` (rule R127). -/
def accessCode (lap : BitVec 24) : BitVec 72 := trailer (syncWord lap) ++ syncWord lap ++ preamble (syncWord lap)

/-- `AcGen(lap)` as a bit sequence in air order (rule R127). -/
def acGen (lap : BitVec 24) : Bits := hostToAir (accessCode lap).toNat hw.acLen

/-- The `errs` of `VerifyAc(s, lap)` (rule R129): the full count over the first 68 positions. -/
def verifyErrors (s : Bits) (lap : BitVec 24) : Nat := distance s (acGen lap) hw.acCmpLen

/-- The `accept` of `VerifyAc(s, lap)` (rule R129). -/
def verifyAccepts (s : Bits) (lap : BitVec 24) : Bool := verifyErrors s lap < hw.acMaxErr

/-- `PREAMBLE_DIST[v]` (rule R131). -/
def preambleDist (v : BitVec 5) : Nat := hw.preambleDist.getD v.toNat 0

/-- `TRAILER_DIST[v]` (rule R131). -/
def trailerDist (v : BitVec 7) : Nat := hw.trailerDist.getD v.toNat 0

/-- The pre-filter of rule R132 at the head of a window. -/
def sniffCandidate (w : Bits) : Bool :=
  preambleDist (BitVec.ofNat 5 (airToHost (slice w hw.preamblePos hw.preambleBits) hw.preambleBits)) +
    trailerDist (BitVec.ofNat 7 (airToHost (slice w hw.trailerPos hw.trailerBits) hw.trailerBits)) ≤ hw.sniffBudget

/-- The LAP at its place in a window (rule R132). -/
def sniffLap (w : Bits) : BitVec 24 := BitVec.ofNat 24 (airToHost (slice w hw.lapPos 24) 24)

/-- The search of rule R132 over `k` offsets, the window's head being symbol address `o`. -/
def sniffFrom : Nat → Bits → Nat → Option (Nat × BitVec 24)
  | 0, _, _ => none
  | k + 1, w, o =>
    if sniffCandidate w && verifyAccepts w (sniffLap w) then some (o, sniffLap w)
    else sniffFrom k w.tail (o + 1)

/-- `Sniff(start)` (rule R132): the offsets `o` from `start` with `o + 72 <= WLEN`. -/
def State.sniff (s : State) (start : Nat) : Option (Nat × BitVec 24) :=
  sniffFrom (s.wlen + 1 - (start + hw.acLen)) (s.readBuf .sym start (s.wlen - start)) start

/-- `ACGEN` (rule R128). -/
def execAcgen (s : State) : Host.Outcome State Fault Refusal :=
  command s fun s =>
    let ac := acGen (lapOperand s.ops.a0)
    (s.writeBuf .wb 0 ac).finish (airToHost (slice ac 4 32) 32) (airToHost (slice ac 36 32) 32) .ok

/-- `SNIFF` (rule R133). Finding nothing is no `raise`. -/
def execSniff (s : State) : Host.Outcome State Fault Refusal :=
  command s fun s =>
    let start := countOperand s.ops.a0
    if start > s.wlen then s.raise .badOperand
    else
      match s.sniff start with
      | some (o, lap) => s.finish o lap.toNat .ok
      | none => s.finish 0xFFFFFFFF 0 .notFound

/-- `VERIFY` (rule R130). A rejection is no `raise`. -/
def execVerify (s : State) : Host.Outcome State Fault Refusal :=
  command s fun s =>
    let a := bitAddress s.ops.a0
    let lap := lapOperand s.ops.a1
    if !s.rangeOk a 68 then s.raise .badOperand
    else
      let w := s.bitsAt a 68
      let accept := verifyAccepts w lap
      s.finish accept.toNat (verifyErrors w lap) (if accept then .ok else .notFound)

end Sys2Proof.Machine
end

