-- ==== Sys2Proof/Machine/BitCodec.lean ====
section
/-! DEFINITION. The bit-whitening-engine: dewhitening (rules R92 to R94) and the commands `AIR2HOST`, `HOST2AIR`, `REV8`
and `DEWHITEN` (rules R96 to R99). -/

namespace Sys2Proof.Machine

/-- Entry `j mod 127` of `WHITEN_SEQ` (rule R92). -/
def whitenBit (j : Nat) : Bool := hw.whitenSeq.getLsbD (j % hw.whitenPeriod)

/-- A sequence whitened from position `j` of `WHITEN_SEQ` on. -/
def whitenFrom : Nat → Bits → Bits
  | _, [] => []
  | j, b :: s => (b ^^ whitenBit j) :: whitenFrom (j + 1) s

/-- The start position of rule R94, `(WHITEN_IDX[clock[5:0]] + skip) mod 127`. -/
def whitenStart (clock skip : Nat) : Nat :=
  (hw.whitenIdx.getD (clock % 64) 0 + skip % hw.whitenPeriod) % hw.whitenPeriod

/-- `Dewhiten(s, clock, n, skip, w)` (rule R94). -/
def dewhiten (s : Bits) (clock n skip : Nat) (w : Bool) : Bits :=
  if w then whitenFrom (whitenStart clock skip) (s.take n) else s.take n

/-- `Dewhiten` under `CLOCK[5:0]` and `WHITENED`, as the header and payload decoders use it. -/
def State.dewhitened (s : State) (t : Bits) (n skip : Nat) : Bits := dewhiten t s.clock6 n skip s.ctx.whitened

/-- `AIR2HOST` (rule R96). -/
def execAir2host (s : State) : Host.Outcome State Fault Refusal :=
  command s fun s =>
    let a := bitAddress s.ops.a0
    let n := countOperand s.ops.a1
    if n > 32 || !s.rangeOk a n then s.raise .badOperand
    else s.finish (airToHost (s.bitsAt a n) n) 0 .ok

/-- `HOST2AIR` (rule R97). -/
def execHost2air (s : State) : Host.Outcome State Fault Refusal :=
  command s fun s =>
    let n := countOperand s.ops.a1
    let d := countOperand s.ops.a2
    if n > 32 || d > 3125 || d + n > 3125 then s.raise .badOperand
    else (s.writeBuf .wb d (hostToAir s.ops.a0.toNat n)).finish n 0 .ok

/-- `REV8` (rule R98). -/
def execRev8 (s : State) : Host.Outcome State Fault Refusal :=
  command s fun s => s.finish (rev8 (byteOperand s.ops.a0)).toNat 0 .ok

/-- `DEWHITEN` (rule R99). -/
def execDewhiten (s : State) : Host.Outcome State Fault Refusal :=
  command s fun s =>
    let a := bitAddress s.ops.a0
    let clock := clockOperand s.ops.a1
    let n := countOperand s.ops.a2
    let skip := countOperand s.ops.a3
    if n > 3125 || !s.rangeOk a n then s.raise .badOperand
    else (s.writeBuf .wb 0 (dewhiten (s.bitsAt a n) clock n skip s.ctx.whitened)).finish n (whitenStart clock skip) .ok

end Sys2Proof.Machine
end

