-- ==== Sys2Proof/Machine/Fec.lean ====
section
/-! DEFINITION. The hamming-fec-decoder: the 1/3 repetition code (rules R110, R111), the (15,10) block code (rules R113
to R115), and the commands `UNFEC13` and `UNFEC23` (rules R112, R116). -/

namespace Sys2Proof.Machine

/-- The majority of three bits (rule R110). -/
def majority (t : Bool × Bool × Bool) : Bool := (t.1 && t.2.1) || (t.2.1 && t.2.2) || (t.2.2 && t.1)

/-- Whether three bits are not all equal (rule R110). -/
def disagrees (t : Bool × Bool × Bool) : Bool := t.1 != t.2.1 || t.2.1 != t.2.2

/-- The triplets `s[3i], s[3i+1], s[3i+2]` for `i` below `n` (rule R110). -/
def triplets (s : Bits) (n : Nat) : List (Bool × Bool × Bool) :=
  (List.range n).map fun i => (s.getD (3 * i) false, s.getD (3 * i + 1) false, s.getD (3 * i + 2) false)

/-- `Unfec13(s, n)` (rule R110): the decoded bits and the count of disagreeing triplets. -/
def unfec13 (s : Bits) (n : Nat) : Bits × Nat :=
  ((triplets s n).map majority, (triplets s n).countP disagrees)

/-- `Rep13Ok(n, be)` (rule R111). -/
def rep13Ok (n be : Nat) : Bool := be < hw.repGate n

/-- `Parity(d)` (rule R113). -/
def parity (d : Bits) : BitVec 5 :=
  (d.zip hw.fec23Gen).foldl (fun acc p => if p.1 then acc ^^^ p.2 else acc) 0

/-- The received check bits of a codeword as a number, the first one the most significant (rule R113). -/
def checkBits (c : Bits) : BitVec 5 := BitVec.ofNat 5 (airValue (slice c 10 5).reverse)

/-- `Unfec23Block(c)` (rule R114): the ten data bits and whether one of them was inverted, or `none` where the block is
uncorrectable. -/
def unfec23Block (c : Bits) : Option (Bits × Bool) :=
  let d := c.take 10
  let diff := checkBits c ^^^ parity d
  if popcount diff ≤ 1 then some (d, false)
  else if hw.fec23Gen.contains diff then some (d.modify (hw.fec23Gen.idxOf diff) not, true)
  else none

/-- Decoding `nblk` blocks in order (rule R115): all data bits and the number of blocks in which a data bit was inverted,
or `none` as soon as one is uncorrectable. -/
def unfec23Blocks : Nat → Bits → Option (Bits × Nat)
  | 0, _ => some ([], 0)
  | k + 1, s =>
    match unfec23Block (s.take 15), unfec23Blocks k (s.drop 15) with
    | some (d, flipped), some (rest, m) => some (d ++ rest, flipped.toNat + m)
    | _, _ => none

/-- `Unfec23(s, nbits)` (rule R115), with the count that `UNFEC23` reports. -/
def unfec23 (s : Bits) (nbits : Nat) : Option (Bits × Nat) := unfec23Blocks (ceilDiv nbits 10) s

/-- `UNFEC13` (rule R112). A failed gate is no `raise`: the bits and the count are delivered all the same. -/
def execUnfec13 (s : State) : Host.Outcome State Fault Refusal :=
  command s fun s =>
    let a := bitAddress s.ops.a0
    let n := countOperand s.ops.a1
    if n > 1041 || !s.rangeOk a (3 * n) then s.raise .badOperand
    else
      let (t, be) := unfec13 (s.bitsAt a (3 * n)) n
      let ok := rep13Ok n be
      (s.writeBuf .wb 0 t).finish be ok.toNat (if ok then .ok else .repetitionGate)

/-- `UNFEC23` (rule R116). -/
def execUnfec23 (s : State) : Host.Outcome State Fault Refusal :=
  command s fun s =>
    let a := bitAddress s.ops.a0
    let nbits := countOperand s.ops.a1
    let nblk := ceilDiv nbits 10
    if nbits > 2080 || !s.rangeOk a (15 * nblk) then s.raise .badOperand
    else
      match unfec23 (s.bitsAt a (15 * nblk)) nbits with
      | none => s.raise .fecUncorrectable
      | some (r, flips) => (s.writeBuf .wb 0 r).finish (10 * nblk) flips .ok

end Sys2Proof.Machine
end

