-- ==== Sys2Proof/Machine/Header.lean ====
section
/-! DEFINITION. The packet-header-ec-decoder: `HeaderBits` (rule R145), `HecToUap` (rule R146), and the commands `HEC2UAP`,
`PROBE_UAP` and `DECODE_HEADER` (rules R147, R149, R150). -/

namespace Sys2Proof.Machine

/-- The outcomes of `HeaderBits` (rule R145). -/
inductive HeaderRead where
  | shortBuffer
  | repetitionGate
  /-- The eighteen header bits, in air order. -/
  | bits (h : Bits)
deriving DecidableEq, Repr

/-- `HeaderBits(c)` (rule R145): repetition decode first, then dewhitening from skip 0. -/
def State.headerBits (s : State) (c : Nat) : HeaderRead :=
  if s.length < hw.payloadPos then .shortBuffer
  else
    let (t, be) := unfec13 (s.symbols hw.hdrPos hw.hdrSymbols) 18
    if rep13Ok 18 be then .bits (dewhiten t c 18 0 s.ctx.whitened) else .repetitionGate

/-- The 10-bit data field of a header (rules R66, R145). -/
def headerData (h : Bits) : BitVec 10 := BitVec.ofNat 10 (airToHost (slice h 0 10) 10)

/-- The HEC of a header (rules R66, R145). -/
def headerHec (h : Bits) : Byte := BitVec.ofNat 8 (airToHost (slice h 10 8) 8)

/-- The header as the 18-bit value of `PACKET_HEADER` (rule R23). -/
def headerValue (h : Bits) : BitVec 18 := BitVec.ofNat 18 (airToHost h 18)

/-- One round of rule R146: the polynomial if the top bit is set, then a left shift feeding in the top bit xor the data
bit. -/
def hecRound (reg : Byte) (d : Bool) : Byte :=
  let top := reg.getLsbD 7
  let reg := if top then reg ^^^ hw.hecPoly else reg
  (reg <<< 1) ||| (BitVec.ofBool (top ^^ d)).setWidth 8

/-- `HecToUap(data, hec)` (rule R146): ten rounds from the most significant data bit, then `Rev8`. -/
def hecToUap (data : BitVec 10) (hec : Byte) : Byte :=
  rev8 ((hostToAir data.toNat 10).reverse.foldl hecRound hec)

/-- The UAP that a header's HEC stands for. -/
def headerUap (h : Bits) : Byte := hecToUap (headerData h) (headerHec h)

/-- The register writes of an accepted header (rule R150). -/
def State.setHeader (s : State) (h : Bits) : State :=
  { s with
    prog := { s.prog with
      packetHeader := headerValue h
      packetType := BitVec.ofNat 4 (airToHost (slice h 3 4) 4)
      haveHeader := true } }

/-- The body of `DECODE_HEADER` from `STATE <- HeaderPending` on (rule R150). -/
def State.headerStage (s : State) : State :=
  let s := s.setPhase .headerPending
  match s.headerBits s.clock6 with
  | .shortBuffer => (s.setPhase .created).raise .shortBuffer
  | .repetitionGate => (s.setPhase .created).raise .repetitionGate
  | .bits h =>
    let u := headerUap h
    if u ≠ s.ctx.uap then (s.setPhase .created).finish 0 u.toNat .badHec
    else ((s.setHeader h).setPhase .headerDecoded).finish 1 u.toNat .ok

/-- `HEC2UAP` (rule R147). -/
def execHec2uap (s : State) : Host.Outcome State Fault Refusal :=
  command s fun s => s.finish (hecToUap (headerDataOperand s.ops.a0) (byteOperand s.ops.a1)).toNat 0 .ok

/-- The states in which a packet exists and no command is running (rules R30, R149). -/
def hasPacket : Phase → Bool
  | .created => true
  | .headerDecoded => true
  | .payloadDecoded => true
  | _ => false

/-- `PROBE_UAP` (rule R149): a candidate is returned and nothing else is written. -/
def execProbeUap (s : State) : Host.Outcome State Fault Refusal :=
  command s fun s =>
    if !hasPacket s.phase then s.raise .badState
    else
      match s.headerBits (clockOperand s.ops.a0) with
      | .shortBuffer => s.raise .shortBuffer
      | .repetitionGate => s.raise .repetitionGate
      | .bits h => s.finish (headerUap h).toNat (headerValue h).toNat .ok

/-- `DECODE_HEADER` (rule R150). -/
def execDecodeHeader (s : State) : Host.Outcome State Fault Refusal :=
  command s fun s =>
    if s.phase ≠ .created then s.raise .badState
    else if !s.ctx.haveUap then s.raise .noUap
    else s.headerStage

end Sys2Proof.Machine
end

