-- ==== Sys2Proof/WellFormed.lean ====
section
/-! DEFINITION. Which words are well formed. An `Instr` needs no check of its own: every operand is held at its exact
width, so an ill-formed instruction cannot be written. What can be ill formed is a word: a command word must have its
reserved bits zero (rule R60) and an operation code that rule R61 lists; every 18-bit packet header is well formed, all
sixteen types being defined (rule R73). -/

namespace Sys2Proof

/-- The 27 operation codes of rule R61. -/
def operationCodes : List (BitVec 8) :=
  [0x00, 0x01, 0x02, 0x10, 0x11, 0x12, 0x13, 0x20, 0x21, 0x30, 0x31, 0x32, 0x40, 0x41, 0x42, 0x50, 0x51, 0x60,
   0x70, 0x71, 0x72, 0x73, 0x74, 0x75, 0x76, 0x77, 0x78]

/-- Rule R60: bits 31:8 of a command word are reserved and must be 0. -/
def reservedZero (w : Word) : Bool := w.extractLsb' 8 24 == 0

/-- Rule R61: the operation code, bits 7:0 of the word, is one the table lists. -/
def opListed (w : Word) : Bool := operationCodes.contains (w.extractLsb' 0 8)

/-- The words that stand for an instruction (rules R60, R61 and R73). -/
def InstrWord.wf : InstrWord → Bool
  | .command w => reservedZero w && opListed w
  | .header _ => true

end Sys2Proof
end

