-- ==== Sys2Proof/Decode.lean ====
section
/-! DEFINITION. The decoder, total and rejecting by name, and after it the encoder, both written from the tables of
rules R61 (commands) and R66, R72 (packet headers). -/

namespace Sys2Proof

/-- Why a word stands for no instruction. Rule R62 calls every such command word illegal; the two names say which part of
rule R60 it breaks. -/
inductive DecodeError where
  /-- A reserved bit in 31:8 is not 0. -/
  | reservedBits
  /-- The operation code is not one of the 27 of rule R61. -/
  | unlistedOp
deriving DecidableEq, Repr

/-- The operation codes of rule R61. -/
def decodeOp (op : Nat) : Option Instr :=
  match op with
  | 0x00 => some .nop
  | 0x01 => some .restart
  | 0x02 => some .clrCtx
  | 0x10 => some .air2host
  | 0x11 => some .host2air
  | 0x12 => some .rev8
  | 0x13 => some .dewhiten
  | 0x20 => some .unfec13
  | 0x21 => some .unfec23
  | 0x30 => some .acgen
  | 0x31 => some .sniff
  | 0x32 => some .verify
  | 0x40 => some .hec2uap
  | 0x41 => some .probeUap
  | 0x42 => some .decodeHeader
  | 0x50 => some .crcgen
  | 0x51 => some .crcchk
  | 0x60 => some .decodePayload
  | 0x70 => some .create
  | 0x71 => some .setLap
  | 0x72 => some .setUap
  | 0x73 => some .setNap
  | 0x74 => some .setClock
  | 0x75 => some .setChannel
  | 0x76 => some .setWhitened
  | 0x77 => some .decode
  | 0x78 => some .emit
  | _ => none

/-- Decoding a command word (rules R60 to R62). -/
def decodeCommand (w : Word) : Except DecodeError Instr :=
  if w.extractLsb' 8 24 = 0 then
    match decodeOp (w.extractLsb' 0 8).toNat with
    | some i => .ok i
    | none => .error .unlistedOp
  else .error .reservedBits

/-- The packet type of a 4-bit type code: the one whose row of the packet type table has that code (rule R72). Every code
has a row (rule R73). -/
def packetTypeOf (code : BitVec 4) : PacketType :=
  (packetTypes.find? fun t => (hw.packetRow t).code == code).getD .null

/-- The packet row of a type, with the header's other fields. -/
def packetInstr (t : PacketType) (f : HeaderFields) : Instr :=
  match t with
  | .null => .pktNull f
  | .poll => .pktPoll f
  | .fhs => .pktFhs f
  | .dm1 => .pktDm1 f
  | .dh1 => .pktDh1 f
  | .hv1 => .pktHv1 f
  | .hv2 => .pktHv2 f
  | .hv3Ev3 => .pktHv3Ev3 f
  | .dv => .pktDv f
  | .aux1 => .pktAux1 f
  | .dm3 => .pktDm3 f
  | .dh3 => .pktDh3 f
  | .ev4 => .pktEv4 f
  | .ev5 => .pktEv5 f
  | .dm5 => .pktDm5 f
  | .dh5 => .pktDh5 f

/-- `TYPE`, header bits 6:3 (rule R66). -/
def headerType (h : BitVec 18) : BitVec 4 := h.extractLsb' 3 4

/-- The header's fields beside `TYPE` (rule R66). -/
def headerFields (h : BitVec 18) : HeaderFields where
  ltAddr := h.extractLsb' 0 3
  flow := h.getLsbD 7
  arqn := h.getLsbD 8
  seqn := h.getLsbD 9
  hec := h.extractLsb' 10 8

/-- Decoding a packet header: every 18-bit value is one (rule R73). -/
def decodeHeaderWord (h : BitVec 18) : Instr := packetInstr (packetTypeOf (headerType h)) (headerFields h)

/-- Decoding either kind of word. -/
def decode : InstrWord → Except DecodeError Instr
  | .command w => decodeCommand w
  | .header h => .ok (decodeHeaderWord h)

/-- The word of an instruction of the opcode table, as the table numbers its bits: a row of 32 bits is a command word
(rule R60); a narrower row is an 18-bit packet header, bit `i` of the table being header bit `i` in air order
(rules R23, R66). A header has no bit above 17, so the bits that pad it to whole bytes have no place in it. -/
def tableWord (nbits w : Nat) : Option InstrWord :=
  if nbits < 32 then some (.header (BitVec.ofNat 18 w))
  else if nbits = 32 then some (.command (BitVec.ofNat 32 w))
  else none

/-- The instruction the decoder reads from a word of the opcode table. -/
def decodeTableWord (nbits w : Nat) : Option Instr :=
  match tableWord nbits w with
  | none => none
  | some iw =>
    match decode iw with
    | .ok i => some i
    | .error _ => none

/-- The 18 bits of a packet header, laid out as rule R66 says: `LT_ADDR` 2:0, `TYPE` 6:3, `FLOW` 7, `ARQN` 8, `SEQN` 9,
`HEC` 17:10. -/
def headerWord (type : BitVec 4) (f : HeaderFields) : BitVec 18 :=
  f.hec ++ BitVec.ofBool f.seqn ++ BitVec.ofBool f.arqn ++ BitVec.ofBool f.flow ++ type ++ f.ltAddr

/-- The encoder (rules R61, R66 and R72). -/
def encode : Instr → InstrWord
  | .nop => .command 0x00000000
  | .restart => .command 0x00000001
  | .clrCtx => .command 0x00000002
  | .air2host => .command 0x00000010
  | .host2air => .command 0x00000011
  | .rev8 => .command 0x00000012
  | .dewhiten => .command 0x00000013
  | .unfec13 => .command 0x00000020
  | .unfec23 => .command 0x00000021
  | .acgen => .command 0x00000030
  | .sniff => .command 0x00000031
  | .verify => .command 0x00000032
  | .hec2uap => .command 0x00000040
  | .probeUap => .command 0x00000041
  | .decodeHeader => .command 0x00000042
  | .crcgen => .command 0x00000050
  | .crcchk => .command 0x00000051
  | .decodePayload => .command 0x00000060
  | .create => .command 0x00000070
  | .setLap => .command 0x00000071
  | .setUap => .command 0x00000072
  | .setNap => .command 0x00000073
  | .setClock => .command 0x00000074
  | .setChannel => .command 0x00000075
  | .setWhitened => .command 0x00000076
  | .decode => .command 0x00000077
  | .emit => .command 0x00000078
  | .pktNull f => .header (headerWord 0 f)
  | .pktPoll f => .header (headerWord 1 f)
  | .pktFhs f => .header (headerWord 2 f)
  | .pktDm1 f => .header (headerWord 3 f)
  | .pktDh1 f => .header (headerWord 4 f)
  | .pktHv1 f => .header (headerWord 5 f)
  | .pktHv2 f => .header (headerWord 6 f)
  | .pktHv3Ev3 f => .header (headerWord 7 f)
  | .pktDv f => .header (headerWord 8 f)
  | .pktAux1 f => .header (headerWord 9 f)
  | .pktDm3 f => .header (headerWord 10 f)
  | .pktDh3 f => .header (headerWord 11 f)
  | .pktEv4 f => .header (headerWord 12 f)
  | .pktEv5 f => .header (headerWord 13 f)
  | .pktDm5 f => .header (headerWord 14 f)
  | .pktDh5 f => .header (headerWord 15 f)

end Sys2Proof
end

