-- ==== Sys2Proof/Machine/Crc.lean ====
section
/-! DEFINITION. The crc-16-validator: `CrcGen` and `CrcOk` (rules R160, R161) and the commands `CRCGEN` and `CRCCHK`
(rules R162, R163). -/

namespace Sys2Proof.Machine

/-- One step of the CRC register (rule R160): shift right, and where the bit shifted out differs from the data bit invert
the bits of `CRC_TAPS`, bit 15 among them being the bit shifted in. -/
def crcStep (reg : BitVec 16) (b : Bool) : BitVec 16 :=
  if reg.getLsbD 0 ^^ b then (reg >>> 1) ^^^ hw.crcTaps else reg >>> 1

/-- The seed of the CRC register: `Rev8(uap)` in its upper byte (rule R160). -/
def crcSeed (uap : Byte) : BitVec 16 := rev8 uap ++ 0#8

/-- `CrcGen(s, n, uap)` (rule R160). -/
def crcGen (s : Bits) (n : Nat) (uap : Byte) : BitVec 16 := (s.take n).foldl crcStep (crcSeed uap)

/-- `CrcOk(s, L, uap)` (rule R161), for `L >= 2`. -/
def crcOk (s : Bits) (len : Nat) (uap : Byte) : Bool :=
  (crcGen s (8 * (len - 2)) uap).toNat == airToHost (slice s (8 * (len - 2)) 16) 16

/-- `CRCGEN` (rule R162). -/
def execCrcgen (s : State) : Host.Outcome State Fault Refusal :=
  command s fun s =>
    let a := bitAddress s.ops.a0
    let n := countOperand s.ops.a1
    let uap := byteOperand s.ops.a2
    if n > 3125 || !s.rangeOk a n then s.raise .badOperand
    else s.finish (crcGen (s.bitsAt a n) n uap).toNat 0 .ok

/-- `CRCCHK` (rule R163). A mismatch is no `raise`. -/
def execCrcchk (s : State) : Host.Outcome State Fault Refusal :=
  command s fun s =>
    let a := bitAddress s.ops.a0
    let len := countOperand s.ops.a1
    let uap := byteOperand s.ops.a2
    if len < 2 || len > 390 || !s.rangeOk a (8 * len) then s.raise .badOperand
    else
      let bits := s.bitsAt a (8 * len)
      let ok := crcOk bits len uap
      s.finish ok.toNat (crcGen bits (8 * (len - 2)) uap).toNat (if ok then .ok else .crcMismatch)

end Sys2Proof.Machine
end

