-- ==== Sys2Proof/Machine/Handlers.lean ====
section
/-! DEFINITION. The payload handlers of rules R172 to R183, what they return (rule R180), and the dispatch over the packet
type (rule R171). A handler takes the state at its start to the state it leaves and its outcome. -/

namespace Sys2Proof.Machine

/-- What a handler returns (rule R180): one constructor for each pair of the table, and the missing handler of rule
R247. -/
inductive PayloadOutcome where
  /-- (10, `OK`). -/
  | crcMatched
  /-- (1, `CrcMismatch`). -/
  | crcMismatched
  /-- (1, `ImplausibleLength`). -/
  | implausibleLength
  /-- (1, `Unvalidated`). -/
  | unvalidated
  /-- (0, `FecUncorrectable`). -/
  | fecUncorrectable
  /-- (0, `RepetitionGate`). -/
  | repetitionGate
  /-- (0, `ShortBuffer`). -/
  | shortBuffer
  /-- The configuration defines no handler for the type (rule R247). -/
  | noHandler
deriving DecidableEq, Repr

/-- The `res` of the pair (rule R180). -/
def PayloadOutcome.result : PayloadOutcome → Confidence
  | .crcMatched => .ten
  | .crcMismatched => .one
  | .implausibleLength => .one
  | .unvalidated => .one
  | .fecUncorrectable => .zero
  | .repetitionGate => .zero
  | .shortBuffer => .zero
  | .noHandler => .zero

/-- The `cause` of the pair (rule R180). -/
def PayloadOutcome.cause : PayloadOutcome → Cause
  | .crcMatched => .ok
  | .crcMismatched => .crcMismatch
  | .implausibleLength => .implausibleLength
  | .unvalidated => .unvalidated
  | .fecUncorrectable => .fecUncorrectable
  | .repetitionGate => .repetitionGate
  | .shortBuffer => .shortBuffer
  | .noHandler => .invariant

/-- A handler: a function of the packet symbols and the context (rule R171). -/
abbrev Handler := State → State × PayloadOutcome

/-- The outcome of a CRC check: `if CrcOk(L) return (10, OK) else return (1, CrcMismatch)`. -/
def crcOutcome (bits : Bits) (len : Nat) (uap : Byte) : PayloadOutcome :=
  if crcOk bits len uap then .crcMatched else .crcMismatched

/-- The whitening position of the first payload bit (rule R68). -/
def payloadSkip : Nat := 18

/-- The number of symbols from packet symbol `base` to the packet's end: `LENGTH - base`. -/
def State.symbolsFrom (s : State) (base : Nat) : Nat := s.length - base

/-- `PlNone()` (rule R172). -/
def plNone : Handler := fun s => (s.setPayloadLength 0, .unvalidated)

/-- The symbols that `n` bits take under a FEC policy (rules R68, R74). Of DV the data field is meant. -/
def fecSymbols : Fec → Nat → Nat
  | .none, n => n
  | .repetition, n => 3 * n
  | .block, n => 15 * ceilDiv n 10
  | .voiceThenBlock, n => 15 * ceilDiv n 10

/-- Undoing the FEC of a field of `n` bits: the decoded bits, or the outcome that its code fails with (rules R111,
R115). -/
def undoFec (f : Fec) (s : Bits) (n : Nat) : Except PayloadOutcome Bits :=
  match f with
  | .none => .ok s
  | .repetition => if rep13Ok n (unfec13 s n).2 then .ok (unfec13 s n).1 else .error .repetitionGate
  | .block => ((unfec23 s n).map Prod.fst).elim (.error .fecUncorrectable) .ok
  | .voiceThenBlock => ((unfec23 s n).map Prod.fst).elim (.error .fecUncorrectable) .ok

/-- The body that `PlDm` and `PlDh` share (rules R174, R175): the payload header, the bound on the length it declares, then
the whole field again under the row's FEC, and the CRC where the row has one. -/
def plHeaded (base skip : Nat) (r : PacketRow) : Handler := fun s =>
  let size := s.symbolsFrom base
  let hb := 8 * r.hdr
  if size < fecSymbols r.fec hb then (s, .shortBuffer)
  else
    match undoFec r.fec (s.symbols base (fecSymbols r.fec hb)) hb with
    | .error o => (s, o)
    | .ok t =>
      let p := s.dewhitened t hb skip
      let s := s.setPlHeader p r.hdr
      let tot := r.hdr + bodyLength p r.hdr + (if r.crc then 2 else 0)
      if tot > r.maxBytes then (s.setPayloadLength 0, .implausibleLength)
      else
        let nb := 8 * tot
        if size < fecSymbols r.fec nb then (s, .shortBuffer)
        else
          match undoFec r.fec (s.symbols base (fecSymbols r.fec nb)) nb with
          | .error o => (s, o)
          | .ok t =>
            let bits := s.dewhitened t nb skip
            ((s.writeBuf .pay 0 bits).setPayloadLength tot,
              if r.crc then crcOutcome bits tot s.ctx.uap else .unvalidated)

/-- `PlDm` of a row, its field starting at packet symbol `base` and whitening position `skip` (rule R174). -/
def plDm (base skip : Nat) (r : PacketRow) : Handler := plHeaded base skip r

/-- `PlDh` of a row (rule R175). -/
def plDh (r : PacketRow) : Handler := plHeaded hw.payloadPos payloadSkip r

/-- The clocks `PlFhs` tries, in order: the nominal one, then `FHS_RETRY` (rule R176). -/
def fhsClocks (c0 : Nat) : List Nat := c0 :: hw.fhsRetry

/-- `PlFhs()` (rule R176). -/
def plFhs (r : PacketRow) : Handler := fun s =>
  let n := 8 * r.fixedBytes
  let m := fecSymbols r.fec n
  if s.symbolsFrom hw.payloadPos < m then (s, .shortBuffer)
  else
    match undoFec r.fec (s.symbols hw.payloadPos m) n with
    | .error o => (s, o)
    | .ok t =>
      let reading := fun c => dewhiten t c n payloadSkip s.ctx.whitened
      let s := s.setPayloadLength r.fixedBytes
      match (fhsClocks s.clock6).find? fun c => crcOk (reading c) r.fixedBytes s.ctx.uap with
      | some c => ((s.writeBuf .pay 0 (reading c)).setFhsClock c, .crcMatched)
      | none => (s.writeBuf .pay 0 (reading s.clock6), .crcMismatched)

/-- `PlHv(t)` (rule R177): HV1, HV2 and HV3 differ in their row's FEC and fixed length alone. -/
def plHv (r : PacketRow) : Handler := fun s =>
  let n := 8 * r.fixedBytes
  let m := fecSymbols r.fec n
  if s.symbolsFrom hw.payloadPos < m then (s, .shortBuffer)
  else
    match undoFec r.fec (s.symbols hw.payloadPos m) n with
    | .error o => (s, o)
    | .ok u =>
      ((s.writeBuf .pay 0 (s.dewhitened u n payloadSkip)).setPayloadLength r.fixedBytes, .unvalidated)

/-- The shortest of the lengths `lo .. hi` at which the CRC matches: the length-discovery rule of R178 and R179. -/
def discover (bits : Bits) (lo hi : Nat) (uap : Byte) : Option Nat :=
  (List.range' lo (hi + 1 - lo)).find? fun len => crcOk bits len uap

/-- `PlEvUncoded(maxtot)` (rule R178). The loop dewhitens byte after byte and stops at the first match, so it leaves in
`PAY` the dewhitened bytes up to the length it reports. -/
def plEvUncoded (maxtot : Nat) : Handler := fun s =>
  let n := min maxtot (s.symbolsFrom hw.payloadPos / 8)
  if n < 3 then (s, .shortBuffer)
  else
    let bits := s.dewhitened (s.symbols hw.payloadPos (8 * n)) (8 * n) payloadSkip
    match discover bits 3 n s.ctx.uap with
    | some len => ((s.writeBuf .pay 0 (bits.take (8 * len))).setPayloadLength len, .crcMatched)
    | none => ((s.writeBuf .pay 0 bits).setPayloadLength n, .crcMismatched)

/-- The loop of `PlEv4` (rule R179) from block `b` on, over the symbols not yet read: `done` holds the bits decoded so
far, `lc` the lengths examined, `maxtot` the largest length. It gives the bits decoded, the `PAYLOAD_LENGTH` and the
outcome. -/
def ev4Loop (maxtot clock : Nat) (w : Bool) (uap : Byte) : Nat → Nat → Nat → Bits → Bits → Bits × Nat × PayloadOutcome
  | 0, b, _, _, done => (done, 10 * b / 8, .crcMismatched)
  | k + 1, b, lc, syms, done =>
    match unfec23 (syms.take 15) 10 with
    | none => if b < 3 then (done, 0, .fecUncorrectable) else (done, 10 * b / 8, .crcMismatched)
    | some (u, _) =>
      let done := done ++ dewhiten u clock 10 (payloadSkip + 10 * b) w
      let cap := min (10 * (b + 1) / 8) maxtot
      match discover done (lc + 1) cap uap with
      | some len => (done, len, .crcMatched)
      | none => ev4Loop maxtot clock w uap k (b + 1) (max lc cap) (syms.drop 15) done

/-- `PlEv4()` (rule R179). -/
def plEv4 (maxtot : Nat) : Handler := fun s =>
  let nblk := min (ceilDiv (8 * maxtot) 10) (s.symbolsFrom hw.payloadPos / 15)
  if nblk < 3 then (s, .shortBuffer)
  else
    let (bits, len, o) :=
      ev4Loop maxtot s.clock6 s.ctx.whitened s.ctx.uap nblk 0 2 (s.symbols hw.payloadPos (15 * nblk)) []
    ((s.writeBuf .pay 0 bits).setPayloadLength len, o)

/-- `PlType7()` (rule R181): EV3 first, and HV3 where EV3 did not validate. -/
def plType7 (r : PacketRow) : Handler := fun s =>
  match plEvUncoded r.maxBytes s with
  | (s, .crcMatched) => (s, .crcMatched)
  | (s, _) => plHv r (s.setPayloadLength 0)

/-- `PlDv()` (rule R182): the 80 voice bits, then the data field, its symbols and whitening positions counting on. -/
def plDv (r : PacketRow) : Handler := fun s =>
  if s.symbolsFrom hw.payloadPos < 80 then (s, .shortBuffer)
  else
    plDm (hw.payloadPos + 80) (payloadSkip + 80) r
      (s.writeBuf .voice 0 (s.dewhitened (s.symbols hw.payloadPos 80) 80 payloadSkip))

/-- `PlAux1()` under a value of `AUX1_DECODE` (rule R183). -/
def plAux1 (mode : Aux1Decode) (r : PacketRow) : Handler :=
  match mode with
  | .dhNocrc => plDh r
  | .fault => fun s => (s, .noHandler)

/-- The handler that a row names, with the numbers of the row (rules R72, R171). -/
def runHandler (r : PacketRow) : Handler :=
  match r.handler with
  | .plNone => plNone
  | .plFhs => plFhs r
  | .plDm => plDm hw.payloadPos payloadSkip r
  | .plDh => plDh r
  | .plHv => plHv r
  | .plType7 => plType7 r
  | .plDv => plDv r
  | .plAux1 => plAux1 hw.aux1Decode r
  | .plEv4 => plEv4 r.maxBytes
  | .plEvUncoded => plEvUncoded r.maxBytes

/-! ## The handler of each type (rule R171), as its row of rule R72 names it -/

/-- The row of a type. -/
def row (t : PacketType) : PacketRow := hw.packetRow t

def handleNull : Handler := runHandler (row .null)
def handlePoll : Handler := runHandler (row .poll)
def handleFhs : Handler := runHandler (row .fhs)
def handleDm1 : Handler := runHandler (row .dm1)
def handleDh1 : Handler := runHandler (row .dh1)
def handleHv1 : Handler := runHandler (row .hv1)
def handleHv2 : Handler := runHandler (row .hv2)
def handleHv3Ev3 : Handler := runHandler (row .hv3Ev3)
def handleDv : Handler := runHandler (row .dv)
def handleAux1 : Handler := runHandler (row .aux1)
def handleDm3 : Handler := runHandler (row .dm3)
def handleDh3 : Handler := runHandler (row .dh3)
def handleEv4 : Handler := runHandler (row .ev4)
def handleEv5 : Handler := runHandler (row .ev5)
def handleDm5 : Handler := runHandler (row .dm5)
def handleDh5 : Handler := runHandler (row .dh5)

/-- `Dispatch(t)` (rule R171). -/
def handlerOf : PacketType → Handler
  | .null => handleNull
  | .poll => handlePoll
  | .fhs => handleFhs
  | .dm1 => handleDm1
  | .dh1 => handleDh1
  | .hv1 => handleHv1
  | .hv2 => handleHv2
  | .hv3Ev3 => handleHv3Ev3
  | .dv => handleDv
  | .aux1 => handleAux1
  | .dm3 => handleDm3
  | .dh3 => handleDh3
  | .ev4 => handleEv4
  | .ev5 => handleEv5
  | .dm5 => handleDm5
  | .dh5 => handleDh5

end Sys2Proof.Machine
end

