-- ==== Sys2Proof/Machine/Payload.lean ====
section
/-! DEFINITION. The payload-demux-fec-selector: the payload stage (rule R170), the command `DECODE_PAYLOAD`, and the
sixteen packet types as instructions, each the payload stage with its own handler (rules R171, R172 to R183). -/

namespace Sys2Proof.Machine

/-- The end of the payload stage (rule R170): `RESULT`, `CAUSE`, the state the result leads to, `R0` and `R1`; or the
entry into `Fault` where no handler exists (rule R247). -/
def State.endPayload (s : State) (o : PayloadOutcome) : State :=
  match o.result, o with
  | _, .noHandler => s.enterFault
  | .zero, _ =>
    let s := s.clearPayload
    { s with
      phase := .headerDecoded
      prog := { s.prog with result := .zero, havePayload := false }
      res := ⟨0, 0, o.cause⟩ }
  | r, _ =>
    { s with
      phase := .payloadDecoded
      prog := { s.prog with result := r, havePayload := true }
      res := ⟨BitVec.ofNat 32 r.code, s.prog.payloadLength.setWidth 32, o.cause⟩ }

/-- The body of `DECODE_PAYLOAD` from `STATE <- PayloadPending` on, with a given handler (rule R170). -/
def State.payloadStage (s : State) (h : Handler) : State :=
  let r := h (s.setPhase .payloadPending).clearPayload
  r.1.endPayload r.2

/-- `DECODE_PAYLOAD` (rule R170). -/
def execDecodePayload (s : State) : Host.Outcome State Fault Refusal :=
  command s fun s =>
    if s.phase ≠ .headerDecoded then s.raise .badState
    else s.payloadStage (handlerOf (packetTypeOf s.prog.packetType))

/-- A packet type as an instruction: in `PayloadPending`, where the core dispatches on the header it has decoded, it is
the payload stage with that type's handler; in any other state it is out of order (rule R230). -/
def packetStage (s : State) (h : Handler) : Host.Outcome State Fault Refusal :=
  command s fun s => if s.phase = .payloadPending then s.payloadStage h else s.raise .badState

/-! The header's other fields are carried in `PACKET_HEADER` for the output record and otherwise ignored (rule R66). -/

/-- NULL (rule R172). -/
def execPktNull (_ : HeaderFields) (s : State) : Host.Outcome State Fault Refusal := packetStage s handleNull

/-- POLL (rule R172). -/
def execPktPoll (_ : HeaderFields) (s : State) : Host.Outcome State Fault Refusal := packetStage s handlePoll

/-- FHS (rule R176). -/
def execPktFhs (_ : HeaderFields) (s : State) : Host.Outcome State Fault Refusal := packetStage s handleFhs

/-- DM1 (rule R174). -/
def execPktDm1 (_ : HeaderFields) (s : State) : Host.Outcome State Fault Refusal := packetStage s handleDm1

/-- DH1 (rule R175). -/
def execPktDh1 (_ : HeaderFields) (s : State) : Host.Outcome State Fault Refusal := packetStage s handleDh1

/-- HV1 (rule R177). -/
def execPktHv1 (_ : HeaderFields) (s : State) : Host.Outcome State Fault Refusal := packetStage s handleHv1

/-- HV2 (rule R177). -/
def execPktHv2 (_ : HeaderFields) (s : State) : Host.Outcome State Fault Refusal := packetStage s handleHv2

/-- EV3, else HV3 (rule R181). -/
def execPktHv3Ev3 (_ : HeaderFields) (s : State) : Host.Outcome State Fault Refusal := packetStage s handleHv3Ev3

/-- DV (rule R182). -/
def execPktDv (_ : HeaderFields) (s : State) : Host.Outcome State Fault Refusal := packetStage s handleDv

/-- AUX1 (rule R183). -/
def execPktAux1 (_ : HeaderFields) (s : State) : Host.Outcome State Fault Refusal := packetStage s handleAux1

/-- DM3 (rule R174). -/
def execPktDm3 (_ : HeaderFields) (s : State) : Host.Outcome State Fault Refusal := packetStage s handleDm3

/-- DH3 (rule R175). -/
def execPktDh3 (_ : HeaderFields) (s : State) : Host.Outcome State Fault Refusal := packetStage s handleDh3

/-- EV4 (rule R179). -/
def execPktEv4 (_ : HeaderFields) (s : State) : Host.Outcome State Fault Refusal := packetStage s handleEv4

/-- EV5 (rule R178); the DM5 handler is not run (rule R73). -/
def execPktEv5 (_ : HeaderFields) (s : State) : Host.Outcome State Fault Refusal := packetStage s handleEv5

/-- DM5 (rule R174). -/
def execPktDm5 (_ : HeaderFields) (s : State) : Host.Outcome State Fault Refusal := packetStage s handleDm5

/-- DH5 (rule R175). -/
def execPktDh5 (_ : HeaderFields) (s : State) : Host.Outcome State Fault Refusal := packetStage s handleDh5

end Sys2Proof.Machine
end

