-- ==== Sys2Proof/Machine/PacketContext.lean ====
section
/-! DEFINITION. The packet context: the control commands (rules R210 to R212, R220), the setters (rules R213 to R218), the
full decode (rule R222) and the output record (rules R75, R224). -/

namespace Sys2Proof.Machine

/-- `NOP` (rule R210). -/
def execNop (s : State) : Host.Outcome State Fault Refusal :=
  command s fun s => s.finish 0 0 .ok

/-- `RESTART` (rule R212). -/
def execRestart (s : State) : Host.Outcome State Fault Refusal :=
  command s fun s =>
    if s.phase = .idle then s.raise .badState
    else (s.clearProgress.setPhase .created).finish 0 0 .ok

/-- `CLR_CTX` (rule R220). -/
def execClrCtx (s : State) : Host.Outcome State Fault Refusal :=
  command s fun s => ({ s with ctx := Context.cleared } : State).restart.finish 0 0 .ok

/-- `CREATE` (rule R211). -/
def execCreate (s : State) : Host.Outcome State Fault Refusal :=
  command s fun s =>
    let o := countOperand s.ops.a0
    if o > s.wlen then s.raise .badOperand
    else
      (({ s with range := ⟨BitVec.ofNat 12 o, BitVec.ofNat 12 (s.wlen - o)⟩ } : State).clearProgress.setPhase
        .created).finish (s.wlen - o) 0 .ok

/-- `SET_LAP` (rule R213). -/
def execSetLap (s : State) : Host.Outcome State Fault Refusal :=
  setter s fun c => { c with lap := lapOperand s.ops.a0, haveLap := true }

/-- `SET_UAP` (rule R214). -/
def execSetUap (s : State) : Host.Outcome State Fault Refusal :=
  setter s fun c => { c with uap := byteOperand s.ops.a0, haveUap := true }

/-- `SET_NAP` (rule R215). -/
def execSetNap (s : State) : Host.Outcome State Fault Refusal :=
  setter s fun c => { c with nap := napOperand s.ops.a0, haveNap := true }

/-- `SET_CLOCK` (rule R216). -/
def execSetClock (s : State) : Host.Outcome State Fault Refusal :=
  setter s fun c => { c with clock := fullClockOperand s.ops.a0, haveFullClock := flagOperand s.ops.a1 }

/-- `SET_CHANNEL` (rule R217): no context setter, so nothing is restarted. -/
def execSetChannel (s : State) : Host.Outcome State Fault Refusal :=
  command s fun s => ({ s with ctx := { s.ctx with channel := byteOperand s.ops.a0 } } : State).finish 0 0 .ok

/-- `SET_WHITENED` (rule R218). -/
def execSetWhitened (s : State) : Host.Outcome State Fault Refusal :=
  setter s fun c => { c with whitened := flagOperand s.ops.a0 }

/-- What `DECODE` writes when its header stage failed (rule R222): `RESULT` and `R0`; `CAUSE`, `R1` and `STATE` stay as
the header stage left them. -/
def State.endDecodeNoHeader (s : State) : State :=
  { s with prog := { s.prog with result := .zero }, res := { s.res with r0 := 0 } }

/-- What `DECODE` writes after its payload stage (rule R222): `R0` and `R1`. A command that entered `Fault` has ended
there (rule R247). -/
def State.endDecode (s : State) : State :=
  if s.phase = .fault then s
  else { s with res := { s.res with r0 := 1, r1 := s.prog.payloadLength.setWidth 32 } }

/-- `DECODE` (rule R222). -/
def execDecode (s : State) : Host.Outcome State Fault Refusal :=
  command s fun s =>
    if s.phase ≠ .created then s.raise .badState
    else if !s.ctx.haveUap then s.raise .noUap
    else
      let s := s.headerStage
      if s.phase ≠ .headerDecoded then s.endDecodeNoHeader
      else (s.payloadStage (handlerOf (packetTypeOf s.prog.packetType))).endDecode

/-- The nine fixed bytes of the record, as bits (rules R75, R224). -/
def State.recordHead (s : State) : Bits :=
  hostToAir s.ctx.clock.toNat 32 ++
    (hostToAir s.ctx.channel.toNat 8 ++
      (hostToAir (s.ctx.haveFullClock.toNat + 2 * s.ctx.haveNap.toNat) 8 ++
        (hostToAir (s.prog.packetHeader.extractLsb' 0 7).toNat 8 ++
          (hostToAir (s.prog.packetHeader.extractLsb' 7 3).toNat 8 ++
            hostToAir (s.prog.packetHeader.extractLsb' 10 8).toNat 8))))

/-- The record (rules R75, R224): the fixed bytes, then the payload bytes, whose bits stand in `PAY` in the same order. -/
def State.recordBits (s : State) : Bits := s.recordHead ++ s.readBuf .pay 0 (8 * s.payloadBytes)

/-- `EMIT` (rule R224). -/
def execEmit (s : State) : Host.Outcome State Fault Refusal :=
  command s fun s =>
    if s.phase ≠ .payloadDecoded then s.raise .badState
    else
      let n := 9 + s.payloadBytes
      let s := s.writeBuf .record 0 s.recordBits
      ({ s with prog := { s.prog with recLen := BitVec.ofNat 9 n } } : State).finish n 0 .ok

end Sys2Proof.Machine
end

