-- ==== Sys2Proof/Machine/Dispatch.lean ====
section
/-! DEFINITION. The meaning of every instruction: one arm per row of spec/opcode_table.json. -/

namespace Sys2Proof.Machine

def exec (i : Instr) (s : State) : Host.Outcome State Fault Refusal :=
  match i with
  | .nop => Sys2Proof.Machine.execNop s
  | .restart => Sys2Proof.Machine.execRestart s
  | .clrCtx => Sys2Proof.Machine.execClrCtx s
  | .air2host => Sys2Proof.Machine.execAir2host s
  | .host2air => Sys2Proof.Machine.execHost2air s
  | .rev8 => Sys2Proof.Machine.execRev8 s
  | .dewhiten => Sys2Proof.Machine.execDewhiten s
  | .unfec13 => Sys2Proof.Machine.execUnfec13 s
  | .unfec23 => Sys2Proof.Machine.execUnfec23 s
  | .acgen => Sys2Proof.Machine.execAcgen s
  | .sniff => Sys2Proof.Machine.execSniff s
  | .verify => Sys2Proof.Machine.execVerify s
  | .hec2uap => Sys2Proof.Machine.execHec2uap s
  | .probeUap => Sys2Proof.Machine.execProbeUap s
  | .decodeHeader => Sys2Proof.Machine.execDecodeHeader s
  | .crcgen => Sys2Proof.Machine.execCrcgen s
  | .crcchk => Sys2Proof.Machine.execCrcchk s
  | .decodePayload => Sys2Proof.Machine.execDecodePayload s
  | .create => Sys2Proof.Machine.execCreate s
  | .setLap => Sys2Proof.Machine.execSetLap s
  | .setUap => Sys2Proof.Machine.execSetUap s
  | .setNap => Sys2Proof.Machine.execSetNap s
  | .setClock => Sys2Proof.Machine.execSetClock s
  | .setChannel => Sys2Proof.Machine.execSetChannel s
  | .setWhitened => Sys2Proof.Machine.execSetWhitened s
  | .decode => Sys2Proof.Machine.execDecode s
  | .emit => Sys2Proof.Machine.execEmit s
  | .pktNull h => Sys2Proof.Machine.execPktNull h s
  | .pktPoll h => Sys2Proof.Machine.execPktPoll h s
  | .pktFhs h => Sys2Proof.Machine.execPktFhs h s
  | .pktDm1 h => Sys2Proof.Machine.execPktDm1 h s
  | .pktDh1 h => Sys2Proof.Machine.execPktDh1 h s
  | .pktHv1 h => Sys2Proof.Machine.execPktHv1 h s
  | .pktHv2 h => Sys2Proof.Machine.execPktHv2 h s
  | .pktHv3Ev3 h => Sys2Proof.Machine.execPktHv3Ev3 h s
  | .pktDv h => Sys2Proof.Machine.execPktDv h s
  | .pktAux1 h => Sys2Proof.Machine.execPktAux1 h s
  | .pktDm3 h => Sys2Proof.Machine.execPktDm3 h s
  | .pktDh3 h => Sys2Proof.Machine.execPktDh3 h s
  | .pktEv4 h => Sys2Proof.Machine.execPktEv4 h s
  | .pktEv5 h => Sys2Proof.Machine.execPktEv5 h s
  | .pktDm5 h => Sys2Proof.Machine.execPktDm5 h s
  | .pktDh5 h => Sys2Proof.Machine.execPktDh5 h s

end Sys2Proof.Machine
end

