-- ==== Sys2Proof/Machine/HostPort.lean ====
section
/-! DEFINITION. The host register port (rules R12 to R28, R40), the symbol load port (rules R47, R48), reset (rule R270),
and where the core finds the instruction it runs next. -/

namespace Sys2Proof.Machine

/-- The value the host reads from a register (rules R12 to R28). `CMD` and the numbers no rule defines read 0 (rules R12,
R40). Of `SYM_DATA` the rules say only that it is write-only: that it reads 0 is the model's choice (DESIGN CHOICE,
unsafe, log entry 16). -/
def State.readReg (s : State) (r : BitVec 6) : Word :=
  match r.toNat with
  | 0x01 => s.statusWord
  | 0x02 => s.ops.a0
  | 0x03 => s.ops.a1
  | 0x04 => s.ops.a2
  | 0x05 => s.ops.a3
  | 0x06 => s.res.r0
  | 0x07 => s.res.r1
  | 0x08 => s.port.symAddr.setWidth 32
  | 0x0A => s.port.wlen.setWidth 32
  | 0x10 => s.range.base.setWidth 32
  | 0x11 => s.range.length.setWidth 32
  | 0x12 => s.ctx.lap.setWidth 32
  | 0x13 => s.ctx.uap.setWidth 32
  | 0x14 => s.ctx.nap.setWidth 32
  | 0x15 => s.ctx.clock.setWidth 32
  | 0x16 => s.flagsByte.setWidth 32
  | 0x17 => s.ctx.channel.setWidth 32
  | 0x18 => s.prog.packetType.setWidth 32
  | 0x19 => s.prog.packetHeader.setWidth 32
  | 0x1A => s.prog.payloadHeader.setWidth 32
  | 0x1B => s.prog.payloadLength.setWidth 32
  | 0x1C => s.prog.payloadInfo.setWidth 32
  | 0x1D => s.prog.fhsClk.setWidth 32
  | 0x1E => s.prog.recLen.setWidth 32
  | _ => 0

/-- A host write to `SYM_DATA` (rules R47, R48): 32 symbols, bit 0 the earliest, those beyond the last address dropped. -/
def State.loadSymbols (s : State) (v : Word) : State :=
  let a := s.port.symAddr.toNat
  let s := s.writeBuf .sym a (hostToAir v.toNat 32)
  ({ s with port := { s.port with symAddr := BitVec.ofNat 12 (min (a + 32) hw.maxSymbols) } } : State).dropPacket

/-- A host write to `WLEN` (rules R16, R48): a value above 3125 stores 3125. -/
def State.writeWlen (s : State) (v : Word) : State :=
  ({ s with port := { s.port with wlen := BitVec.ofNat 12 (min v.toNat hw.maxSymbols) } } : State).dropPacket

/-- A host write to a register other than `CMD`. Read-only and undefined numbers ignore it (rules R13, R15, R40), and so
does `CMD` where the write runs no command (rule R247). -/
def State.writeReg (s : State) (r : BitVec 6) (v : Word) : State :=
  match r.toNat with
  | 0x02 => { s with ops := { s.ops with a0 := v } }
  | 0x03 => { s with ops := { s.ops with a1 := v } }
  | 0x04 => { s with ops := { s.ops with a2 := v } }
  | 0x05 => { s with ops := { s.ops with a3 := v } }
  | 0x08 => { s with port := { s.port with symAddr := v.setWidth 12 } }
  | 0x09 => s.loadSymbols v
  | 0x0A => s.writeWlen v
  | _ => s

/-- The reset input (rule R270): every register and buffer takes its reset value. The host's own remaining moves and the
value it last read are not the block's. -/
def State.applyReset (s : State) : State := { State.reset with queue := s.queue, readData := s.readData }

/-- A host move that runs no command. -/
def State.hostMove (s : State) (m : HostAction) : State :=
  match m with
  | .write r v => s.writeReg r v
  | .read r => { s with readData := s.readReg r }
  | .reset => s.applyReset

/-- The state without the host's oldest pending move. -/
def State.popMove (s : State) : State := { s with queue := s.queue.tail }

/-- The header word the core dispatches on in `PayloadPending`: `PACKET_HEADER`, its `TYPE` read from `PACKET_TYPE` as
rule R170 says (the two agree whenever a header has been decoded, rule R150). -/
def State.dispatchWord (s : State) : BitVec 18 := headerWord s.prog.packetType (headerFields s.prog.packetHeader)

/-- The word the core runs next: in `PayloadPending` the packet header whose handler is due; otherwise the command word,
if the host's next move is a write to `CMD`, which `Fault` ignores (rule R247). Where the reset input is due the core runs
nothing, a command under way being abandoned (rule R270). -/
def State.nextWord (s : State) : Option InstrWord :=
  match s.queue, s.phase with
  | .reset :: _, _ => none
  | _, .payloadPending => some (.header s.dispatchWord)
  | _, .fault => none
  | .write r w :: _, _ => if r = 0 then some (.command w) else none
  | _, _ => none

/-- The state in which the core runs the word it found: a command uses up the host's move, a packet header none. -/
def State.fetched (s : State) : State := if s.phase = .payloadPending then s else s.popMove

/-- A step in which the core runs nothing: the host's next move, or none at all (rules R255, R270). -/
def State.hostStep (s : State) : State :=
  match s.queue with
  | [] => s
  | m :: _ => s.popMove.hostMove m

/-- `s` with a word placed where `nextWord` finds it: a command word as the host's next move, a packet header in the
registers of a core that has just entered `PayloadPending`, with no reset due that would abandon it. -/
def State.placeWord (s : State) (w : InstrWord) : State :=
  match w with
  | .command c =>
    { s with
      queue := .write 0 c :: s.queue
      phase := if s.phase = .payloadPending then .headerDecoded else s.phase }
  | .header h =>
    { s with
      queue := s.queue.dropWhile (· = .reset)
      phase := .payloadPending
      prog := { s.prog with packetHeader := h, packetType := headerType h } }

end Sys2Proof.Machine
end

