-- ==== Sys2Proof/Machine/Step.lean ====
section
/-! DEFINITION. One step of the machine: the core runs the word due next, or the host makes its next move. -/

namespace Sys2Proof.Machine

/-- One step (rule R10). A command word that stands for no instruction raises `IllegalCommand` (rule R62). -/
def step (s : State) : Host.Outcome State Fault Refusal :=
  match s.nextWord with
  | none => .next s.hostStep
  | some w =>
    match decode w with
    | .ok i => exec i s.fetched
    | .error _ => .next (s.fetched.raise .illegalCommand)

/-- `s` with the instruction of an opcode-table word placed where `step` finds its next instruction. -/
def State.withFetchWord (s : State) (nbits w : Nat) : State :=
  match tableWord nbits w with
  | some iw => s.placeWord iw
  | none => s

end Sys2Proof.Machine
end

