-- ==== Sys2Proof/Safety.lean ====
section
/-! DEFINITION. What a claim about a run may say: the invariants of the state, and the predicates that say what a command
left unchanged. -/

namespace Sys2Proof.Machine

/-! ## Frames -/

/-- Only `R0`, `R1` and `CAUSE` may differ between `s` and `t`. -/
def SameButResults (s t : State) : Prop :=
  t = { s with res := t.res } ∧ ∀ a, t.bitRead a = s.bitRead a

/-- Only `R0`, `R1`, `CAUSE` and the `n` buffer bits from bit address `lo` up may differ between `s` and `t`. -/
def SameButBits (lo n : Nat) (s t : State) : Prop :=
  t = { s with res := t.res, mem := t.mem } ∧ ∀ a, a < lo ∨ lo + n ≤ a → t.bitRead a = s.bitRead a

/-- Every buffer bit outside the `n` from bit address `lo` up reads as before. -/
def SameCellsOutside (lo n : Nat) (s t : State) : Prop :=
  ∀ a, a < lo ∨ lo + n ≤ a → t.mem.get a = s.mem.get a

/-- The bits of `t` from bit address `lo` up are those of the sequence. -/
def HoldsBits (t : State) (lo : Nat) (bits : Bits) : Prop :=
  ∀ k, k < bits.length → t.mem.get (lo + k) = bits.getD k false

/-! ## The end of a payload stage -/

/-- What a payload decode reports beside its result: `PAYLOAD_LENGTH`, `PAYLOAD_HEADER`, `PAYLOAD_INFO`, and the clock an
FHS payload validated under. -/
structure PayloadReport where
  len : Nat
  header : BitVec 16
  info : BitVec 6
  fhsClock : Option Nat
deriving DecidableEq, Repr

/-- A report of a type without a payload header: its length alone (rules R24, R26). -/
def PayloadReport.plain (len : Nat) : PayloadReport := ⟨len, 0, 0, none⟩

/-- The registers a payload stage of result 1 or 10 leaves, the buffers apart (rule R170). -/
def State.payloadAccepted (s : State) (p : PayloadReport) (r : Confidence) (c : Cause) (m : Memory) : State :=
  { s with
    phase := .payloadDecoded
    prog := { s.prog with
      havePayload := true
      payloadHeader := p.header
      payloadLength := BitVec.ofNat 9 p.len
      payloadInfo := p.info
      fhsClk := BitVec.ofNat 6 (p.fhsClock.getD 0)
      fhsClkValid := p.fhsClock.isSome
      result := r }
    res := ⟨BitVec.ofNat 32 r.code, BitVec.ofNat 32 p.len, c⟩
    mem := m }

/-- The registers a payload stage of result 0 leaves, the buffers apart (rule R170). -/
def State.payloadFailed (s : State) (c : Cause) (m : Memory) : State :=
  { s with
    phase := .headerDecoded
    prog := { s.prog with
      havePayload := false
      payloadHeader := 0
      payloadLength := 0
      payloadInfo := 0
      fhsClk := 0
      fhsClkValid := false
      result := .zero }
    res := ⟨0, 0, c⟩
    mem := m }

/-- `t` is `s` after a payload stage that reported `p` with result `r` and cause `c`, wrote `bits` to `PAY` from its
start, and changed no other buffer bit. -/
def AcceptedWith (s t : State) (p : PayloadReport) (r : Confidence) (c : Cause) (bits : Bits) : Prop :=
  t = s.payloadAccepted p r c t.mem ∧ HoldsBits t 0x2000 bits ∧ SameCellsOutside 0x2000 bits.length s t

/-- `t` is `s` after a payload stage of result 0 and cause `c` that had written `bits` to `PAY` from its start and changed
no other buffer bit. -/
def FailedWith (s t : State) (c : Cause) (bits : Bits) : Prop :=
  t = s.payloadFailed c t.mem ∧ HoldsBits t 0x2000 bits ∧ SameCellsOutside 0x2000 bits.length s t

/-! ## The transmitter's side: what the rules define only to say what the block undoes -/

/-- `HecGen(data, uap)` (rule R148), which the block never computes. Bit `i` of the register is `r[i]`. -/
def hecGen (data : BitVec 10) (uap : Byte) : Byte :=
  ((List.range 10).foldl
    (fun (r : Byte) k => (r <<< 1) ^^^ (if data.getLsbD k ^^ r.getLsbD 7 then 0b10100111#8 else 0#8)) uap).reverse

/-- The codeword of ten data bits: the data, then the check bits, most significant first (rule R113). -/
def codeword (d : Bits) : Bits := d ++ (List.range 5).map fun j => (parity d).getLsbD (4 - j)

/-- A sequence with one symbol inverted. -/
def flipAt (s : Bits) (j : Nat) : Bits := s.modify j not

/-- The product of two polynomials over GF(2), bit `k` of a number being the coefficient of `D^k`; the first is of degree
at most 63. -/
def carrylessProduct (q g : Nat) : Nat :=
  (List.range 64).foldl (fun acc j => if q.testBit j then acc ^^^ (g <<< j) else acc) 0

/-- The distance of a sequence to the nearer of the two alternating patterns (rule R131). -/
def alternatingDistance (s : Bits) : Nat :=
  min ((List.range s.length).countP fun i => s.getD i false != (i % 2 == 0))
    ((List.range s.length).countP fun i => s.getD i false != (i % 2 == 1))

/-! ## What the packet rules say of a payload field -/

/-- `LENGTH_FIELD` of a payload header of `hlen` bytes at the head of `p` (rules R69, R70). -/
def lengthField (p : Bits) (hlen : Nat) : Nat :=
  if hlen = 1 then airToHost (slice p 3 5) 5 else airToHost (slice p 3 10) 10

/-- The report of a payload with a payload header of `hlen` bytes at the head of `p`: `PAYLOAD_INFO` holds `LLID` and
`FLOW` in 2:0 and the width in 5:4 (rule R26). -/
def PayloadReport.headed (len : Nat) (p : Bits) (hlen : Nat) : PayloadReport :=
  ⟨len, BitVec.ofNat 16 (airToHost p (8 * hlen)), BitVec.ofNat 6 (airToHost p 3 + 16 * hlen), none⟩

/-- The CRC verdict on a payload of `len` bytes by the test of rule R161: the register run over all of it ends at 0. -/
def residueZero (bits : Bits) (len : Nat) (uap : Byte) : Bool := crcGen bits (8 * len) uap == 0

/-- `RESULT` and `CAUSE` of a payload with a CRC (rule R180). -/
def crcResult (ok : Bool) : Confidence := if ok then .ten else .one
def crcCause (ok : Bool) : Cause := if ok then .ok else .crcMismatch

/-- The block-decoded and dewhitened reading of `n` bits from packet symbol `base`, whitening position `skip`, where every
block decodes (rules R94, R115). -/
def State.blockRead (s : State) (base skip n : Nat) : Option Bits :=
  (unfec23 (s.symbols base (15 * ceilDiv n 10)) n).map fun r => dewhiten r.1 s.clock6 n skip s.ctx.whitened

/-- The dewhitened reading of `n` uncoded bits from packet symbol `base`, whitening position `skip` (rule R94). -/
def State.plainRead (s : State) (base skip n : Nat) : Bits :=
  dewhiten (s.symbols base n) s.clock6 n skip s.ctx.whitened

/-! ## Invariants -/

/-- The states of rule R30 in which a header has been decoded. -/
def Phase.hasHeader : Phase → Bool
  | .headerDecoded => true
  | .payloadPending => true
  | .payloadDecoded => true
  | _ => false

/-- The form of the memory: canonical, and nothing listed outside the five buffers (rules R31, R41). -/
def MemoryForm (s : State) : Prop := s.mem.wf = true ∧ s.mem.inMap = true

/-- What the rules say holds of the registers whenever no command is running, and, with the phase at `PayloadPending`,
when the payload stage starts. -/
structure ContextInvariant (s : State) : Prop where
  /-- `PKT_BASE + LENGTH <= WLEN` (rule R17). -/
  rangeInWindow : s.pktBase + s.length ≤ s.wlen
  /-- `WLEN <= 3125` (rules R16, R17). -/
  windowFits : s.wlen ≤ 3125
  /-- A value register whose presence flag is 0 reads 0 (rule R18). -/
  lapAbsent : s.ctx.haveLap = false → s.ctx.lap = 0
  uapAbsent : s.ctx.haveUap = false → s.ctx.uap = 0
  napAbsent : s.ctx.haveNap = false → s.ctx.nap = 0
  /-- No header stage is left half done (rules R10, R30). -/
  headerStageDone : s.phase ≠ .headerPending
  /-- `STATUS.FAULT` is 1 exactly in `Fault` (rules R13, R247, R271). -/
  faultSticky : s.faultFlag = true ↔ s.phase = .fault
  /-- `HAVE_HEADER` is 1 exactly in the states that have a header (rule R30). -/
  header : s.phase ≠ .fault → (s.prog.haveHeader = true ↔ s.phase.hasHeader = true)
  /-- `HAVE_PAYLOAD` is 1 exactly in `PayloadDecoded` (rule R30). -/
  payload : s.prog.havePayload = true ↔ s.phase = .payloadDecoded
  /-- A decoded header implies a known UAP (rule R30). -/
  uapKnown : s.phase.hasHeader = true → s.ctx.haveUap = true
  /-- A decoded header implies the symbols it was read from (rule R170). -/
  headerRead : s.phase.hasHeader = true → 126 ≤ s.length
  /-- `PACKET_TYPE` is the `TYPE` field of `PACKET_HEADER` (rule R150). -/
  typeIsHeaders : s.prog.packetType = headerType s.prog.packetHeader
  /-- `PAYLOAD_LENGTH` is 0 to 343 (rule R25). -/
  payloadFits : s.payloadBytes ≤ 343
  /-- `PAYLOAD_INFO[3]` reads 0 and the header width is 0, 1 or 2 (rule R26). -/
  infoReserved : s.prog.payloadInfo.getLsbD 3 = false
  infoWidth : (s.prog.payloadInfo.extractLsb' 4 2).toNat ≤ 2
  /-- `PAYLOAD_HEADER` is 0 at and above the header width (rule R24). -/
  headerAbove : s.prog.payloadHeader.toNat < 2 ^ (8 * (s.prog.payloadInfo.extractLsb' 4 2).toNat)
  /-- `REC_LEN` is 0, or 9 to 352 (rule R28). -/
  recordLength : s.prog.recLen = 0 ∨ (9 ≤ s.prog.recLen.toNat ∧ s.prog.recLen.toNat ≤ 352)
  /-- `FHS_CLK` is 0 where its flag is 0 (rule R27). -/
  fhsAbsent : s.prog.fhsClkValid = false → s.prog.fhsClk = 0
  /-- `RESULT` is 1 or 10 exactly in `PayloadDecoded` (rules R29, R170). -/
  result : s.prog.result ≠ .zero ↔ s.phase = .payloadDecoded
  /-- Outside `PayloadDecoded` the payload registers are 0 (rules R35, R170). -/
  payloadCleared : s.phase ≠ .payloadDecoded →
    s.prog.payloadHeader = 0 ∧ s.prog.payloadLength = 0 ∧ s.prog.payloadInfo = 0 ∧ s.prog.fhsClkValid = false ∧
      s.prog.recLen = 0

/-- Confidence 10 is backed by the payload itself: the CRC register run over the whole of the reported payload, its CRC
bytes included, ends at zero (rules R161, R180). -/
def TenMeansCrc (s : State) : Prop :=
  s.prog.result = .ten →
    crcGen (s.readBuf .pay 0 (8 * s.payloadBytes)) (8 * s.payloadBytes) s.ctx.uap = 0

end Sys2Proof.Machine
end

