-- ==== Sys2Proof/Certificates/Slice0/Obligations.lean ====
section
/-! DEFINITION. The statements for the provers. Each says which rule of the specification it formalises; where a clause
rests on a choice of the model, the docstring names the entry of the assumption log. -/

open Sys2Proof Sys2Proof.Machine

/-! ## Encoding and the step -/

/-- Rules R60, R61, R66, R72: the word of an instruction decodes to that instruction, for every one of the 27 commands and
for every packet header, each of its fields at every value. -/
def Obligations.DecodeEncodeRoundTrip : Prop := ∀ i : Instr, decode (encode i) = .ok i

/-- Rules R60 to R62, R73: a word decodes exactly when it is well formed, and no two words decode to one instruction. -/
def Obligations.DecodeIsUnambiguous : Prop :=
  (∀ (w : InstrWord) (i : Instr), decode w = .ok i → encode i = w) ∧
  ∀ w : InstrWord, w.wf = true ↔ ∃ i, decode w = .ok i

/-- Rules R61, R66: words written out from the tables decode to the instructions they stand for. The two headers are those
of the DM1 and the NULL packet of 95_test_vectors.md. -/
def Obligations.SampleWordsDecode : Prop :=
  decode (.command 0x00000010) = .ok .air2host ∧ decode (.command 0x00000021) = .ok .unfec23 ∧
  decode (.command 0x00000032) = .ok .verify ∧ decode (.command 0x00000042) = .ok .decodeHeader ∧
  decode (.command 0x00000051) = .ok .crcchk ∧ decode (.command 0x00000060) = .ok .decodePayload ∧
  decode (.command 0x00000074) = .ok .setClock ∧ decode (.command 0x00000100) = .error .reservedBits ∧
  decode (.command 0x00000003) = .error .unlistedOp ∧
  decode (.header 0b011101011010011001#18) = .ok (.pktDm1 ⟨1, true, false, true, 0x75⟩) ∧
  decode (.header 0b110001001010000001#18) = .ok (.pktNull ⟨1, true, false, true, 0xC4⟩)

/-- Rule R62: a command word that is none of the 27 writes `CAUSE`, `R0` and `R1` and nothing else. The command uses up the
host's move (assumption 1). -/
def Obligations.IllegalWordRaises : Prop :=
  ∀ (s : State) (w : Word) (q : List HostAction), s.phase ≠ .fault → s.phase ≠ .payloadPending →
    s.queue = .write 0 w :: q → (∀ op ∈ operationCodes, w ≠ op.setWidth 32) →
    step s = .next { s with queue := q, res := ⟨0, 0, .illegalCommand⟩ }

/-- Rules R10, R60, R170: a step runs the decoded instruction. A command word is the host's next write to `CMD`, which the
step uses up; in `PayloadPending` the instruction is the packet header, which is `PACKET_HEADER` itself whenever
`PACKET_TYPE` agrees with it, unless the reset input is due, which abandons it (rule R270). That a packet header is run by a
step of its own is the model's choice (assumptions 1 and 2). -/
def Obligations.StepRunsDecodedInstruction : Prop :=
  (∀ (s : State) (w : Word) (q : List HostAction) (i : Instr), s.phase ≠ .fault → s.phase ≠ .payloadPending →
    s.queue = .write 0 w :: q → decode (.command w) = .ok i → step s = exec i { s with queue := q }) ∧
  (∀ (s : State) (i : Instr), s.phase = .payloadPending → s.prog.packetType = headerType s.prog.packetHeader →
    s.queue.head? ≠ some .reset → decode (.header s.prog.packetHeader) = .ok i → step s = exec i s)

/-- Rules R170 and R171: `DECODE_PAYLOAD` is the payload stage of the packet type in `PACKET_TYPE`, the same stage that the
packet row of that type runs. It answers with `R0` the result code and `R1` the payload length, ends in `PayloadDecoded`
with result 1 or 10 or back in `HeaderDecoded` with result 0 and every payload register 0, and changes nothing but the
payload registers, `PAY` and, for type 8, `VOICE`. That packet rows are instructions is the model's (assumption 2). -/
def Obligations.DecodePayloadRunsItsHandler : Prop :=
  ∀ (s : State) (f : HeaderFields), s.phase = .headerDecoded → ∃ t,
    exec .decodePayload s = .next t ∧
    exec (packetInstr (packetTypeOf s.prog.packetType) f) { s with phase := .payloadPending } = .next t ∧
    t.res.r0 = BitVec.ofNat 32 t.prog.result.code ∧ t.res.r1 = t.prog.payloadLength.setWidth 32 ∧
    (t.prog.result = .zero → t.phase = .headerDecoded ∧ t.prog.havePayload = false ∧ t.prog.payloadHeader = 0 ∧
      t.prog.payloadLength = 0 ∧ t.prog.payloadInfo = 0 ∧ t.prog.fhsClk = 0 ∧ t.prog.fhsClkValid = false) ∧
    (t.prog.result ≠ .zero → t.phase = .payloadDecoded ∧ t.prog.havePayload = true) ∧
    t = { s with
      phase := t.phase
      res := t.res
      mem := t.mem
      prog := { t.prog with
        haveHeader := s.prog.haveHeader
        packetHeader := s.prog.packetHeader
        packetType := s.prog.packetType
        recLen := s.prog.recLen } } ∧
    (∀ a, (a < 0x2000 ∨ 0x2AB8 ≤ a) → (a < 0x3200 ∨ 0x3250 ≤ a) → t.mem.get a = s.mem.get a) ∧
    (s.prog.packetType ≠ 8 → SameCellsOutside 0x2000 2744 s t)

/-- Rules R248, R255: the machine never stops, and with nothing to do it holds its state. -/
def Obligations.StepNeverStops : Prop :=
  (∀ s : State, ∃ t, step s = .next t) ∧
  ∀ s : State, s.phase ≠ .payloadPending → s.queue = [] → step s = .next s

/-! ## The register port -/

/-- Rules R13, R21, R30, R76, R241: the fields of `STATUS`, each with its numbers, and of `FLAGS`, as the host reads
them. -/
def Obligations.StatusAndFlagsFields : Prop :=
  (∀ s : State,
    (s.readReg 0x01).extractLsb' 0 3 = (match s.phase with
      | .idle => 0 | .created => 1 | .headerPending => 2 | .headerDecoded => 3
      | .payloadPending => 4 | .payloadDecoded => 5 | .fault => 7) ∧
    (s.readReg 0x01).getLsbD 3 = s.faultFlag ∧
    (s.readReg 0x01).extractLsb' 4 4 = (match s.res.cause with
      | .ok => 0 | .shortBuffer => 1 | .fecUncorrectable => 2 | .repetitionGate => 3
      | .badHec => 4 | .implausibleLength => 5 | .crcMismatch => 6 | .notFound => 7
      | .unvalidated => 8 | .badOperand => 9 | .badState => 10 | .noUap => 11
      | .illegalCommand => 12 | .invariant => 15) ∧
    (s.readReg 0x01).extractLsb' 8 4 = (match s.prog.result with | .zero => 0 | .one => 1 | .ten => 10) ∧
    (s.readReg 0x01).getLsbD 12 = (s.phase == .headerPending || s.phase == .payloadPending) ∧
    (s.readReg 0x01).extractLsb' 13 19 = 0) ∧
  (∀ s : State,
    (s.readReg 0x16).getLsbD 0 = s.ctx.haveLap ∧ (s.readReg 0x16).getLsbD 1 = s.ctx.haveUap ∧
    (s.readReg 0x16).getLsbD 2 = s.ctx.haveNap ∧ (s.readReg 0x16).getLsbD 3 = s.ctx.haveFullClock ∧
    (s.readReg 0x16).getLsbD 4 = s.ctx.whitened ∧ (s.readReg 0x16).getLsbD 5 = s.prog.haveHeader ∧
    (s.readReg 0x16).getLsbD 6 = s.prog.havePayload ∧ (s.readReg 0x16).getLsbD 7 = s.prog.fhsClkValid ∧
    (s.readReg 0x16).extractLsb' 8 24 = 0)

/-- Rules R12, R14 to R28, R40: a host read changes nothing but the value the host holds; every register answers at its
number; `CMD` and the numbers no rule defines read 0. Where the value read stands (assumption 1), and that the write-only
`SYM_DATA` reads 0 (assumption 16), are the model's choices. -/
def Obligations.HostReads : Prop :=
  (∀ (s : State) (r : BitVec 6) (q : List HostAction), s.phase ≠ .payloadPending → s.queue = .read r :: q →
    step s = .next { s with queue := q, readData := s.readReg r }) ∧
  (∀ s : State,
    (s.readReg 0x02 = s.ops.a0 ∧ s.readReg 0x03 = s.ops.a1 ∧ s.readReg 0x04 = s.ops.a2 ∧ s.readReg 0x05 = s.ops.a3) ∧
    (s.readReg 0x06 = s.res.r0 ∧ s.readReg 0x07 = s.res.r1) ∧
    (s.readReg 0x08 = s.port.symAddr.setWidth 32 ∧ s.readReg 0x0A = s.port.wlen.setWidth 32) ∧
    (s.readReg 0x10 = s.range.base.setWidth 32 ∧ s.readReg 0x11 = s.range.length.setWidth 32) ∧
    (s.readReg 0x12 = s.ctx.lap.setWidth 32 ∧ s.readReg 0x13 = s.ctx.uap.setWidth 32 ∧
      s.readReg 0x14 = s.ctx.nap.setWidth 32 ∧ s.readReg 0x15 = s.ctx.clock.setWidth 32 ∧
      s.readReg 0x17 = s.ctx.channel.setWidth 32) ∧
    (s.readReg 0x18 = s.prog.packetType.setWidth 32 ∧ s.readReg 0x19 = s.prog.packetHeader.setWidth 32 ∧
      s.readReg 0x1A = s.prog.payloadHeader.setWidth 32 ∧ s.readReg 0x1B = s.prog.payloadLength.setWidth 32 ∧
      s.readReg 0x1C = s.prog.payloadInfo.setWidth 32 ∧ s.readReg 0x1D = s.prog.fhsClk.setWidth 32 ∧
      s.readReg 0x1E = s.prog.recLen.setWidth 32)) ∧
  (∀ (s : State) (r : BitVec 6),
    r = 0x00 ∨ r = 0x09 ∨ (0x0B ≤ r.toNat ∧ r.toNat ≤ 0x0F) ∨ 0x1F ≤ r.toNat → s.readReg r = 0)

/-- Rules R14, R16, R40, R48: a host write to `A0` to `A3` or `SYM_ADDR` stores its value and changes nothing else; a write
to a read-only register or to a number no rule defines changes nothing. The write uses up the host's move
(assumption 1). -/
def Obligations.HostWrites : Prop :=
  ∀ (s : State) (r : BitVec 6) (v : Word) (q : List HostAction), s.phase ≠ .payloadPending →
    s.queue = .write r v :: q →
    (r = 0x02 → step s = .next { s with queue := q, ops := { s.ops with a0 := v } }) ∧
    (r = 0x03 → step s = .next { s with queue := q, ops := { s.ops with a1 := v } }) ∧
    (r = 0x04 → step s = .next { s with queue := q, ops := { s.ops with a2 := v } }) ∧
    (r = 0x05 → step s = .next { s with queue := q, ops := { s.ops with a3 := v } }) ∧
    (r = 0x08 → step s = .next { s with queue := q, port := { s.port with symAddr := v.setWidth 12 } }) ∧
    (r ∉ [0x00, 0x02, 0x03, 0x04, 0x05, 0x08, 0x09, 0x0A] → step s = .next { s with queue := q })

/-- Rules R16, R47, R48, R247: a host write to `SYM_DATA` stores the 32 symbols of the word, bit 0 first, drops those past
the last address and moves `SYM_ADDR` on; a write to `WLEN` stores at most 3125; both drop the packet. In `Fault` they are
stored too, and `STATE` stays `Fault`. That `WLEN` bounds the whole word before it is cut to 12 bits (assumption 6), and that
in `Fault` all that rule R48 lists but `STATE` is cleared (assumption 7), are the model's reading. The write uses up the
host's move (assumption 1). -/
def Obligations.SymbolLoadPort : Prop :=
  (∀ (s : State) (v : Word) (q : List HostAction), s.phase ≠ .payloadPending →
    s.queue = .write 0x09 v :: q → ∃ t, step s = .next t ∧
      t = { s with
        queue := q
        port := { s.port with symAddr := BitVec.ofNat 12 (min (s.port.symAddr.toNat + 32) 3125) }
        range := ⟨0, 0⟩
        phase := if s.phase = .fault then .fault else .idle
        prog := Progress.cleared
        mem := t.mem } ∧
      (∀ j, j < 32 → s.port.symAddr.toNat + j ≤ 3124 → t.mem.get (s.port.symAddr.toNat + j) = v.getLsbD j) ∧
      ∀ a, a < s.port.symAddr.toNat ∨ s.port.symAddr.toNat + 32 ≤ a ∨ 3124 < a → t.mem.get a = s.mem.get a) ∧
  (∀ (s : State) (v : Word) (q : List HostAction), s.phase ≠ .payloadPending →
    s.queue = .write 0x0A v :: q → step s = .next { s with
      queue := q
      port := { s.port with wlen := BitVec.ofNat 12 (min v.toNat 3125) }
      range := ⟨0, 0⟩
      phase := if s.phase = .fault then .fault else .idle
      prog := Progress.cleared })

/-! ## Reset and Fault -/

/-- Rules R12, R37, R40: after reset every register of the table reads as it says (`FLAGS` 0x10, every other 0), `CMD` and
the numbers no rule defines read 0, and every bit of every buffer is 0. That the write-only `SYM_DATA` reads 0
(assumption 16), and that `bitRead` gives 0 at an unmapped bit address, which no command reads (assumption 5), are the
model's choices. -/
def Obligations.ResetValues : Prop :=
  (∀ r : BitVec 6, State.reset.readReg r = if r = 0x16 then 0x10 else 0) ∧ ∀ a, State.reset.bitRead a = false

/-- Rule R270: the reset input puts every register and buffer at its reset value, from any state, one in which a packet
row is under way (assumption 2) and `Fault` included. The host's own pending moves and the value it last read are not the
block's (assumption 1). -/
def Obligations.ResetInput : Prop :=
  ∀ (s : State) (q : List HostAction), s.queue = .reset :: q →
    step s = .next { State.reset with queue := q, readData := s.readData }

/-- Rules R244, R247: in `Fault` no instruction has any effect, and a write to `CMD` of any word is ignored. -/
def Obligations.FaultIgnoresCommands : Prop :=
  (∀ (i : Instr) (s : State), s.phase = .fault → exec i s = .next s) ∧
  ∀ (s : State) (w : Word) (q : List HostAction), s.phase = .fault → s.queue = .write 0 w :: q →
    step s = .next { s with queue := q }

/-- Rules R247, R271: no step leaves `Fault`, changes the sticky `FAULT` bit or overwrites `CAUSE`, `R0` and `R1` there,
but one in which the reset input is applied. -/
def Obligations.OnlyResetLeavesFault : Prop :=
  ∀ s t : State, s.phase = .fault → step s = .next t →
    (t.phase = .fault ∧ t.faultFlag = s.faultFlag ∧ t.res = s.res) ∨ ∃ q, s.queue = .reset :: q

/-- Rules R183, R247: the payload stage with the handler of a packet type that has no decode path enters `Fault`:
`FAULT` 1, cause `Invariant`, `RESULT`, `HAVE_PAYLOAD`, `R0` and `R1` 0, with the header's registers kept. No input
reaches it with this hardware's `AUX1_DECODE`. -/
def Obligations.MissingHandlerEntersFault : Prop :=
  ∀ (s : State) (r : PacketRow), s.phase = .headerDecoded →
    s.payloadStage (plAux1 .fault r) = { s with
      phase := .fault
      faultFlag := true
      res := ⟨0, 0, .invariant⟩
      prog := { s.prog with
        havePayload := false
        payloadHeader := 0
        payloadLength := 0
        payloadInfo := 0
        fhsClk := 0
        fhsClkValid := false
        result := .zero } }

/-! ## Rules of the whole machine -/

/-- The reset state meets the invariants below. -/
def Obligations.ResetMeetsInvariants : Prop :=
  MemoryForm State.reset ∧ ContextInvariant State.reset ∧ TenMeansCrc State.reset

/-- Rules R31, R41, R44: every step keeps the memory in its canonical form and every 1 inside one of the five buffers, so no
write strays outside the map, whatever state the machine is in. -/
def Obligations.StepKeepsMemoryForm : Prop :=
  ∀ s t : State, MemoryForm s → step s = .next t → MemoryForm t

/-- Rules R16 to R18, R24 to R30, R35, R150, R170: every step keeps what the rules say holds of the registers at rest. -/
def Obligations.StepKeepsContextInvariant : Prop :=
  ∀ s t : State, ContextInvariant s → step s = .next t → ContextInvariant t

/-- Rules R161, R180: confidence 10 is never reported of a payload whose CRC does not match its contents under the `UAP`
register, and stays true of `PAY`, `PAYLOAD_LENGTH` and `UAP` for as long as `RESULT` stays 10. -/
def Obligations.StepKeepsTenMeansCrc : Prop :=
  ∀ s t : State, TenMeansCrc s → step s = .next t → TenMeansCrc t

/-- Rules R10, R13, R30: no step ends in a transient state, so the host always reads `BUSY` as 0. -/
def Obligations.StepEndsAtRest : Prop :=
  ∀ s t : State, s.phase ≠ .headerPending → step s = .next t → t.busy = false

/-- Rules R14, R16, R41: no instruction changes `A0` to `A3`, `SYM_ADDR`, `WLEN` or the symbol memory. The last two
equations are of the model's own fields (assumption 1). -/
def Obligations.InstructionsKeepHostState : Prop :=
  ∀ (i : Instr) (s t : State), exec i s = .next t →
    t.ops = s.ops ∧ t.port = s.port ∧ (∀ a, a < 0x1000 → t.mem.get a = s.mem.get a) ∧
    t.queue = s.queue ∧ t.readData = s.readData

/-- Rules R17 to R20, R28, R41: which instructions write the context registers, the packet range, `WB`, `REC`, `PAY`,
`VOICE` and `REC_LEN`. `SYM` has its own statement: no instruction writes it. That a packet row is an instruction is the
model's (assumption 2). -/
def Obligations.WritersOfState : Prop :=
  ∀ (i : Instr) (s t : State), exec i s = .next t →
    (i ∉ [.clrCtx, .setLap, .setUap, .setNap, .setClock, .setChannel, .setWhitened] → t.ctx = s.ctx) ∧
    (i ≠ .create → t.range = s.range) ∧
    (i ∉ [.host2air, .dewhiten, .unfec13, .unfec23, .acgen] → SameCellsOutside 0x2000 0x2B00 s t) ∧
    (i ≠ .emit → ∀ a, 0x4000 ≤ a → t.mem.get a = s.mem.get a) ∧
    (i ∈ [.host2air, .dewhiten, .unfec13, .unfec23, .acgen] → SameCellsOutside 0x1000 3125 s t) ∧
    (i ∉ [.decodePayload, .decode] → (∀ p f, i ≠ packetInstr p f) →
      ∀ a, 0x2000 ≤ a → a < 0x2AB8 → t.mem.get a = s.mem.get a) ∧
    ((i = .decodePayload → s.prog.packetType ≠ 8) → (i = .decode → t.prog.packetType ≠ 8) → (∀ f, i ≠ .pktDv f) →
      ∀ a, 0x3200 ≤ a → a < 0x3250 → t.mem.get a = s.mem.get a) ∧
    (t.prog.recLen ≠ s.prog.recLen → t.prog.recLen = 0 ∨ i = .emit)

/-- Rule R230: the transitions of `STATE` that a command can make from each state at rest; a packet row runs in
`PayloadPending`, which is the model's (assumption 2). -/
def Obligations.StateTransitions : Prop :=
  (∀ (i : Instr) (s t : State), s.phase ≠ .headerPending → s.phase ≠ .payloadPending → exec i s = .next t →
    t.phase = s.phase ∨
    match s.phase, t.phase with
    | .idle, .created => i = .create
    | .created, .headerDecoded => i = .decodeHeader ∨ i = .decode
    | .created, .payloadDecoded => i = .decode
    | .headerDecoded, .payloadDecoded => i = .decodePayload
    | .headerDecoded, .created =>
      i ∈ [.create, .restart, .clrCtx, .setLap, .setUap, .setNap, .setClock, .setWhitened]
    | .payloadDecoded, .created =>
      i ∈ [.create, .restart, .clrCtx, .setLap, .setUap, .setNap, .setClock, .setWhitened]
    | _, _ => False) ∧
  (∀ (p : PacketType) (f : HeaderFields) (s t : State), s.phase = .payloadPending →
    exec (packetInstr p f) s = .next t →
    (t.prog.result = .zero ∧ t.phase = .headerDecoded) ∨ (t.prog.result ≠ .zero ∧ t.phase = .payloadDecoded))

/-- Rules R170, R224, R230: a command issued in a state its rule does not allow raises `BadState` and changes nothing else.
That a packet row outside `PayloadPending` is such a command is the model's (assumption 2). The header commands and
`RESTART` have their refusals in their own statements. -/
def Obligations.OutOfOrderIsRefused : Prop :=
  ∀ s : State, s.phase ≠ .fault →
    (s.phase ≠ .headerDecoded → exec .decodePayload s = .next { s with res := ⟨0, 0, .badState⟩ }) ∧
    (s.phase ≠ .payloadDecoded → exec .emit s = .next { s with res := ⟨0, 0, .badState⟩ }) ∧
    (s.phase ≠ .payloadPending → ∀ p f,
      exec (packetInstr p f) s = .next { s with res := ⟨0, 0, .badState⟩ })

/-! ## The packet context -/

/-- Rules R210, R212: `NOP` clears `R0`, `R1` and `CAUSE` alone; `RESTART` clears the decode progress of a packet, and is
refused where there is none. -/
def Obligations.NopAndRestart : Prop :=
  ∀ s : State, s.phase ≠ .fault →
    exec .nop s = .next { s with res := ⟨0, 0, .ok⟩ } ∧
    (s.phase ≠ .idle →
      exec .restart s = .next { s with phase := .created, prog := Progress.cleared, res := ⟨0, 0, .ok⟩ }) ∧
    (s.phase = .idle → exec .restart s = .next { s with res := ⟨0, 0, .badState⟩ })

/-- Rule R220. -/
def Obligations.ClrCtxRestoresContext : Prop :=
  ∀ s : State, s.phase ≠ .fault →
    exec .clrCtx s = .next { s with
      ctx := ⟨0, 0, 0, 0, 0, false, false, false, false, true⟩
      prog := Progress.cleared
      phase := if s.phase = .idle then .idle else .created
      res := ⟨0, 0, .ok⟩ }

/-- Rule R211: the packet is the range of the window from `A0` to its end; an offset past the window is refused. -/
def Obligations.CreateNamesPacket : Prop :=
  ∀ s : State, s.phase ≠ .fault →
    (s.ops.a0.toNat ≤ s.wlen → ∃ t, exec .create s = .next t ∧
      t.pktBase = s.ops.a0.toNat ∧ t.length = s.wlen - s.ops.a0.toNat ∧
      t = { s with
        range := t.range
        prog := Progress.cleared
        phase := .created
        res := ⟨BitVec.ofNat 32 t.length, 0, .ok⟩ }) ∧
    (s.wlen < s.ops.a0.toNat → exec .create s = .next { s with res := ⟨0, 0, .badOperand⟩ })

/-- Rules R36, R213 to R216, R218: each context setter writes its value and its flag and restarts the decode. -/
def Obligations.ContextSetters : Prop :=
  ∀ s : State, s.phase ≠ .fault →
    let restarted : Context → State := fun c =>
      { s with
        ctx := c
        prog := Progress.cleared
        phase := if s.phase = .idle then .idle else .created
        res := ⟨0, 0, .ok⟩ }
    exec .setLap s = .next (restarted { s.ctx with lap := s.ops.a0.extractLsb' 0 24, haveLap := true }) ∧
    exec .setUap s = .next (restarted { s.ctx with uap := s.ops.a0.extractLsb' 0 8, haveUap := true }) ∧
    exec .setNap s = .next (restarted { s.ctx with nap := s.ops.a0.extractLsb' 0 16, haveNap := true }) ∧
    exec .setClock s = .next (restarted { s.ctx with
      clock := s.ops.a0.extractLsb' 0 27
      haveFullClock := s.ops.a1.getLsbD 0 }) ∧
    exec .setWhitened s = .next (restarted { s.ctx with whitened := s.ops.a0.getLsbD 0 })

/-- Rule R217: `SET_CHANNEL` is no context setter, so the decode stays. -/
def Obligations.SetChannelKeepsDecode : Prop :=
  ∀ s : State, s.phase ≠ .fault →
    exec .setChannel s = .next { s with
      ctx := { s.ctx with channel := s.ops.a0.extractLsb' 0 8 }
      res := ⟨0, 0, .ok⟩ }

/-- Rule R222: `DECODE` is `DECODE_HEADER` and, where that accepted, `DECODE_PAYLOAD`, but for what it returns; the
two refusals. -/
def Obligations.DecodeRunsBothStages : Prop :=
  (∀ s : State, s.phase = .created → s.ctx.haveUap = true → ∃ t u,
    exec .decodeHeader s = .next t ∧ exec .decodePayload t = .next u ∧
    (t.phase = .created ∨ t.phase = .headerDecoded) ∧
    exec .decode s = .next
      (if t.phase = .headerDecoded then
        { u with res := ⟨1, u.prog.payloadLength.setWidth 32, u.res.cause⟩ }
      else { t with prog := { t.prog with result := .zero }, res := ⟨0, t.res.r1, t.res.cause⟩ })) ∧
  (∀ s : State, s.phase ≠ .fault → s.phase ≠ .created →
    exec .decode s = .next { s with res := ⟨0, 0, .badState⟩ }) ∧
  ∀ s : State, s.phase = .created → s.ctx.haveUap = false →
    exec .decode s = .next { s with res := ⟨0, 0, .noUap⟩ }

/-- Rules R75, R224: the record byte by byte, its length, and what `EMIT` leaves alone. The premise is the bound of rule
R25, which every step keeps. -/
def Obligations.EmitBuildsRecord : Prop :=
  (∀ s : State, s.phase = .payloadDecoded → s.payloadBytes ≤ 343 → ∃ t, exec .emit s = .next t ∧
    t = { s with
      prog := { s.prog with recLen := BitVec.ofNat 9 (9 + s.payloadBytes) }
      res := ⟨BitVec.ofNat 32 (9 + s.payloadBytes), 0, .ok⟩
      mem := t.mem } ∧
    (∀ k, k < 9 + s.payloadBytes → airToHost (t.readBuf .record (8 * k) 8) 8 =
      match k with
      | 0 => (s.ctx.clock.extractLsb' 0 8).toNat
      | 1 => (s.ctx.clock.extractLsb' 8 8).toNat
      | 2 => (s.ctx.clock.extractLsb' 16 8).toNat
      | 3 => (s.ctx.clock.extractLsb' 24 3).toNat
      | 4 => s.ctx.channel.toNat
      | 5 => s.ctx.haveFullClock.toNat + 2 * s.ctx.haveNap.toNat
      | 6 => (s.prog.packetHeader.extractLsb' 0 7).toNat
      | 7 => (s.prog.packetHeader.extractLsb' 7 3).toNat
      | 8 => (s.prog.packetHeader.extractLsb' 10 8).toNat
      | j + 9 => airToHost (s.readBuf .pay (8 * j) 8) 8) ∧
    SameCellsOutside 0x4000 (8 * (9 + s.payloadBytes)) s t) ∧
  ∀ s : State, s.phase ≠ .payloadDecoded → s.phase ≠ .fault →
    exec .emit s = .next { s with res := ⟨0, 0, .badState⟩ }

/-! ## The stand-alone commands -/

/-- Rules R41, R45: which source ranges are readable, region by region. -/
def Obligations.RangeOkIsTheMap : Prop :=
  ∀ (s : State) (a n : Nat), s.rangeOk a n = true ↔
    n = 0 ∨ (a < 0x0C35 ∧ a + n ≤ s.wlen) ∨ (0x1000 ≤ a ∧ a + n ≤ 0x1C35) ∨ (0x2000 ≤ a ∧ a + n ≤ 0x2AB8) ∨
    (0x3000 ≤ a ∧ a + n ≤ 0x3012) ∨ (0x3100 ≤ a ∧ a + n ≤ 0x3110) ∨ (0x3200 ≤ a ∧ a + n ≤ 0x3250) ∨
    (0x4000 ≤ a ∧ a + n ≤ 0x4B00)

/-- Rules R90, R96: bit `i` of `R0` is the `i`-th bit read; more than 32 bits, or a range that is not readable, is refused. -/
def Obligations.Air2HostReadsBits : Prop :=
  ∀ s : State, s.phase ≠ .fault →
    let a := s.ops.a0.toNat % 65536
    let n := s.ops.a1.toNat
    (n ≤ 32 → s.rangeOk a n = true → ∃ t, exec .air2host s = .next t ∧
      (∀ i, i < 32 → t.res.r0.getLsbD i = (decide (i < n) && s.bitRead (a + i))) ∧
      t.res.r1 = 0 ∧ t.res.cause = .ok ∧ SameButResults s t) ∧
    (32 < n ∨ s.rangeOk a n = false → exec .air2host s = .next { s with res := ⟨0, 0, .badOperand⟩ })

/-- Rules R91, R97: bit `i` of `A0` goes to bit `d + i` of `WB`; a destination past the end of `WB` is refused. -/
def Obligations.Host2AirWritesBits : Prop :=
  ∀ s : State, s.phase ≠ .fault →
    let n := s.ops.a1.toNat
    let d := s.ops.a2.toNat
    (n ≤ 32 → d + n ≤ 3125 → ∃ t, exec .host2air s = .next t ∧ t.res = ⟨s.ops.a1, 0, .ok⟩ ∧
      (∀ i, i < n → t.bitRead (0x1000 + d + i) = s.ops.a0.getLsbD i) ∧ SameButBits (0x1000 + d) n s t) ∧
    (32 < n ∨ 3125 < d + n → exec .host2air s = .next { s with res := ⟨0, 0, .badOperand⟩ })

/-- Rules R95, R98: bit `i` of `R0` is bit `7 - i` of the operand byte. -/
def Obligations.Rev8ReversesByte : Prop :=
  ∀ s : State, s.phase ≠ .fault → ∃ t, exec .rev8 s = .next t ∧
    (∀ i, i < 8 → t.res.r0.getLsbD i = s.ops.a0.getLsbD (7 - i)) ∧ t.res.r0.toNat < 256 ∧
    t.res.r1 = 0 ∧ t.res.cause = .ok ∧ SameButResults s t

/-- Rules R94, R99: every bit of `WB` written is the source bit as it stood before, xored with its entry of `WHITEN_SEQ`
where `WHITENED` is 1. -/
def Obligations.DewhitenWritesBits : Prop :=
  ∀ s : State, s.phase ≠ .fault →
    let a := s.ops.a0.toNat % 65536
    let n := s.ops.a2.toNat
    let j0 := (hw.whitenIdx.getD (s.ops.a1.toNat % 64) 0 + s.ops.a3.toNat) % 127
    (n ≤ 3125 → s.rangeOk a n = true → ∃ t, exec .dewhiten s = .next t ∧
      (∀ k, k < n → t.bitRead (0x1000 + k) =
        (s.bitRead (a + k) ^^ (s.ctx.whitened && hw.whitenSeq.getLsbD ((j0 + k) % 127)))) ∧
      t.res = ⟨s.ops.a2, BitVec.ofNat 32 j0, .ok⟩ ∧ SameButBits 0x1000 n s t) ∧
    (3125 < n ∨ s.rangeOk a n = false → exec .dewhiten s = .next { s with res := ⟨0, 0, .badOperand⟩ })

/-- Rule R94: dewhitening twice gives the bits back; `skip` counts modulo 127; a sequence may be dewhitened in parts. -/
def Obligations.DewhitenLaws : Prop :=
  ∀ (s : Bits) (clock n m skip : Nat) (w : Bool),
    dewhiten (dewhiten s clock n skip w) clock n skip w = s.take n ∧
    dewhiten s clock n (skip + 127) w = dewhiten s clock n skip w ∧
    dewhiten s clock (n + m) skip w = dewhiten s clock n skip w ++ dewhiten (s.drop n) clock m (skip + n) w

/-- Rules R110 to R112: the majority of each triplet, the count of those that disagree, and the verdict of the gate. -/
def Obligations.Unfec13DecodesTriplets : Prop :=
  ∀ s : State, s.phase ≠ .fault →
    let a := s.ops.a0.toNat % 65536
    let n := s.ops.a1.toNat
    let b := fun i j => s.bitRead (a + 3 * i + j)
    let be := (List.range n).countP fun i => !(b i 0 == b i 1 && b i 1 == b i 2)
    (n ≤ 1041 → s.rangeOk a (3 * n) = true → ∃ t, exec .unfec13 s = .next t ∧
      (∀ i, i < n → t.bitRead (0x1000 + i) = ((b i 0 && b i 1) || (b i 1 && b i 2) || (b i 2 && b i 0))) ∧
      (be < n / 4 → t.res = ⟨BitVec.ofNat 32 be, 1, .ok⟩) ∧
      (n / 4 ≤ be → t.res = ⟨BitVec.ofNat 32 be, 0, .repetitionGate⟩) ∧ SameButBits 0x1000 n s t) ∧
    (1041 < n ∨ s.rangeOk a (3 * n) = false → exec .unfec13 s = .next { s with res := ⟨0, 0, .badOperand⟩ })

/-- Rules R115, R116: the data bits of every block in order, the count of blocks with a data bit inverted, and no data at
all where one block is uncorrectable. -/
def Obligations.Unfec23DecodesBlocks : Prop :=
  ∀ s : State, s.phase ≠ .fault →
    let a := s.ops.a0.toNat % 65536
    let nbits := s.ops.a1.toNat
    let nblk := (nbits + 9) / 10
    let block := fun k => unfec23Block (s.bitsAt (a + 15 * k) 15)
    (nbits ≤ 2080 → s.rangeOk a (15 * nblk) = true →
      ((∀ k, k < nblk → (block k).isSome = true) → ∃ t, exec .unfec23 s = .next t ∧
        (∀ k d f, k < nblk → block k = some (d, f) → ∀ i, i < 10 →
          t.bitRead (0x1000 + 10 * k + i) = d.getD i false) ∧
        t.res = ⟨BitVec.ofNat 32 (10 * nblk),
          BitVec.ofNat 32 ((List.range nblk).countP fun k => (block k).any fun r => r.2), .ok⟩ ∧
        SameButBits 0x1000 (10 * nblk) s t) ∧
      ((∃ k, k < nblk ∧ block k = none) → exec .unfec23 s = .next { s with res := ⟨0, 0, .fecUncorrectable⟩ })) ∧
    (2080 < nbits ∨ s.rangeOk a (15 * nblk) = false →
      exec .unfec23 s = .next { s with res := ⟨0, 0, .badOperand⟩ })

/-- Rules R113, R114: a codeword decodes to its data; so does a codeword with any one symbol inverted, a data bit being
inverted back exactly where a data symbol was; any two inverted symbols are uncorrectable. -/
def Obligations.BlockCodeCorrectsOneError : Prop :=
  ∀ d : Bits, d.length = 10 →
    unfec23Block (codeword d) = some (d, false) ∧
    (∀ j, j < 15 → unfec23Block (flipAt (codeword d) j) = some (d, decide (j < 10))) ∧
    ∀ j k, j < k → k < 15 → unfec23Block (flipAt (flipAt (codeword d) j) k) = none

/-- Rules R127, R128: `WB` holds the access code, `R0` and `R1` the sync word, and the `LAP` register is neither read nor
written. -/
def Obligations.AcgenWritesAccessCode : Prop :=
  ∀ s : State, s.phase ≠ .fault →
    let ac := acGen (s.ops.a0.extractLsb' 0 24)
    ∃ t, exec .acgen s = .next t ∧
      (∀ i, i < 72 → t.bitRead (0x1000 + i) = ac.getD i false) ∧
      (∀ i, i < 32 → t.res.r0.getLsbD i = ac.getD (4 + i) false ∧ t.res.r1.getLsbD i = ac.getD (36 + i) false) ∧
      t.res.cause = .ok ∧ SameButBits 0x1000 72 s t

/-- Rules R64, R65, R125: of every LAP, the LAP and the extension stand at their places, the head and the tail of the
access code alternate, and the sync word descrambled is a multiple of the generator, octal 260534236651, so a codeword of the (64,30) code. -/
def Obligations.AccessCodeShape : Prop :=
  ∀ lap : BitVec 24,
    (acGen lap).length = 72 ∧
    (∀ i, i < 24 → (acGen lap).getD (38 + i) false = lap.getLsbD i) ∧
    slice (acGen lap) 62 6 =
      (if lap.getLsbD 23 then [true, true, false, false, true, false] else [false, false, true, true, false, true]) ∧
    (∀ i, i < 4 → (acGen lap).getD i false = !((acGen lap).getD (i + 1) false)) ∧
    (∀ i, i < 6 → (acGen lap).getD (65 + i) false = !((acGen lap).getD (66 + i) false)) ∧
    ∃ q, q < 2 ^ 30 ∧
      airValue (slice (acGen lap) 4 64) ^^^ 0x83848D96BBCC54FC = carrylessProduct q 0o260534236651

/-- Rules R129, R130: the full count of differences over 68 positions, accepted below 7; a code has none against its own
LAP. -/
def Obligations.VerifyCountsErrors : Prop :=
  (∀ s : State, s.phase ≠ .fault →
    let a := s.ops.a0.toNat % 65536
    let ac := acGen (s.ops.a1.extractLsb' 0 24)
    let errs := (List.range 68).countP fun i => s.bitRead (a + i) != ac.getD i false
    (s.rangeOk a 68 = true → ∃ t, exec .verify s = .next t ∧
      (errs < 7 → t.res = ⟨1, BitVec.ofNat 32 errs, .ok⟩) ∧
      (7 ≤ errs → t.res = ⟨0, BitVec.ofNat 32 errs, .notFound⟩) ∧ SameButResults s t) ∧
    (s.rangeOk a 68 = false → exec .verify s = .next { s with res := ⟨0, 0, .badOperand⟩ })) ∧
  ∀ lap, verifyErrors (acGen lap) lap = 0 ∧ verifyAccepts (acGen lap) lap = true

/-- Rules R131 to R133: the least offset of the window whose preamble and trailer lie within the budget and whose access code
verifies under the LAP found there, or not found. -/
def Obligations.SniffFindsFirstOffset : Prop :=
  ∀ s : State, s.phase ≠ .fault →
    let start := s.ops.a0.toNat
    let lapAt := fun o => BitVec.ofNat 24 (airToHost (s.readBuf .sym (o + 38) 24) 24)
    let accepted := fun o =>
      alternatingDistance (s.readBuf .sym o 5) + alternatingDistance (s.readBuf .sym (o + 65) 7) ≤ 2 ∧
      verifyErrors (s.readBuf .sym o 68) (lapAt o) < 7
    (∀ o, start ≤ o → o + 72 ≤ s.wlen → accepted o → (∀ p, start ≤ p → p < o → ¬ accepted p) →
      exec .sniff s = .next { s with res := ⟨BitVec.ofNat 32 o, BitVec.ofNat 32 (lapAt o).toNat, .ok⟩ }) ∧
    (start ≤ s.wlen → (∀ o, start ≤ o → o + 72 ≤ s.wlen → ¬ accepted o) →
      exec .sniff s = .next { s with res := ⟨0xFFFFFFFF, 0, .notFound⟩ }) ∧
    (s.wlen < start → exec .sniff s = .next { s with res := ⟨0, 0, .badOperand⟩ })

/-- Rules R146, R147. -/
def Obligations.Hec2UapReturnsUap : Prop :=
  ∀ s : State, s.phase ≠ .fault →
    exec .hec2uap s = .next { s with
      res := ⟨(hecToUap (s.ops.a0.extractLsb' 0 10) (s.ops.a1.extractLsb' 0 8)).setWidth 32, 0, .ok⟩ }

/-- Rules R146, R148: `HecToUap` inverts the forward HEC generator, and of a given data field only that HEC gives the UAP
back. Both rules mark this as their own inference: R148 the inversion, R146 that the map from HEC to UAP is a bijection. The
generator itself is one of the passages the spec supplied from general knowledge (assumption 13). -/
def Obligations.HecToUapInvertsHecGen : Prop :=
  ∀ (data : BitVec 10) (uap : Byte),
    hecToUap data (hecGen data uap) = uap ∧ ∀ hec : Byte, hecToUap data hec = uap → hec = hecGen data uap

/-- Rules R145, R149: the candidate UAP and the header under the clock hypothesis `A0[5:0]`, in each state with a packet,
nothing else written; the two failures; the refusal where there is no packet. -/
def Obligations.ProbeUapReturnsCandidate : Prop :=
  (∀ s : State, s.phase = .created ∨ s.phase = .headerDecoded ∨ s.phase = .payloadDecoded →
    let t := unfec13 (s.symbols 72 54) 18
    let h := dewhiten t.1 (s.ops.a0.toNat % 64) 18 0 s.ctx.whitened
    let u := hecToUap (BitVec.ofNat 10 (airToHost (h.take 10) 10)) (BitVec.ofNat 8 (airToHost (h.drop 10) 8))
    (126 ≤ s.length → t.2 < 4 →
      exec .probeUap s = .next { s with res := ⟨u.setWidth 32, BitVec.ofNat 32 (airToHost h 18), .ok⟩ }) ∧
    (s.length < 126 → exec .probeUap s = .next { s with res := ⟨0, 0, .shortBuffer⟩ }) ∧
    (126 ≤ s.length → 4 ≤ t.2 → exec .probeUap s = .next { s with res := ⟨0, 0, .repetitionGate⟩ })) ∧
  ∀ s : State, s.phase = .idle → exec .probeUap s = .next { s with res := ⟨0, 0, .badState⟩ }

/-- Rules R145, R150: the header is accepted exactly where its HEC is the one that the UAP gives its data field; a header
that is not accepted leaves the packet in `Created`, with the computed UAP in `R1` where there was a header to read; the
two refusals. Rule R150 compares the computed UAP with `UAP`; that this is to compare the HEC with that of the forward
generator is the inference the rule marks as its own, from rule R146 (assumption 13 on the generator). -/
def Obligations.DecodeHeaderAcceptsItsHec : Prop :=
  (∀ s : State, s.phase = .created → s.ctx.haveUap = true →
    let t := unfec13 (s.symbols 72 54) 18
    let h := dewhiten t.1 (s.ctx.clock.toNat % 64) 18 0 s.ctx.whitened
    let data := BitVec.ofNat 10 (airToHost (h.take 10) 10)
    let hec := BitVec.ofNat 8 (airToHost (h.drop 10) 8)
    (126 ≤ s.length → t.2 < 4 → hec = hecGen data s.ctx.uap →
      exec .decodeHeader s = .next { s with
        phase := .headerDecoded
        prog := { s.prog with
          haveHeader := true
          packetHeader := BitVec.ofNat 18 (airToHost h 18)
          packetType := BitVec.ofNat 4 (airToHost (slice h 3 4) 4) }
        res := ⟨1, s.ctx.uap.setWidth 32, .ok⟩ }) ∧
    (126 ≤ s.length → t.2 < 4 → hec ≠ hecGen data s.ctx.uap →
      exec .decodeHeader s = .next { s with res := ⟨0, (hecToUap data hec).setWidth 32, .badHec⟩ }) ∧
    (s.length < 126 → exec .decodeHeader s = .next { s with res := ⟨0, 0, .shortBuffer⟩ }) ∧
    (126 ≤ s.length → 4 ≤ t.2 → exec .decodeHeader s = .next { s with res := ⟨0, 0, .repetitionGate⟩ })) ∧
  (∀ s : State, s.phase ≠ .fault → s.phase ≠ .created →
    exec .decodeHeader s = .next { s with res := ⟨0, 0, .badState⟩ }) ∧
  ∀ s : State, s.phase = .created → s.ctx.haveUap = false →
    exec .decodeHeader s = .next { s with res := ⟨0, 0, .noUap⟩ }

/-- Rules R160 to R163: the CRC register bit by bit, `CRCGEN`, and `CRCCHK` by the residue: the payload validates exactly
where the register, run over the CRC bytes too, ends at 0. Rule R161 compares the computed CRC with the received one; the
residue test is the inference it marks as its own, from rule R160 (assumption 13 on the CRC's form, 11 on the mask). -/
def Obligations.CrcCommands : Prop :=
  (∀ (s : Bits) (uap : Byte), crcGen s 0 uap = (rev8 uap).setWidth 16 <<< 8) ∧
  (∀ (s : Bits) (b : Bool) (uap : Byte), crcGen (s ++ [b]) (s.length + 1) uap =
    let reg := crcGen s s.length uap
    let fb := reg.getLsbD 0 ^^ b
    let shifted := (reg >>> 1) ||| ((BitVec.ofBool fb).setWidth 16 <<< 15)
    if fb then shifted ^^^ 0x0408 else shifted) ∧
  (∀ (s : Bits) (len : Nat) (uap : Byte), 2 ≤ len → 8 * len ≤ s.length → crcOk s len uap = residueZero s len uap) ∧
  ∀ s : State, s.phase ≠ .fault →
    let a := s.ops.a0.toNat % 65536
    let n := s.ops.a1.toNat
    let uap := s.ops.a2.extractLsb' 0 8
    (n ≤ 3125 → s.rangeOk a n = true →
      exec .crcgen s = .next { s with res := ⟨(crcGen (s.bitsAt a n) n uap).setWidth 32, 0, .ok⟩ }) ∧
    (2 ≤ n → n ≤ 390 → s.rangeOk a (8 * n) = true →
      let bits := s.bitsAt a (8 * n)
      let ok := residueZero bits n uap
      exec .crcchk s = .next { s with
        res := ⟨if ok then 1 else 0, (crcGen bits (8 * n - 16) uap).setWidth 32, crcCause ok⟩ }) ∧
    (3125 < n ∨ s.rangeOk a n = false → exec .crcgen s = .next { s with res := ⟨0, 0, .badOperand⟩ }) ∧
    (n < 2 ∨ 390 < n ∨ s.rangeOk a (8 * n) = false →
      exec .crcchk s = .next { s with res := ⟨0, 0, .badOperand⟩ })

/-! ## The sixteen packet types -/

/-- Rule R172. That a packet row runs in `PayloadPending` is the model's, here and below (assumption 2). -/
def Obligations.NullAndPollPackets : Prop :=
  ∀ (s : State) (f : HeaderFields), s.phase = .payloadPending →
    exec (.pktNull f) s = .next (s.payloadAccepted (.plain 0) .one .unvalidated s.mem) ∧
    exec (.pktPoll f) s = .next (s.payloadAccepted (.plain 0) .one .unvalidated s.mem)

/-- Rules R173, R174: DM1, DM3 and DM5. Where the blocks of the declared length decode, `PAY` holds the dewhitened payload,
whose own first bytes are the payload header, and the result is that of the CRC; otherwise one of the other outcomes. -/
def Obligations.DmPackets : Prop :=
  ∀ (s : State) (f : HeaderFields), s.phase = .payloadPending →
    ∀ r ∈ [(Instr.pktDm1 f, 1, 20), (.pktDm3 f, 2, 125), (.pktDm5 f, 2, 228)],
    let i := r.1
    let hlen := r.2.1
    let maxtot := r.2.2
    let size := s.length - 126
    let need := fun tot => 15 * ceilDiv (8 * tot) 10
    (∀ tot bits, s.blockRead 126 18 (8 * tot) = some bits → hlen + lengthField bits hlen + 2 = tot →
      tot ≤ maxtot → need tot ≤ size → ∃ t, exec i s = .next t ∧
        AcceptedWith s t (.headed tot bits hlen) (crcResult (residueZero bits tot s.ctx.uap))
          (crcCause (residueZero bits tot s.ctx.uap)) bits) ∧
    (∀ p, s.blockRead 126 18 (8 * hlen) = some p → need hlen ≤ size →
      (maxtot < hlen + lengthField p hlen + 2 →
        exec i s = .next (s.payloadAccepted (.headed 0 p hlen) .one .implausibleLength s.mem)) ∧
      (hlen + lengthField p hlen + 2 ≤ maxtot → size < need (hlen + lengthField p hlen + 2) →
        exec i s = .next (s.payloadFailed .shortBuffer s.mem)) ∧
      (hlen + lengthField p hlen + 2 ≤ maxtot → need (hlen + lengthField p hlen + 2) ≤ size →
        s.blockRead 126 18 (8 * (hlen + lengthField p hlen + 2)) = none →
        exec i s = .next (s.payloadFailed .fecUncorrectable s.mem))) ∧
    (need hlen ≤ size → s.blockRead 126 18 (8 * hlen) = none →
      exec i s = .next (s.payloadFailed .fecUncorrectable s.mem)) ∧
    (size < need hlen → exec i s = .next (s.payloadFailed .shortBuffer s.mem))

/-- Rules R173, R175, R183: DH1, DH3 and DH5 with a CRC, AUX1 without one, all uncoded. -/
def Obligations.DhAndAux1Packets : Prop :=
  ∀ (s : State) (f : HeaderFields), s.phase = .payloadPending →
    ∀ r ∈ [(Instr.pktDh1 f, 1, 30, true), (.pktDh3 f, 2, 187, true), (.pktDh5 f, 2, 343, true),
      (.pktAux1 f, 1, 30, false)],
    let i := r.1
    let hlen := r.2.1
    let maxtot := r.2.2.1
    let crc := r.2.2.2
    let size := s.length - 126
    let p := s.plainRead 126 18 (8 * hlen)
    let tot := hlen + lengthField p hlen + (if crc then 2 else 0)
    let bits := s.plainRead 126 18 (8 * tot)
    let ok := residueZero bits tot s.ctx.uap
    (8 * hlen ≤ size → tot ≤ maxtot → 8 * tot ≤ size → ∃ t, exec i s = .next t ∧
      AcceptedWith s t (.headed tot bits hlen) (if crc then crcResult ok else .one)
        (if crc then crcCause ok else .unvalidated) bits) ∧
    (8 * hlen ≤ size → maxtot < tot →
      exec i s = .next (s.payloadAccepted (.headed 0 p hlen) .one .implausibleLength s.mem)) ∧
    (8 * hlen ≤ size → tot ≤ maxtot → size < 8 * tot → exec i s = .next (s.payloadFailed .shortBuffer s.mem)) ∧
    (size < 8 * hlen → exec i s = .next (s.payloadFailed .shortBuffer s.mem))

/-- Rule R176: the nominal clock is tried first, then 32 to 63 in order; the first that validates is reported and `PAY`
holds its reading; where none does, `PAY` holds the nominal one. `CLOCK` is never changed. -/
def Obligations.FhsPacket : Prop :=
  ∀ (s : State) (f : HeaderFields), s.phase = .payloadPending →
    let size := s.length - 126
    let c0 := s.ctx.clock.toNat % 64
    (∀ r, unfec23 (s.symbols 126 240) 160 = some r → 240 ≤ size →
      let reading := fun c => dewhiten r.1 c 160 18 s.ctx.whitened
      let valid := fun c => residueZero (reading c) 20 s.ctx.uap
      (valid c0 = true → ∃ t, exec (.pktFhs f) s = .next t ∧
        AcceptedWith s t ⟨20, 0, 0, some c0⟩ .ten .ok (reading c0)) ∧
      (∀ c, valid c0 = false → 32 ≤ c → c ≤ 63 → valid c = true → (∀ d, 32 ≤ d → d < c → valid d = false) →
        ∃ t, exec (.pktFhs f) s = .next t ∧ AcceptedWith s t ⟨20, 0, 0, some c⟩ .ten .ok (reading c)) ∧
      (valid c0 = false → (∀ c, 32 ≤ c → c ≤ 63 → valid c = false) → ∃ t, exec (.pktFhs f) s = .next t ∧
        AcceptedWith s t (.plain 20) .one .crcMismatch (reading c0))) ∧
    (240 ≤ size → unfec23 (s.symbols 126 240) 160 = none →
      exec (.pktFhs f) s = .next (s.payloadFailed .fecUncorrectable s.mem)) ∧
    (size < 240 → exec (.pktFhs f) s = .next (s.payloadFailed .shortBuffer s.mem))

/-- Rules R111, R177: HV1, repetition-coded with its gate, and HV2, block-coded; neither can be validated. -/
def Obligations.Hv1AndHv2Packets : Prop :=
  ∀ (s : State) (f : HeaderFields), s.phase = .payloadPending →
    let size := s.length - 126
    let u := unfec13 (s.symbols 126 240) 80
    (240 ≤ size → u.2 < 20 → ∃ t, exec (.pktHv1 f) s = .next t ∧
      AcceptedWith s t (.plain 10) .one .unvalidated (dewhiten u.1 s.clock6 80 18 s.ctx.whitened)) ∧
    (240 ≤ size → 20 ≤ u.2 → exec (.pktHv1 f) s = .next (s.payloadFailed .repetitionGate s.mem)) ∧
    (∀ bits, 240 ≤ size → s.blockRead 126 18 160 = some bits → ∃ t, exec (.pktHv2 f) s = .next t ∧
      AcceptedWith s t (.plain 20) .one .unvalidated bits) ∧
    (240 ≤ size → s.blockRead 126 18 160 = none →
      exec (.pktHv2 f) s = .next (s.payloadFailed .fecUncorrectable s.mem)) ∧
    (size < 240 → exec (.pktHv1 f) s = .next (s.payloadFailed .shortBuffer s.mem) ∧
      exec (.pktHv2 f) s = .next (s.payloadFailed .shortBuffer s.mem))

/-- Rules R178, R181: type 7 is EV3 at the shortest length that validates; where none does it is HV3, or a short buffer
where the HV3 symbols are not all there. `PAY` keeps the bits of the EV3 attempt in both cases (rule R170), the 30 bytes of
HV3 being the first of them; nothing is written where there is no EV3 attempt. -/
def Obligations.Hv3Ev3Packet : Prop :=
  ∀ (s : State) (f : HeaderFields), s.phase = .payloadPending →
    let size := s.length - 126
    let n := min 32 (size / 8)
    let valid := fun len => residueZero (s.plainRead 126 18 (8 * len)) len s.ctx.uap
    (∀ len, 3 ≤ len → len ≤ n → valid len = true → (∀ l, 3 ≤ l → l < len → valid l = false) →
      ∃ t, exec (.pktHv3Ev3 f) s = .next t ∧
        AcceptedWith s t (.plain len) .ten .ok (s.plainRead 126 18 (8 * len))) ∧
    ((∀ l, 3 ≤ l → l ≤ n → valid l = false) → 240 ≤ size → ∃ t, exec (.pktHv3Ev3 f) s = .next t ∧
      t = s.payloadAccepted (.plain 30) .one .unvalidated t.mem ∧
      HoldsBits t 0x2000 (s.plainRead 126 18 (8 * n)) ∧ SameCellsOutside 0x2000 (8 * n) s t) ∧
    ((∀ l, 3 ≤ l → l ≤ n → valid l = false) → 3 ≤ n → size < 240 → ∃ t, exec (.pktHv3Ev3 f) s = .next t ∧
      FailedWith s t .shortBuffer (s.plainRead 126 18 (8 * n))) ∧
    (n < 3 → exec (.pktHv3Ev3 f) s = .next (s.payloadFailed .shortBuffer s.mem))

/-- Rules R173, R174, R182: DV. The voice bits go to `VOICE`, and stay there when the data field fails; the data field is
block-coded with a 1-byte payload header and at most 12 bytes. -/
def Obligations.DvPacket : Prop :=
  ∀ (s : State) (f : HeaderFields), s.phase = .payloadPending →
    let size := s.length - 206
    let need := fun tot => 15 * ceilDiv (8 * tot) 10
    let voiced := fun t : State => HoldsBits t 0x3200 (s.plainRead 126 18 80)
    let only := fun (t : State) (n : Nat) => ∀ a, (a < 0x2000 ∨ 0x2000 + n ≤ a) → (a < 0x3200 ∨ 0x3250 ≤ a) →
      t.mem.get a = s.mem.get a
    (∀ tot bits, 206 ≤ s.length → s.blockRead 206 98 (8 * tot) = some bits → lengthField bits 1 + 3 = tot →
      tot ≤ 12 → need tot ≤ size → ∃ t, exec (.pktDv f) s = .next t ∧
        t = s.payloadAccepted (.headed tot bits 1) (crcResult (residueZero bits tot s.ctx.uap))
          (crcCause (residueZero bits tot s.ctx.uap)) t.mem ∧
        voiced t ∧ HoldsBits t 0x2000 bits ∧ only t (8 * tot)) ∧
    (∀ p, 206 ≤ s.length → s.blockRead 206 98 8 = some p → 15 ≤ size →
      (12 < lengthField p 1 + 3 → ∃ t, exec (.pktDv f) s = .next t ∧
        t = s.payloadAccepted (.headed 0 p 1) .one .implausibleLength t.mem ∧ voiced t ∧ only t 0) ∧
      (lengthField p 1 + 3 ≤ 12 → size < need (lengthField p 1 + 3) → ∃ t, exec (.pktDv f) s = .next t ∧
        t = s.payloadFailed .shortBuffer t.mem ∧ voiced t ∧ only t 0) ∧
      (lengthField p 1 + 3 ≤ 12 → need (lengthField p 1 + 3) ≤ size →
        s.blockRead 206 98 (8 * (lengthField p 1 + 3)) = none → ∃ t, exec (.pktDv f) s = .next t ∧
        t = s.payloadFailed .fecUncorrectable t.mem ∧ voiced t ∧ only t 0)) ∧
    (206 ≤ s.length → 15 ≤ size → s.blockRead 206 98 8 = none → ∃ t, exec (.pktDv f) s = .next t ∧
      t = s.payloadFailed .fecUncorrectable t.mem ∧ voiced t ∧ only t 0) ∧
    (206 ≤ s.length → size < 15 → ∃ t, exec (.pktDv f) s = .next t ∧
      t = s.payloadFailed .shortBuffer t.mem ∧ voiced t ∧ only t 0) ∧
    (s.length < 206 → exec (.pktDv f) s = .next (s.payloadFailed .shortBuffer s.mem))

/-- Rule R179: EV4. The shortest length that validates over the decoded blocks; the blocks up to it are in `PAY`. An
uncorrectable block ends the search, with failure where it is one of the first three; the blocks before it are in `PAY` all
the same (rule R170), none where it is the first. -/
def Obligations.Ev4Packet : Prop :=
  ∀ (s : State) (f : HeaderFields), s.phase = .payloadPending →
    let size := s.length - 126
    let nblk := min 98 (size / 15)
    let blockOf := fun len => ceilDiv (8 * len) 10
    (∀ len bits, 3 ≤ len → len ≤ 122 → blockOf len ≤ nblk → s.blockRead 126 18 (10 * blockOf len) = some bits →
      residueZero bits len s.ctx.uap = true → (∀ l, 3 ≤ l → l < len → residueZero bits l s.ctx.uap = false) →
      ∃ t, exec (.pktEv4 f) s = .next t ∧ AcceptedWith s t (.plain len) .ten .ok bits) ∧
    (∀ b bits, 3 ≤ b → b ≤ nblk → s.blockRead 126 18 (10 * b) = some bits →
      (b = nblk ∨ unfec23Block (s.symbols (126 + 15 * b) 15) = none) →
      (∀ l, 3 ≤ l → l ≤ 10 * b / 8 → residueZero bits l s.ctx.uap = false) →
      ∃ t, exec (.pktEv4 f) s = .next t ∧
        AcceptedWith s t (.plain (10 * b / 8)) .one .crcMismatch bits) ∧
    (∀ b bits, 3 ≤ nblk → b < 3 → s.blockRead 126 18 (10 * b) = some bits →
      unfec23Block (s.symbols (126 + 15 * b) 15) = none →
      ∃ t, exec (.pktEv4 f) s = .next t ∧ FailedWith s t .fecUncorrectable bits) ∧
    (nblk < 3 → exec (.pktEv4 f) s = .next (s.payloadFailed .shortBuffer s.mem))

/-- Rules R73, R178: EV5, and nothing of DM5. The shortest length from 3 to 182 that validates; where none does, all the
whole bytes there are. -/
def Obligations.Ev5Packet : Prop :=
  ∀ (s : State) (f : HeaderFields), s.phase = .payloadPending →
    let n := min 182 ((s.length - 126) / 8)
    let valid := fun len => residueZero (s.plainRead 126 18 (8 * len)) len s.ctx.uap
    (∀ len, 3 ≤ len → len ≤ n → valid len = true → (∀ l, 3 ≤ l → l < len → valid l = false) →
      ∃ t, exec (.pktEv5 f) s = .next t ∧
        AcceptedWith s t (.plain len) .ten .ok (s.plainRead 126 18 (8 * len))) ∧
    (3 ≤ n → (∀ l, 3 ≤ l → l ≤ n → valid l = false) → ∃ t, exec (.pktEv5 f) s = .next t ∧
      AcceptedWith s t (.plain n) .one .crcMismatch (s.plainRead 126 18 (8 * n))) ∧
    (n < 3 → exec (.pktEv5 f) s = .next (s.payloadFailed .shortBuffer s.mem))
end

