-- ==== Sys2Proof/Laws/Bits.lean ====
section
/-! SUPPORT. The pure functions over bit sequences: lengths, bits, and the values they can take. -/

namespace Sys2Proof.Machine

@[simp] theorem hostToAir_length (v n : Nat) : (hostToAir v n).length = n := by simp [hostToAir]

@[simp] theorem hostToAir_getElem (v n i : Nat) (h : i < (hostToAir v n).length) : (hostToAir v n)[i] = v.testBit i := by
  simp [hostToAir]

/-- The value of a sequence is below `2^length`. -/
theorem airValue_lt (s : Bits) : airValue s < 2 ^ s.length := by
  induction s with
  | nil => simp [airValue]
  | cons b s ih => cases b <;> simp [airValue, Nat.pow_succ] <;> omega

/-- Bit `i` of the value of a sequence is its element `i` (rule R90). -/
theorem airValue_testBit (s : Bits) (i : Nat) : (airValue s).testBit i = s.getD i false := by
  induction s generalizing i with
  | nil => simp [airValue]
  | cons b s ih =>
    cases i with
    | zero => cases b <;> simp [airValue, Nat.testBit_zero] <;> omega
    | succ i =>
      have e : (b.toNat + 2 * airValue s) / 2 = airValue s := by cases b <;> simp <;> omega
      simp [airValue, Nat.testBit_succ, e, ih]

theorem airToHost_lt (s : Bits) (n : Nat) : airToHost s n < 2 ^ n := by
  have h := airValue_lt (s.take n)
  have : 2 ^ (s.take n).length ≤ 2 ^ n := Nat.pow_le_pow_right (by omega) (by simp [Nat.min_le_left])
  exact Nat.lt_of_lt_of_le h this

@[simp] theorem slice_length (s : Bits) (a n : Nat) : (slice s a n).length = min n (s.length - a) := by simp [slice]

@[simp] theorem whitenFrom_length (j : Nat) (s : Bits) : (whitenFrom j s).length = s.length := by
  induction s generalizing j with
  | nil => rfl
  | cons b s ih => simp [whitenFrom, ih]

theorem whitenFrom_getElem (j : Nat) (s : Bits) (i : Nat) (h : i < (whitenFrom j s).length) :
    (whitenFrom j s)[i] = (s[i]'(by simpa using h) ^^ whitenBit (j + i)) := by
  induction s generalizing i j with
  | nil => simp [whitenFrom] at h
  | cons b s ih =>
    cases i with
    | zero => simp [whitenFrom]
    | succ i =>
      have e : j + 1 + i = j + (i + 1) := by omega
      simp [whitenFrom, ih, e]

@[simp] theorem dewhiten_length (s : Bits) (clock n skip : Nat) (w : Bool) :
    (dewhiten s clock n skip w).length = min n s.length := by
  cases w <;> simp [dewhiten]

@[simp] theorem dewhitened_length (s : State) (t : Bits) (n skip : Nat) :
    (s.dewhitened t n skip).length = min n t.length := by simp [State.dewhitened]

@[simp] theorem unfec13_length (s : Bits) (n : Nat) : (unfec13 s n).1.length = n := by simp [unfec13, triplets]

theorem unfec13_count_le (s : Bits) (n : Nat) : (unfec13 s n).2 ≤ n := by
  have : (triplets s n).countP disagrees ≤ (triplets s n).length := List.countP_le_length
  simpa [unfec13, triplets] using this

theorem unfec23Block_length {c : Bits} {d : Bits} {f : Bool} (hc : 10 ≤ c.length) (h : unfec23Block c = some (d, f)) :
    d.length = 10 := by
  unfold unfec23Block at h
  simp only at h
  split at h
  · cases h; simp [hc]
  · split at h
    · cases h; simp [hc]
    · cases h

/-- A decode of `k` whole blocks gives `10 * k` data bits and inverts at most one bit in each. -/
theorem unfec23Blocks_length {k : Nat} {s d : Bits} {m : Nat} (hs : 15 * k ≤ s.length)
    (h : unfec23Blocks k s = some (d, m)) : d.length = 10 * k ∧ m ≤ k := by
  induction k generalizing s d m with
  | zero =>
    simp only [unfec23Blocks, Option.some.injEq, Prod.mk.injEq] at h
    rw [← h.1, ← h.2]
    simp
  | succ k ih =>
    simp only [unfec23Blocks] at h
    split at h
    · rename_i d' f rest m' h1 h2
      cases h
      have hd := unfec23Block_length (by simp; omega) h1
      have hr := ih (by simp; omega) h2
      have hf : f.toNat ≤ 1 := by cases f <;> simp
      simp only [List.length_append]
      omega
    · cases h

@[simp] theorem acGen_length (lap : BitVec 24) : (acGen lap).length = 72 := by simp [acGen, hw]

@[simp] theorem crcGen_nil (n : Nat) (uap : Byte) : crcGen [] n uap = crcSeed uap := by simp [crcGen]

/-- What a length discovery answers: the CRC matches at the length, which lies in the range, and at no shorter one. -/
theorem discover_some {bits : Bits} {lo hi len : Nat} {uap : Byte} (h : discover bits lo hi uap = some len) :
    crcOk bits len uap = true ∧ lo ≤ len ∧ len ≤ hi := by
  unfold discover at h
  have h1 := List.find?_some h
  have h2 := List.mem_of_find?_eq_some h
  rw [List.mem_range'_1] at h2
  exact ⟨h1, by omega, by omega⟩

theorem discover_none {bits : Bits} {lo hi len : Nat} {uap : Byte} (h : discover bits lo hi uap = none) (h1 : lo ≤ len)
    (h2 : len ≤ hi) : crcOk bits len uap = false := by
  unfold discover at h
  rw [List.find?_eq_none] at h
  simpa using h len (by rw [List.mem_range'_1]; omega)

/-! ### The constant tables -/

/-- `PREAMBLE_DIST` holds the distances to the nearer alternating pattern (rule R131). -/
theorem preambleDist_eq (v : BitVec 5) : preambleDist v = min (popcount (v ^^^ 0x0A)) (popcount (v ^^^ 0x15)) := by
  revert v; decide +kernel

/-- `TRAILER_DIST` holds the distances to the nearer alternating pattern (rule R131). -/
theorem trailerDist_eq (v : BitVec 7) : trailerDist v = min (popcount (v ^^^ 0x55)) (popcount (v ^^^ 0x2A)) := by
  revert v; decide +kernel

/-- Each type is found by the code of its row (rule R72). -/
theorem packetTypeOf_code (p : PacketType) : packetTypeOf (hw.packetRow p).code = p := by cases p <;> decide

/-- Each code is that of the row it finds (rule R73). -/
theorem code_packetTypeOf (c : BitVec 4) : (hw.packetRow (packetTypeOf c)).code = c := by revert c; decide

end Sys2Proof.Machine
end

