-- ==== Sys2Proof/Laws/Memory.lean ====
section
/-! SUPPORT. The memory: a write gives back what was written and leaves every other bit alone, and keeps the canonical
form and the map. -/

namespace Sys2Proof.Machine

theorem Memory.get_append (m n : Memory) (a : Nat) (h : ∀ c ∈ m, c.1 ≠ a) : Memory.get (m ++ n) a = Memory.get n a := by
  induction m with
  | nil => rfl
  | cons c m ih =>
    have hc : c.1 ≠ a := h c (by simp)
    simp only [List.cons_append, Memory.get, hc, if_false]
    exact ih fun d hd => h d (by simp [hd])

/-- Cells at other addresses do not matter to a read. -/
theorem Memory.get_filter (m : Memory) (p : Host.Cell → Bool) (a : Nat) (h : ∀ c : Host.Cell, c.1 = a → p c = true) :
    Memory.get (m.filter p) a = Memory.get m a := by
  induction m with
  | nil => rfl
  | cons c m ih =>
    by_cases hc : c.1 = a
    · simp [h c hc, Memory.get, hc]
    · by_cases hp : p c
      · simp [hp, Memory.get, hc, ih]
      · simp [hp, Memory.get, hc, ih]

theorem cellsAt_range (s : Bits) (a : Nat) : ∀ c ∈ cellsAt a s, a ≤ c.1 ∧ c.1 < a + s.length := by
  induction s generalizing a with
  | nil => intro c hc; cases hc
  | cons b s ih =>
    intro c hc
    have step : c ∈ cellsAt (a + 1) s → a ≤ c.1 ∧ c.1 < a + (b :: s).length := fun h => by
      have := ih (a + 1) c h
      simp only [List.length_cons]
      omega
    cases b with
    | false => exact step hc
    | true =>
      rcases List.mem_cons.1 hc with rfl | h
      · simp
      · exact step h

/-- Reading the cells of a sequence gives its bits. -/
theorem Memory.get_cellsAt (s : Bits) (a i : Nat) (h : i < s.length) : Memory.get (cellsAt a s) (a + i) = s[i] := by
  induction s generalizing a i with
  | nil => simp at h
  | cons b s ih =>
    cases i with
    | zero =>
      cases b with
      | true => simp [cellsAt, Memory.get]
      | false =>
        have : Memory.get (cellsAt (a + 1) s ++ []) (a + 0) = Memory.get [] (a + 0) :=
          Memory.get_append _ _ _ fun c hc => by have := cellsAt_range s (a + 1) c hc; omega
        simpa [cellsAt, Memory.get] using this
    | succ i =>
      have hi : i < s.length := by simpa using h
      have key := ih (a + 1) i hi
      have e : a + (i + 1) = a + 1 + i := by omega
      cases b with
      | false => simpa [cellsAt, e] using key
      | true =>
        have hne : a ≠ a + 1 + i := by omega
        simpa [cellsAt, Memory.get, e, hne] using key

/-- A read after a write: inside the range the bits written, outside it what stood there. -/
theorem Memory.get_put (m : Memory) (a x : Nat) (s : Bits) :
    (m.put a s).get x = if h : a ≤ x ∧ x < a + s.length then s[x - a]'(by omega) else m.get x := by
  unfold Memory.put
  have hlow : a ≤ x → Memory.get (m.filter (fun c => c.1 < a) ++ (cellsAt a s ++
      m.filter (fun c => a + s.length ≤ c.1))) x = Memory.get (cellsAt a s ++ m.filter (fun c => a + s.length ≤ c.1)) x :=
    fun hx => Memory.get_append _ _ _ fun c hc => by
      have := (List.mem_filter.1 hc).2
      simp only [decide_eq_true_eq] at this
      omega
  by_cases h1 : a ≤ x
  · rw [hlow h1]
    by_cases h2 : x < a + s.length
    · rw [dif_pos ⟨h1, h2⟩]
      have hg := Memory.get_cellsAt s a (x - a) (by omega)
      have e : a + (x - a) = x := by omega
      rw [e] at hg
      rw [← hg]
      clear hg hlow
      generalize cellsAt a s = l
      have hn : Memory.get (m.filter (fun c => a + s.length ≤ c.1)) x = false := by
        have := Memory.get_append (m.filter (fun c => a + s.length ≤ c.1)) [] x fun c hc => by
          have := (List.mem_filter.1 hc).2
          simp only [decide_eq_true_eq] at this
          omega
        simpa [Memory.get] using this
      induction l with
      | nil => simpa [Memory.get] using hn
      | cons c l ih =>
        by_cases hc : c.1 = x
        · simp [Memory.get, hc]
        · simpa [Memory.get, hc] using ih
    · rw [dif_neg (fun h => h2 h.2), Memory.get_append _ _ _ fun c hc => by
        have := cellsAt_range s a c hc; omega]
      exact Memory.get_filter m _ x fun c hc => by simp only [decide_eq_true_eq]; omega
  · rw [dif_neg (fun h => h1 h.1)]
    have hf := Memory.get_filter m (fun c => c.1 < a) x fun c hc => by simp only [decide_eq_true_eq]; omega
    rw [← hf]
    have hn : Memory.get (cellsAt a s ++ m.filter (fun c => a + s.length ≤ c.1)) x = false := by
      have := Memory.get_append (cellsAt a s ++ m.filter (fun c => a + s.length ≤ c.1)) [] x fun c hc => by
        rcases List.mem_append.1 hc with h | h
        · have := cellsAt_range s a c h; omega
        · have := (List.mem_filter.1 h).2
          simp only [decide_eq_true_eq] at this
          omega
      simpa [Memory.get] using this
    generalize m.filter (fun c => c.1 < a) = l
    induction l with
    | nil => simpa [Memory.get] using hn
    | cons c l ih =>
      by_cases hc : c.1 = x
      · simp [Memory.get, hc]
      · simpa [Memory.get, hc] using ih

/-! ### The canonical form -/

theorem Memory.wfFrom_mono {m : Memory} {lo lo' : Nat} (h : lo' ≤ lo) (hm : Memory.wfFrom lo m = true) :
    Memory.wfFrom lo' m = true := by
  cases m with
  | nil => rfl
  | cons c m =>
    simp only [Memory.wfFrom, Bool.and_eq_true, decide_eq_true_eq] at hm ⊢
    exact ⟨⟨by omega, hm.1.2⟩, hm.2⟩

theorem Memory.wfFrom_filter {m : Memory} (p : Host.Cell → Bool) {lo : Nat} (hm : Memory.wfFrom lo m = true) :
    Memory.wfFrom lo (m.filter p) = true := by
  induction m generalizing lo with
  | nil => rfl
  | cons c m ih =>
    simp only [Memory.wfFrom, Bool.and_eq_true, decide_eq_true_eq] at hm
    by_cases hp : p c
    · simp only [List.filter_cons, hp, if_true, Memory.wfFrom, Bool.and_eq_true, decide_eq_true_eq]
      exact ⟨hm.1, ih hm.2⟩
    · simp only [List.filter_cons, hp, Bool.false_eq_true, if_false]
      exact ih (Memory.wfFrom_mono (by omega) hm.2)

/-- A canonical list whose addresses are all at least `lo` is canonical from `lo` on. -/
theorem Memory.wfFrom_raise {m : Memory} {lo lo' : Nat} (hm : Memory.wfFrom lo m = true) (h : ∀ c ∈ m, lo' ≤ c.1) :
    Memory.wfFrom lo' m = true := by
  cases m with
  | nil => rfl
  | cons c m =>
    simp only [Memory.wfFrom, Bool.and_eq_true, decide_eq_true_eq] at hm ⊢
    exact ⟨⟨h c (by simp), hm.1.2⟩, hm.2⟩

theorem Memory.wfFrom_append {m n : Memory} {lo mid : Nat} (hm : Memory.wfFrom lo m = true)
    (hlt : ∀ c ∈ m, c.1 < mid) (hn : Memory.wfFrom mid n = true) (hlo : lo ≤ mid) :
    Memory.wfFrom lo (m ++ n) = true := by
  induction m generalizing lo with
  | nil => exact Memory.wfFrom_mono hlo hn
  | cons c m ih =>
    simp only [List.cons_append, Memory.wfFrom, Bool.and_eq_true, decide_eq_true_eq] at hm ⊢
    have := hlt c (by simp)
    exact ⟨hm.1, ih hm.2 (fun d hd => hlt d (by simp [hd])) (by omega)⟩

theorem wfFrom_cellsAt (s : Bits) (a : Nat) : Memory.wfFrom a (cellsAt a s) = true := by
  induction s generalizing a with
  | nil => rfl
  | cons b s ih =>
    cases b with
    | false => exact Memory.wfFrom_mono (Nat.le_succ a) (ih (a + 1))
    | true => simpa [cellsAt, Memory.wfFrom] using ih (a + 1)

/-- A write keeps the canonical form. -/
theorem Memory.wf_put {m : Memory} (hm : m.wf = true) (a : Nat) (s : Bits) : (m.put a s).wf = true := by
  unfold Memory.wf Memory.put at *
  refine Memory.wfFrom_append (mid := a) (Memory.wfFrom_filter _ hm) ?_ ?_ (Nat.zero_le a)
  · intro c hc
    simpa using (List.mem_filter.1 hc).2
  · refine Memory.wfFrom_append (mid := a + s.length) (wfFrom_cellsAt s a) (fun c hc => (cellsAt_range s a c hc).2) ?_
      (Nat.le_add_right a _)
    exact Memory.wfFrom_raise (Memory.wfFrom_filter _ hm) fun c hc => by simpa using (List.mem_filter.1 hc).2

/-- A write inside a buffer keeps every cell inside the map. -/
theorem Memory.inMap_put {m : Memory} (hm : m.inMap = true) (r : Region) (hr : r.isBuffer = true) (a : Nat) (s : Bits)
    (hlo : r.base ≤ a) (hhi : a + s.length ≤ r.base + r.size) : (m.put a s).inMap = true := by
  unfold Memory.inMap Memory.put at *
  rw [List.all_eq_true] at hm ⊢
  intro c hc
  rcases List.mem_append.1 hc with h | h
  · exact hm c (List.mem_filter.1 h).1
  rcases List.mem_append.1 h with h | h
  · have hin := cellsAt_range s a c h
    rw [List.any_eq_true]
    refine ⟨r, by cases r <;> simp [regions], ?_⟩
    simp only [hr, Bool.true_and, Region.holds, Bool.and_eq_true, decide_eq_true_eq]
    omega
  · exact hm c (List.mem_filter.1 h).1

end Sys2Proof.Machine
end

