-- ==== Sys2Proof/Laws/State.lean ====
section
/-! SUPPORT. What each named update of the state does to each field: one lemma per field per update, true by `rfl`. -/

namespace Sys2Proof.Machine

variable (s : State)

/-! ### `finish` -/

@[simp] theorem State.finish_ops (r0 r1 : Nat) (c : Cause) : (s.finish r0 r1 c).ops = s.ops := rfl
@[simp] theorem State.finish_res (r0 r1 : Nat) (c : Cause) : (s.finish r0 r1 c).res = ⟨BitVec.ofNat 32 r0, BitVec.ofNat 32 r1, c⟩ := rfl
@[simp] theorem State.finish_port (r0 r1 : Nat) (c : Cause) : (s.finish r0 r1 c).port = s.port := rfl
@[simp] theorem State.finish_range (r0 r1 : Nat) (c : Cause) : (s.finish r0 r1 c).range = s.range := rfl
@[simp] theorem State.finish_ctx (r0 r1 : Nat) (c : Cause) : (s.finish r0 r1 c).ctx = s.ctx := rfl
@[simp] theorem State.finish_phase (r0 r1 : Nat) (c : Cause) : (s.finish r0 r1 c).phase = s.phase := rfl
@[simp] theorem State.finish_faultFlag (r0 r1 : Nat) (c : Cause) : (s.finish r0 r1 c).faultFlag = s.faultFlag := rfl
@[simp] theorem State.finish_prog (r0 r1 : Nat) (c : Cause) : (s.finish r0 r1 c).prog = s.prog := rfl
@[simp] theorem State.finish_mem (r0 r1 : Nat) (c : Cause) : (s.finish r0 r1 c).mem = s.mem := rfl
@[simp] theorem State.finish_queue (r0 r1 : Nat) (c : Cause) : (s.finish r0 r1 c).queue = s.queue := rfl
@[simp] theorem State.finish_readData (r0 r1 : Nat) (c : Cause) : (s.finish r0 r1 c).readData = s.readData := rfl

/-! ### `raise` -/

@[simp] theorem State.raise_ops (c : Cause) : (s.raise c).ops = s.ops := rfl
@[simp] theorem State.raise_res (c : Cause) : (s.raise c).res = ⟨0, 0, c⟩ := rfl
@[simp] theorem State.raise_port (c : Cause) : (s.raise c).port = s.port := rfl
@[simp] theorem State.raise_range (c : Cause) : (s.raise c).range = s.range := rfl
@[simp] theorem State.raise_ctx (c : Cause) : (s.raise c).ctx = s.ctx := rfl
@[simp] theorem State.raise_phase (c : Cause) : (s.raise c).phase = s.phase := rfl
@[simp] theorem State.raise_faultFlag (c : Cause) : (s.raise c).faultFlag = s.faultFlag := rfl
@[simp] theorem State.raise_prog (c : Cause) : (s.raise c).prog = s.prog := rfl
@[simp] theorem State.raise_mem (c : Cause) : (s.raise c).mem = s.mem := rfl
@[simp] theorem State.raise_queue (c : Cause) : (s.raise c).queue = s.queue := rfl
@[simp] theorem State.raise_readData (c : Cause) : (s.raise c).readData = s.readData := rfl

/-! ### `setPhase` -/

@[simp] theorem State.setPhase_ops (p : Phase) : (s.setPhase p).ops = s.ops := rfl
@[simp] theorem State.setPhase_res (p : Phase) : (s.setPhase p).res = s.res := rfl
@[simp] theorem State.setPhase_port (p : Phase) : (s.setPhase p).port = s.port := rfl
@[simp] theorem State.setPhase_range (p : Phase) : (s.setPhase p).range = s.range := rfl
@[simp] theorem State.setPhase_ctx (p : Phase) : (s.setPhase p).ctx = s.ctx := rfl
@[simp] theorem State.setPhase_phase (p : Phase) : (s.setPhase p).phase = p := rfl
@[simp] theorem State.setPhase_faultFlag (p : Phase) : (s.setPhase p).faultFlag = s.faultFlag := rfl
@[simp] theorem State.setPhase_prog (p : Phase) : (s.setPhase p).prog = s.prog := rfl
@[simp] theorem State.setPhase_mem (p : Phase) : (s.setPhase p).mem = s.mem := rfl
@[simp] theorem State.setPhase_queue (p : Phase) : (s.setPhase p).queue = s.queue := rfl
@[simp] theorem State.setPhase_readData (p : Phase) : (s.setPhase p).readData = s.readData := rfl

/-! ### `enterFault` -/

@[simp] theorem State.enterFault_ops : (s.enterFault).ops = s.ops := rfl
@[simp] theorem State.enterFault_res : (s.enterFault).res = ⟨0, 0, .invariant⟩ := rfl
@[simp] theorem State.enterFault_port : (s.enterFault).port = s.port := rfl
@[simp] theorem State.enterFault_range : (s.enterFault).range = s.range := rfl
@[simp] theorem State.enterFault_ctx : (s.enterFault).ctx = s.ctx := rfl
@[simp] theorem State.enterFault_phase : (s.enterFault).phase = .fault := rfl
@[simp] theorem State.enterFault_faultFlag : (s.enterFault).faultFlag = true := rfl
@[simp] theorem State.enterFault_prog : (s.enterFault).prog = { s.prog with result := .zero, havePayload := false } := rfl
@[simp] theorem State.enterFault_mem : (s.enterFault).mem = s.mem := rfl
@[simp] theorem State.enterFault_queue : (s.enterFault).queue = s.queue := rfl
@[simp] theorem State.enterFault_readData : (s.enterFault).readData = s.readData := rfl

/-! ### `clearProgress` -/

@[simp] theorem State.clearProgress_ops : (s.clearProgress).ops = s.ops := rfl
@[simp] theorem State.clearProgress_res : (s.clearProgress).res = s.res := rfl
@[simp] theorem State.clearProgress_port : (s.clearProgress).port = s.port := rfl
@[simp] theorem State.clearProgress_range : (s.clearProgress).range = s.range := rfl
@[simp] theorem State.clearProgress_ctx : (s.clearProgress).ctx = s.ctx := rfl
@[simp] theorem State.clearProgress_phase : (s.clearProgress).phase = s.phase := rfl
@[simp] theorem State.clearProgress_faultFlag : (s.clearProgress).faultFlag = s.faultFlag := rfl
@[simp] theorem State.clearProgress_prog : (s.clearProgress).prog = Progress.cleared := rfl
@[simp] theorem State.clearProgress_mem : (s.clearProgress).mem = s.mem := rfl
@[simp] theorem State.clearProgress_queue : (s.clearProgress).queue = s.queue := rfl
@[simp] theorem State.clearProgress_readData : (s.clearProgress).readData = s.readData := rfl

/-! ### `restart` -/

@[simp] theorem State.restart_ops : (s.restart).ops = s.ops := rfl
@[simp] theorem State.restart_res : (s.restart).res = s.res := rfl
@[simp] theorem State.restart_port : (s.restart).port = s.port := rfl
@[simp] theorem State.restart_range : (s.restart).range = s.range := rfl
@[simp] theorem State.restart_ctx : (s.restart).ctx = s.ctx := rfl
@[simp] theorem State.restart_phase : (s.restart).phase = if s.phase = .idle then .idle else .created := rfl
@[simp] theorem State.restart_faultFlag : (s.restart).faultFlag = s.faultFlag := rfl
@[simp] theorem State.restart_prog : (s.restart).prog = Progress.cleared := rfl
@[simp] theorem State.restart_mem : (s.restart).mem = s.mem := rfl
@[simp] theorem State.restart_queue : (s.restart).queue = s.queue := rfl
@[simp] theorem State.restart_readData : (s.restart).readData = s.readData := rfl

/-! ### `dropPacket` -/

@[simp] theorem State.dropPacket_ops : (s.dropPacket).ops = s.ops := rfl
@[simp] theorem State.dropPacket_res : (s.dropPacket).res = s.res := rfl
@[simp] theorem State.dropPacket_port : (s.dropPacket).port = s.port := rfl
@[simp] theorem State.dropPacket_range : (s.dropPacket).range = ⟨0, 0⟩ := rfl
@[simp] theorem State.dropPacket_ctx : (s.dropPacket).ctx = s.ctx := rfl
@[simp] theorem State.dropPacket_phase : (s.dropPacket).phase = if s.phase = .fault then .fault else .idle := rfl
@[simp] theorem State.dropPacket_faultFlag : (s.dropPacket).faultFlag = s.faultFlag := rfl
@[simp] theorem State.dropPacket_prog : (s.dropPacket).prog = Progress.cleared := rfl
@[simp] theorem State.dropPacket_mem : (s.dropPacket).mem = s.mem := rfl
@[simp] theorem State.dropPacket_queue : (s.dropPacket).queue = s.queue := rfl
@[simp] theorem State.dropPacket_readData : (s.dropPacket).readData = s.readData := rfl

/-! ### `clearPayload` -/

@[simp] theorem State.clearPayload_ops : (s.clearPayload).ops = s.ops := rfl
@[simp] theorem State.clearPayload_res : (s.clearPayload).res = s.res := rfl
@[simp] theorem State.clearPayload_port : (s.clearPayload).port = s.port := rfl
@[simp] theorem State.clearPayload_range : (s.clearPayload).range = s.range := rfl
@[simp] theorem State.clearPayload_ctx : (s.clearPayload).ctx = s.ctx := rfl
@[simp] theorem State.clearPayload_phase : (s.clearPayload).phase = s.phase := rfl
@[simp] theorem State.clearPayload_faultFlag : (s.clearPayload).faultFlag = s.faultFlag := rfl
@[simp] theorem State.clearPayload_prog : (s.clearPayload).prog = { s.prog with
      payloadHeader := 0, payloadLength := 0, payloadInfo := 0, fhsClk := 0, fhsClkValid := false } := rfl
@[simp] theorem State.clearPayload_mem : (s.clearPayload).mem = s.mem := rfl
@[simp] theorem State.clearPayload_queue : (s.clearPayload).queue = s.queue := rfl
@[simp] theorem State.clearPayload_readData : (s.clearPayload).readData = s.readData := rfl

/-! ### `setPayloadLength` -/

@[simp] theorem State.setPayloadLength_ops (n : Nat) : (s.setPayloadLength n).ops = s.ops := rfl
@[simp] theorem State.setPayloadLength_res (n : Nat) : (s.setPayloadLength n).res = s.res := rfl
@[simp] theorem State.setPayloadLength_port (n : Nat) : (s.setPayloadLength n).port = s.port := rfl
@[simp] theorem State.setPayloadLength_range (n : Nat) : (s.setPayloadLength n).range = s.range := rfl
@[simp] theorem State.setPayloadLength_ctx (n : Nat) : (s.setPayloadLength n).ctx = s.ctx := rfl
@[simp] theorem State.setPayloadLength_phase (n : Nat) : (s.setPayloadLength n).phase = s.phase := rfl
@[simp] theorem State.setPayloadLength_faultFlag (n : Nat) : (s.setPayloadLength n).faultFlag = s.faultFlag := rfl
@[simp] theorem State.setPayloadLength_prog (n : Nat) : (s.setPayloadLength n).prog = { s.prog with payloadLength := BitVec.ofNat 9 n } := rfl
@[simp] theorem State.setPayloadLength_mem (n : Nat) : (s.setPayloadLength n).mem = s.mem := rfl
@[simp] theorem State.setPayloadLength_queue (n : Nat) : (s.setPayloadLength n).queue = s.queue := rfl
@[simp] theorem State.setPayloadLength_readData (n : Nat) : (s.setPayloadLength n).readData = s.readData := rfl

/-! ### `setPlHeader` -/

@[simp] theorem State.setPlHeader_ops (p : Bits) (hlen : Nat) : (s.setPlHeader p hlen).ops = s.ops := rfl
@[simp] theorem State.setPlHeader_res (p : Bits) (hlen : Nat) : (s.setPlHeader p hlen).res = s.res := rfl
@[simp] theorem State.setPlHeader_port (p : Bits) (hlen : Nat) : (s.setPlHeader p hlen).port = s.port := rfl
@[simp] theorem State.setPlHeader_range (p : Bits) (hlen : Nat) : (s.setPlHeader p hlen).range = s.range := rfl
@[simp] theorem State.setPlHeader_ctx (p : Bits) (hlen : Nat) : (s.setPlHeader p hlen).ctx = s.ctx := rfl
@[simp] theorem State.setPlHeader_phase (p : Bits) (hlen : Nat) : (s.setPlHeader p hlen).phase = s.phase := rfl
@[simp] theorem State.setPlHeader_faultFlag (p : Bits) (hlen : Nat) : (s.setPlHeader p hlen).faultFlag = s.faultFlag := rfl
@[simp] theorem State.setPlHeader_prog (p : Bits) (hlen : Nat) : (s.setPlHeader p hlen).prog = { s.prog with
      payloadHeader := BitVec.ofNat 16 (airToHost p (8 * hlen)), payloadInfo := payloadInfoOf p hlen } := rfl
@[simp] theorem State.setPlHeader_mem (p : Bits) (hlen : Nat) : (s.setPlHeader p hlen).mem = s.mem := rfl
@[simp] theorem State.setPlHeader_queue (p : Bits) (hlen : Nat) : (s.setPlHeader p hlen).queue = s.queue := rfl
@[simp] theorem State.setPlHeader_readData (p : Bits) (hlen : Nat) : (s.setPlHeader p hlen).readData = s.readData := rfl

/-! ### `setFhsClock` -/

@[simp] theorem State.setFhsClock_ops (c : Nat) : (s.setFhsClock c).ops = s.ops := rfl
@[simp] theorem State.setFhsClock_res (c : Nat) : (s.setFhsClock c).res = s.res := rfl
@[simp] theorem State.setFhsClock_port (c : Nat) : (s.setFhsClock c).port = s.port := rfl
@[simp] theorem State.setFhsClock_range (c : Nat) : (s.setFhsClock c).range = s.range := rfl
@[simp] theorem State.setFhsClock_ctx (c : Nat) : (s.setFhsClock c).ctx = s.ctx := rfl
@[simp] theorem State.setFhsClock_phase (c : Nat) : (s.setFhsClock c).phase = s.phase := rfl
@[simp] theorem State.setFhsClock_faultFlag (c : Nat) : (s.setFhsClock c).faultFlag = s.faultFlag := rfl
@[simp] theorem State.setFhsClock_prog (c : Nat) : (s.setFhsClock c).prog = { s.prog with fhsClk := BitVec.ofNat 6 c, fhsClkValid := true } := rfl
@[simp] theorem State.setFhsClock_mem (c : Nat) : (s.setFhsClock c).mem = s.mem := rfl
@[simp] theorem State.setFhsClock_queue (c : Nat) : (s.setFhsClock c).queue = s.queue := rfl
@[simp] theorem State.setFhsClock_readData (c : Nat) : (s.setFhsClock c).readData = s.readData := rfl

/-! ### `setHeader` -/

@[simp] theorem State.setHeader_ops (h : Bits) : (s.setHeader h).ops = s.ops := rfl
@[simp] theorem State.setHeader_res (h : Bits) : (s.setHeader h).res = s.res := rfl
@[simp] theorem State.setHeader_port (h : Bits) : (s.setHeader h).port = s.port := rfl
@[simp] theorem State.setHeader_range (h : Bits) : (s.setHeader h).range = s.range := rfl
@[simp] theorem State.setHeader_ctx (h : Bits) : (s.setHeader h).ctx = s.ctx := rfl
@[simp] theorem State.setHeader_phase (h : Bits) : (s.setHeader h).phase = s.phase := rfl
@[simp] theorem State.setHeader_faultFlag (h : Bits) : (s.setHeader h).faultFlag = s.faultFlag := rfl
@[simp] theorem State.setHeader_prog (h : Bits) : (s.setHeader h).prog = { s.prog with
      packetHeader := headerValue h, packetType := BitVec.ofNat 4 (airToHost (slice h 3 4) 4), haveHeader := true } := rfl
@[simp] theorem State.setHeader_mem (h : Bits) : (s.setHeader h).mem = s.mem := rfl
@[simp] theorem State.setHeader_queue (h : Bits) : (s.setHeader h).queue = s.queue := rfl
@[simp] theorem State.setHeader_readData (h : Bits) : (s.setHeader h).readData = s.readData := rfl

/-! ### `writeBuf` -/

@[simp] theorem State.writeBuf_ops (r : Region) (off : Nat) (bits : Bits) : (s.writeBuf r off bits).ops = s.ops := rfl
@[simp] theorem State.writeBuf_res (r : Region) (off : Nat) (bits : Bits) : (s.writeBuf r off bits).res = s.res := rfl
@[simp] theorem State.writeBuf_port (r : Region) (off : Nat) (bits : Bits) : (s.writeBuf r off bits).port = s.port := rfl
@[simp] theorem State.writeBuf_range (r : Region) (off : Nat) (bits : Bits) : (s.writeBuf r off bits).range = s.range := rfl
@[simp] theorem State.writeBuf_ctx (r : Region) (off : Nat) (bits : Bits) : (s.writeBuf r off bits).ctx = s.ctx := rfl
@[simp] theorem State.writeBuf_phase (r : Region) (off : Nat) (bits : Bits) : (s.writeBuf r off bits).phase = s.phase := rfl
@[simp] theorem State.writeBuf_faultFlag (r : Region) (off : Nat) (bits : Bits) : (s.writeBuf r off bits).faultFlag = s.faultFlag := rfl
@[simp] theorem State.writeBuf_prog (r : Region) (off : Nat) (bits : Bits) : (s.writeBuf r off bits).prog = s.prog := rfl
@[simp] theorem State.writeBuf_mem (r : Region) (off : Nat) (bits : Bits) : (s.writeBuf r off bits).mem = s.mem.put (r.base + off) (bits.take (r.size - off)) := rfl
@[simp] theorem State.writeBuf_queue (r : Region) (off : Nat) (bits : Bits) : (s.writeBuf r off bits).queue = s.queue := rfl
@[simp] theorem State.writeBuf_readData (r : Region) (off : Nat) (bits : Bits) : (s.writeBuf r off bits).readData = s.readData := rfl

/-! ### `endDecodeNoHeader` -/

@[simp] theorem State.endDecodeNoHeader_ops : (s.endDecodeNoHeader).ops = s.ops := rfl
@[simp] theorem State.endDecodeNoHeader_res : (s.endDecodeNoHeader).res = { s.res with r0 := 0 } := rfl
@[simp] theorem State.endDecodeNoHeader_port : (s.endDecodeNoHeader).port = s.port := rfl
@[simp] theorem State.endDecodeNoHeader_range : (s.endDecodeNoHeader).range = s.range := rfl
@[simp] theorem State.endDecodeNoHeader_ctx : (s.endDecodeNoHeader).ctx = s.ctx := rfl
@[simp] theorem State.endDecodeNoHeader_phase : (s.endDecodeNoHeader).phase = s.phase := rfl
@[simp] theorem State.endDecodeNoHeader_faultFlag : (s.endDecodeNoHeader).faultFlag = s.faultFlag := rfl
@[simp] theorem State.endDecodeNoHeader_prog : (s.endDecodeNoHeader).prog = { s.prog with result := .zero } := rfl
@[simp] theorem State.endDecodeNoHeader_mem : (s.endDecodeNoHeader).mem = s.mem := rfl
@[simp] theorem State.endDecodeNoHeader_queue : (s.endDecodeNoHeader).queue = s.queue := rfl
@[simp] theorem State.endDecodeNoHeader_readData : (s.endDecodeNoHeader).readData = s.readData := rfl

/-! ### `popMove` -/

@[simp] theorem State.popMove_ops : (s.popMove).ops = s.ops := rfl
@[simp] theorem State.popMove_res : (s.popMove).res = s.res := rfl
@[simp] theorem State.popMove_port : (s.popMove).port = s.port := rfl
@[simp] theorem State.popMove_range : (s.popMove).range = s.range := rfl
@[simp] theorem State.popMove_ctx : (s.popMove).ctx = s.ctx := rfl
@[simp] theorem State.popMove_phase : (s.popMove).phase = s.phase := rfl
@[simp] theorem State.popMove_faultFlag : (s.popMove).faultFlag = s.faultFlag := rfl
@[simp] theorem State.popMove_prog : (s.popMove).prog = s.prog := rfl
@[simp] theorem State.popMove_mem : (s.popMove).mem = s.mem := rfl
@[simp] theorem State.popMove_queue : (s.popMove).queue = s.queue.tail := rfl
@[simp] theorem State.popMove_readData : (s.popMove).readData = s.readData := rfl

end Sys2Proof.Machine
end

