-- ==== Sys2Proof/Laws/Ops.lean ====
section
/-! SUPPORT. What each shared operation can do, said once: a command, a buffer write seen through each kind of read, the
range check, the end of the payload stage, and the header stage. -/

namespace Sys2Proof.Machine

/-! ### The configuration's numbers -/

@[simp] theorem hw_maxSymbols : hw.maxSymbols = 3125 := rfl
@[simp] theorem hw_payBits : hw.payBits = 2744 := rfl
@[simp] theorem hw_recBytes : hw.recBytes = 352 := rfl
@[simp] theorem hw_payloadPos : hw.payloadPos = 126 := rfl
@[simp] theorem hw_hdrPos : hw.hdrPos = 72 := rfl
@[simp] theorem hw_hdrSymbols : hw.hdrSymbols = 54 := rfl
@[simp] theorem hw_acLen : hw.acLen = 72 := rfl
@[simp] theorem hw_acCmpLen : hw.acCmpLen = 68 := rfl
@[simp] theorem hw_acMaxErr : hw.acMaxErr = 7 := rfl
@[simp] theorem hw_repGate (n : Nat) : hw.repGate n = n / 4 := rfl
@[simp] theorem hw_whitenPeriod : hw.whitenPeriod = 127 := rfl
@[simp] theorem row_eq (t : PacketType) : row t = packetTable t := rfl

/-! ### Commands -/

/-- A command in `Fault` changes nothing. -/
theorem command_fault {s : State} (body : State → State) (h : s.phase = .fault) : command s body = .next s := by
  simp [command, h]

/-- A command outside `Fault` ends in the state of its body. -/
theorem command_run {s : State} (body : State → State) (h : s.phase ≠ .fault) : command s body = .next (body s) := by
  simp [command, h]

/-- What a command can do: it always answers a next state, the one of its body or the old one in `Fault`. -/
theorem command_next {s t : State} {body : State → State} (h : command s body = .next t) :
    (s.phase = .fault ∧ t = s) ∨ (s.phase ≠ .fault ∧ t = body s) := by
  unfold command at h
  split at h
  · cases h; exact .inl ⟨‹_›, rfl⟩
  · cases h; exact .inr ⟨‹_›, rfl⟩

/-- What a context setter can do. -/
theorem setter_next {s t : State} {f : Context → Context} (h : setter s f = .next t) :
    (s.phase = .fault ∧ t = s) ∨
      (s.phase ≠ .fault ∧ t = ({ s with ctx := f s.ctx } : State).restart.finish 0 0 .ok) := command_next h

/-! ### Reads after a buffer write -/

@[simp] theorem readBuf_length (s : State) (r : Region) (off n : Nat) : (s.readBuf r off n).length = n := by
  simp [State.readBuf]

@[simp] theorem symbols_length (s : State) (a n : Nat) : (s.symbols a n).length = n := by simp [State.symbols]

@[simp] theorem bitsAt_length (s : State) (a n : Nat) : (s.bitsAt a n).length = n := by simp [State.bitsAt]

theorem readBuf_getElem (s : State) (r : Region) (off n i : Nat) (h : i < (s.readBuf r off n).length) :
    (s.readBuf r off n)[i] = s.mem.get (r.base + off + i) := by simp [State.readBuf]

theorem bitsAt_getElem (s : State) (a n i : Nat) (h : i < (s.bitsAt a n).length) :
    (s.bitsAt a n)[i] = s.bitRead (a + i) := by simp [State.bitsAt]

/-- A bit that a buffer write covers reads as the bit written. -/
theorem get_writeBuf_inside (s : State) (r : Region) (off : Nat) (bits : Bits) (i : Nat) (hi : i < bits.length)
    (hr : off + i < r.size) : (s.writeBuf r off bits).mem.get (r.base + off + i) = bits[i] := by
  rw [State.writeBuf_mem, Memory.get_put]
  rw [dif_pos (by simp; omega)]
  simp

/-- A bit that a buffer write does not cover reads as before. -/
theorem get_writeBuf_outside (s : State) (r : Region) (off : Nat) (bits : Bits) (a : Nat)
    (h : a < r.base + off ∨ r.base + off + bits.length ≤ a) : (s.writeBuf r off bits).mem.get a = s.mem.get a := by
  rw [State.writeBuf_mem, Memory.get_put]
  rw [dif_neg (by simp; omega)]

/-- A buffer write keeps the canonical form. -/
theorem writeBuf_wf {s : State} (h : s.mem.wf = true) (r : Region) (off : Nat) (bits : Bits) :
    (s.writeBuf r off bits).mem.wf = true := by
  rw [State.writeBuf_mem]; exact Memory.wf_put h _ _

/-- A buffer write keeps every cell in the map. -/
theorem writeBuf_inMap {s : State} (h : s.mem.inMap = true) (r : Region) (hr : r.isBuffer = true) (off : Nat)
    (bits : Bits) : (s.writeBuf r off bits).mem.inMap = true := by
  rw [State.writeBuf_mem]
  by_cases ho : off ≤ r.size
  · exact Memory.inMap_put h r hr _ _ (by omega) (by simp; omega)
  · have e : bits.take (r.size - off) = [] := by
      have : r.size - off = 0 := by omega
      simp [this]
    rw [e]
    unfold Memory.inMap Memory.put at *
    rw [List.all_eq_true] at h ⊢
    intro c hc
    simp only [cellsAt, List.nil_append, List.mem_append, List.mem_filter] at hc
    rcases hc with hc | hc <;> exact h c hc.1

/-- Registers and memory bits decide `BitRead`: it sees `PACKET_HEADER`, `PAYLOAD_HEADER` and the cells, nothing else. -/
theorem bitRead_congr {s t : State} {a : Nat} (hm : t.mem.get a = s.mem.get a)
    (hp : t.prog.packetHeader = s.prog.packetHeader) (hq : t.prog.payloadHeader = s.prog.payloadHeader) :
    t.bitRead a = s.bitRead a := by
  unfold State.bitRead
  split <;> simp [hm, hp, hq]

/-- In a buffer `BitRead` is the read of the cell. -/
theorem bitRead_buffer (s : State) {a : Nat} {r : Region} (h : regionOf a = some r) (hr : r.isBuffer = true) :
    s.bitRead a = s.mem.get a := by
  unfold State.bitRead
  rw [h]
  cases r <;> simp [Region.isBuffer] at hr ⊢

/-- A write to the work buffer does not change how a bit elsewhere reads. -/
theorem bitRead_writeBuf_outside (s : State) (r : Region) (off : Nat) (bits : Bits) (a : Nat)
    (h : a < r.base + off ∨ r.base + off + bits.length ≤ a) : (s.writeBuf r off bits).bitRead a = s.bitRead a :=
  bitRead_congr (get_writeBuf_outside s r off bits a h) rfl rfl

/-! ### The end of the payload stage -/

/-- What the end of the payload stage can leave: `Fault`, a failed attempt back in `HeaderDecoded`, or a decoded payload
(rules R170, R247). -/
theorem endPayload_cases (s : State) (o : PayloadOutcome) :
    (o = .noHandler ∧ s.endPayload o = s.enterFault) ∨
    (o ≠ .noHandler ∧ o.result = .zero ∧
      s.endPayload o = { s.clearPayload with
        phase := .headerDecoded
        prog := { s.clearPayload.prog with result := .zero, havePayload := false }
        res := ⟨0, 0, o.cause⟩ }) ∨
    (o.result ≠ .zero ∧
      s.endPayload o = { s with
        phase := .payloadDecoded
        prog := { s.prog with result := o.result, havePayload := true }
        res := ⟨BitVec.ofNat 32 o.result.code, s.prog.payloadLength.setWidth 32, o.cause⟩ }) := by
  cases o <;> simp [State.endPayload, PayloadOutcome.result]

/-- The end of the payload stage writes registers only. -/
theorem endPayload_mem (s : State) (o : PayloadOutcome) : (s.endPayload o).mem = s.mem := by
  rcases endPayload_cases s o with ⟨-, h⟩ | ⟨-, -, h⟩ | ⟨-, h⟩ <;> rw [h] <;> rfl

/-! ### The header stage -/

/-- What the header stage can leave (rule R150): the packet back in `Created` with the progress untouched, or the header
accepted. -/
theorem headerStage_cases (s : State) :
    (∃ r, s.headerStage = { s with phase := .created, res := r }) ∨
    (∃ h, (s.setPhase .headerPending).headerBits s.clock6 = .bits h ∧ headerUap h = s.ctx.uap ∧
      s.headerStage = ((((s.setPhase .headerPending).setHeader h).setPhase .headerDecoded).finish 1
        (headerUap h).toNat .ok)) := by
  simp only [State.headerStage]
  split
  · exact .inl ⟨_, rfl⟩
  · exact .inl ⟨_, rfl⟩
  · split
    · exact .inl ⟨_, rfl⟩
    · rename_i h hb hu
      exact .inr ⟨h, hb, by simpa using hu, rfl⟩

end Sys2Proof.Machine
end

