-- ==== Sys2Proof/Laws/Handlers.lean ====
section
/-! SUPPORT. Everything a payload handler can do, said once: which fields and buffers it writes, the bounds on what it
reports, and that it answers `crcMatched` only of a payload in `PAY` whose CRC matches. -/

namespace Sys2Proof.Machine

/-- What `s` and `t` share where only the payload registers and the buffers `PAY` and `VOICE` were written. -/
structure PayloadFrame (s t : State) : Prop where
  registers : t = { s with
    mem := t.mem
    prog := { s.prog with
      payloadHeader := t.prog.payloadHeader
      payloadLength := t.prog.payloadLength
      payloadInfo := t.prog.payloadInfo
      fhsClk := t.prog.fhsClk
      fhsClkValid := t.prog.fhsClkValid } }
  wf : s.mem.wf = true → t.mem.wf = true
  inMap : s.mem.inMap = true → t.mem.inMap = true
  cells : ∀ a, (a < 0x2000 ∨ 0x2AB8 ≤ a) → (a < 0x3200 ∨ 0x3250 ≤ a) → t.mem.get a = s.mem.get a

/-- The bounds on the payload registers (rules R24 to R27). -/
structure PayloadBounds (s : State) : Prop where
  length : s.payloadBytes ≤ 343
  reserved : s.prog.payloadInfo.getLsbD 3 = false
  width : (s.prog.payloadInfo.extractLsb' 4 2).toNat ≤ 2
  header : s.prog.payloadHeader.toNat < 2 ^ (8 * (s.prog.payloadInfo.extractLsb' 4 2).toNat)
  clock : s.prog.fhsClkValid = false → s.prog.fhsClk = 0

/-- All that a handler can do from a state with bounded payload registers. -/
structure HandlerRun (s : State) (r : State × PayloadOutcome) : Prop where
  frame : PayloadFrame s r.1
  bounds : PayloadBounds r.1
  known : r.2 ≠ .noHandler
  matched : r.2 = .crcMatched →
    2 ≤ r.1.payloadBytes ∧ crcOk (r.1.readBuf .pay 0 (8 * r.1.payloadBytes)) r.1.payloadBytes r.1.ctx.uap = true

theorem PayloadFrame.refl (s : State) : PayloadFrame s s := ⟨rfl, id, id, fun _ _ _ => rfl⟩

theorem PayloadFrame.trans {s t u : State} (h : PayloadFrame s t) (k : PayloadFrame t u) : PayloadFrame s u where
  registers := by rw [k.registers, h.registers]
  wf hw := k.wf (h.wf hw)
  inMap hw := k.inMap (h.inMap hw)
  cells a h1 h2 := (k.cells a h1 h2).trans (h.cells a h1 h2)

theorem PayloadFrame.ctx {s t : State} (h : PayloadFrame s t) : t.ctx = s.ctx := by rw [h.registers]

theorem PayloadFrame.setPayloadLength (s : State) (n : Nat) : PayloadFrame s (s.setPayloadLength n) :=
  ⟨rfl, id, id, fun _ _ _ => rfl⟩

theorem PayloadFrame.setPlHeader (s : State) (p : Bits) (hlen : Nat) : PayloadFrame s (s.setPlHeader p hlen) :=
  ⟨rfl, id, id, fun _ _ _ => rfl⟩

theorem PayloadFrame.setFhsClock (s : State) (c : Nat) : PayloadFrame s (s.setFhsClock c) :=
  ⟨rfl, id, id, fun _ _ _ => rfl⟩

theorem PayloadFrame.writePay (s : State) (bits : Bits) : PayloadFrame s (s.writeBuf .pay 0 bits) where
  registers := rfl
  wf h := writeBuf_wf h _ _ _
  inMap h := writeBuf_inMap h _ rfl _ _
  cells a h1 _ := by
    rw [State.writeBuf_mem, Memory.get_put, dif_neg]
    simp only [Region.base, Region.size, hw_payBits, List.length_take]
    omega

theorem PayloadFrame.writeVoice (s : State) (bits : Bits) : PayloadFrame s (s.writeBuf .voice 0 bits) where
  registers := rfl
  wf h := writeBuf_wf h _ _ _
  inMap h := writeBuf_inMap h _ rfl _ _
  cells a _ h2 := by
    rw [State.writeBuf_mem, Memory.get_put, dif_neg]
    simp only [Region.base, Region.size, List.length_take]
    omega

theorem PayloadBounds.writeBuf {s : State} (h : PayloadBounds s) (r : Region) (o : Nat) (bits : Bits) :
    PayloadBounds (s.writeBuf r o bits) := ⟨h.1, h.2, h.3, h.4, h.5⟩

theorem PayloadBounds.setPayloadLength {s : State} (h : PayloadBounds s) {n : Nat} (hn : n ≤ 343) :
    PayloadBounds (s.setPayloadLength n) where
  length := by
    simp only [State.payloadBytes, State.setPayloadLength, BitVec.toNat_ofNat]
    omega
  reserved := h.2
  width := h.3
  header := h.4
  clock := h.5

theorem PayloadBounds.setFhsClock {s : State} (h : PayloadBounds s) (c : Nat) : PayloadBounds (s.setFhsClock c) where
  length := h.1
  reserved := h.2
  width := h.3
  header := h.4
  clock := by simp [State.setFhsClock]

theorem PayloadBounds.setPlHeader {s : State} (h : PayloadBounds s) (p : Bits) {hlen : Nat} (hl : hlen ≤ 2) :
    PayloadBounds (s.setPlHeader p hlen) := by
  have e : (payloadInfoOf p hlen).extractLsb' 4 2 = BitVec.ofNat 2 hlen := by
    unfold payloadInfoOf
    generalize BitVec.ofNat 2 hlen = x
    generalize BitVec.ofNat 3 (airToHost p 3) = y
    revert x y
    decide
  have e2 : (BitVec.ofNat 2 hlen).toNat = hlen := by
    simp only [BitVec.toNat_ofNat]; omega
  refine ⟨h.1, ?_, ?_, ?_, h.5⟩
  · show (payloadInfoOf p hlen).getLsbD 3 = false
    unfold payloadInfoOf
    generalize BitVec.ofNat 2 hlen = x
    generalize BitVec.ofNat 3 (airToHost p 3) = y
    revert x y
    decide
  · show ((payloadInfoOf p hlen).extractLsb' 4 2).toNat ≤ 2
    rw [e, e2]; exact hl
  · show (BitVec.ofNat 16 (airToHost p (8 * hlen))).toNat < 2 ^ (8 * ((payloadInfoOf p hlen).extractLsb' 4 2).toNat)
    rw [e, e2]
    have := airToHost_lt p (8 * hlen)
    rw [BitVec.toNat_ofNat]
    exact Nat.lt_of_le_of_lt (Nat.mod_le _ _) this

/-- `PAY` right after `bits` were written to its start reads as the part of them asked for. -/
theorem readPay_written (s : State) (bits : Bits) {n : Nat} (hn : n ≤ bits.length) (hp : bits.length ≤ 2744) :
    (s.writeBuf .pay 0 bits).readBuf .pay 0 n = bits.take n := by
  apply List.ext_getElem
  · simp [hn]
  · intro i h1 h2
    have hi : i < n := by simpa using h1
    rw [readBuf_getElem]
    have := get_writeBuf_inside s .pay 0 bits i (by omega) (by simp [Region.size]; omega)
    rw [this]
    simp

/-- The CRC verdict over a payload does not see bits beyond it. -/
theorem crcOk_take (bits : Bits) (len : Nat) (uap : Byte) (h2 : 2 ≤ len) :
    crcOk (bits.take (8 * len)) len uap = crcOk bits len uap := by
  have h1 : 8 * (len - 2) + 16 = 8 * len := by omega
  have e1 : crcGen (bits.take (8 * len)) (8 * (len - 2)) uap = crcGen bits (8 * (len - 2)) uap := by
    simp only [crcGen, List.take_take]
    rw [Nat.min_eq_left (by omega)]
  have e2 : slice (bits.take (8 * len)) (8 * (len - 2)) 16 = slice bits (8 * (len - 2)) 16 := by
    simp only [slice, List.drop_take, List.take_take]
    rw [Nat.min_eq_left (by omega)]
  unfold crcOk
  rw [e1, e2]

theorem crcOutcome_ne (bits : Bits) (len : Nat) (uap : Byte) : crcOutcome bits len uap ≠ .noHandler := by
  unfold crcOutcome; split <;> simp

theorem crcOutcome_matched {bits : Bits} {len : Nat} {uap : Byte} (h : crcOutcome bits len uap = .crcMatched) :
    crcOk bits len uap = true := by
  unfold crcOutcome at h; split at h <;> simp_all

/-- A handler that ends by writing `bits` to `PAY` and reporting `len` bytes of them. -/
theorem HandlerRun.wrote {s t : State} (hf : PayloadFrame s t) (hb : PayloadBounds t) {bits : Bits} {len : Nat}
    {o : PayloadOutcome} (ho : o ≠ .noHandler) (hl : len ≤ 343) (hp : bits.length ≤ 2744)
    (hm : o = .crcMatched → 2 ≤ len ∧ 8 * len ≤ bits.length ∧ crcOk bits len t.ctx.uap = true) :
    HandlerRun s ((t.writeBuf .pay 0 bits).setPayloadLength len, o) where
  frame := hf.trans ((PayloadFrame.writePay _ _).trans (PayloadFrame.setPayloadLength _ _))
  bounds := (hb.writeBuf _ _ _).setPayloadLength hl
  known := ho
  matched h := by
    obtain ⟨h2, h3, h4⟩ := hm h
    have e : ((t.writeBuf .pay 0 bits).setPayloadLength len).payloadBytes = len := by
      simp only [State.payloadBytes, State.setPayloadLength, BitVec.toNat_ofNat]; omega
    have er : ((t.writeBuf .pay 0 bits).setPayloadLength len).readBuf .pay 0 (8 * len) = bits.take (8 * len) :=
      readPay_written t bits h3 hp
    rw [e]
    refine ⟨h2, ?_⟩
    rw [er, crcOk_take _ _ _ h2]
    exact h4

/-- A handler that ends without a CRC verdict and without touching `PAY`. -/
theorem HandlerRun.stopped {s t : State} (hf : PayloadFrame s t) (hb : PayloadBounds t) {o : PayloadOutcome}
    (ho : o ≠ .noHandler) (hm : o ≠ .crcMatched) : HandlerRun s (t, o) := ⟨hf, hb, ho, fun h => absurd h hm⟩

/-- A longer frame in front of a handler. -/
theorem HandlerRun.after {s t : State} {r : State × PayloadOutcome} (hf : PayloadFrame s t) (h : HandlerRun t r) :
    HandlerRun s r := ⟨hf.trans h.frame, h.bounds, h.known, h.matched⟩

theorem unfec23_length {s d : Bits} {n m : Nat} (hs : s.length = 15 * ceilDiv n 10) (h : unfec23 s n = some (d, m)) :
    n ≤ d.length := by
  have := (unfec23Blocks_length (by omega) h).1
  unfold ceilDiv at this
  omega

theorem plNone_run {s : State} (hb : PayloadBounds s) : HandlerRun s (plNone s) :=
  .stopped (.setPayloadLength _ _) (hb.setPayloadLength (by omega)) (by simp) (by simp)

/-- What a field's FEC can answer: the bits asked for at least, or a failure of result 0. -/
theorem undoFec_cases {f : Fec} {s : Bits} {n : Nat} (hs : s.length = fecSymbols f n) :
    (∃ o, undoFec f s n = .error o ∧ o.result = .zero ∧ o ≠ .noHandler) ∨ (∃ t, undoFec f s n = .ok t ∧ n ≤ t.length) := by
  have block : ∀ h : s.length = 15 * ceilDiv n 10,
      (∃ o, ((unfec23 s n).map Prod.fst).elim (.error .fecUncorrectable) .ok = (.error o : Except PayloadOutcome Bits) ∧
        o.result = .zero ∧ o ≠ .noHandler) ∨
      (∃ t, ((unfec23 s n).map Prod.fst).elim (.error .fecUncorrectable) .ok = (.ok t : Except PayloadOutcome Bits) ∧
        n ≤ t.length) := by
    intro h
    cases hu : unfec23 s n with
    | none => exact .inl ⟨_, rfl, rfl, by simp⟩
    | some r => exact .inr ⟨r.1, rfl, unfec23_length (m := r.2) h hu⟩
  cases f with
  | none => exact .inr ⟨s, rfl, Nat.le_of_eq hs.symm⟩
  | repetition =>
    simp only [undoFec]
    split
    · exact .inr ⟨_, rfl, by simp [unfec13, triplets]⟩
    · exact .inl ⟨_, rfl, rfl, by simp⟩
  | block => exact block hs
  | voiceThenBlock => exact block hs

/-- A failure of result 0 is neither a missing handler nor a match. -/
theorem ne_matched_of_result_zero {o : PayloadOutcome} (h : o.result = .zero) : o ≠ .crcMatched := by
  rintro rfl; simp [PayloadOutcome.result] at h

theorem plHeaded_run {s : State} (hb : PayloadBounds s) (base skip : Nat) {r : PacketRow} (hl : r.hdr ≤ 2)
    (hm : r.maxBytes ≤ 343) : HandlerRun s (plHeaded base skip r s) := by
  unfold plHeaded
  extract_lets size hb8
  by_cases h1 : size < fecSymbols r.fec hb8
  · rw [if_pos h1]; exact .stopped (.refl s) hb (by simp) (by simp)
  rw [if_neg h1]
  rcases undoFec_cases (f := r.fec) (n := hb8) (symbols_length s base _) with ⟨o, ho, hz, hn⟩ | ⟨t, ht, -⟩
  · rw [ho]; exact .stopped (.refl s) hb hn (ne_matched_of_result_zero hz)
  rw [ht]
  dsimp only
  have hb' := hb.setPlHeader (s.dewhitened t hb8 skip) hl
  have hf' := PayloadFrame.setPlHeader s (s.dewhitened t hb8 skip) r.hdr
  generalize s.setPlHeader (s.dewhitened t hb8 skip) r.hdr = u at hb' hf' ⊢
  generalize hbody : bodyLength (s.dewhitened t hb8 skip) r.hdr = body
  generalize htot : r.hdr + body + (if r.crc = true then 2 else 0) = tot
  split
  · exact .stopped (hf'.trans (.setPayloadLength _ _)) (hb'.setPayloadLength (by omega)) (by simp) (by simp)
  rename_i h2
  split
  · exact .stopped hf' hb' (by simp) (by simp)
  rcases undoFec_cases (f := r.fec) (n := 8 * tot)
    (symbols_length u base _) with ⟨o, ho, hz, hn⟩ | ⟨d, hd, hlen⟩
  · rw [ho]; exact .stopped hf' hb' hn (ne_matched_of_result_zero hz)
  rw [hd]
  dsimp only
  refine .wrote hf' hb' ?_ (by omega) ?_ ?_
  · split
    · exact crcOutcome_ne _ _ _
    · simp
  · rw [dewhitened_length]; omega
  · split
    · rename_i hc
      intro h
      rw [if_pos hc] at htot
      exact ⟨by omega, by rw [dewhitened_length]; omega, crcOutcome_matched h⟩
    · simp

theorem plDm_run {s : State} (hb : PayloadBounds s) (base skip : Nat) {r : PacketRow} (hl : r.hdr ≤ 2)
    (hm : r.maxBytes ≤ 343) : HandlerRun s (plDm base skip r s) := plHeaded_run hb base skip hl hm

theorem plDh_run {s : State} (hb : PayloadBounds s) {r : PacketRow} (hl : r.hdr ≤ 2) (hm : r.maxBytes ≤ 343) :
    HandlerRun s (plDh r s) := plHeaded_run hb _ _ hl hm

theorem plFhs_run {s : State} (hb : PayloadBounds s) {r : PacketRow} (h2 : 2 ≤ r.fixedBytes) (hm : r.fixedBytes ≤ 343) :
    HandlerRun s (plFhs r s) := by
  unfold plFhs
  extract_lets n m
  split
  · exact .stopped (.refl s) hb (by simp) (by simp)
  rcases undoFec_cases (f := r.fec) (n := n) (symbols_length s hw.payloadPos m) with ⟨o, ho, hz, hn⟩ | ⟨t, ht, hlen⟩
  · rw [ho]; exact .stopped (.refl s) hb hn (ne_matched_of_result_zero hz)
  rw [ht]
  dsimp only
  have hread : ∀ c, (dewhiten t c n payloadSkip s.ctx.whitened).length = 8 * r.fixedBytes := fun c => by
    rw [dewhiten_length]; omega
  split
  · rename_i c hc
    have hk := List.find?_some hc
    have h := HandlerRun.wrote (.refl s) hb (bits := dewhiten t c n payloadSkip s.ctx.whitened) (len := r.fixedBytes)
      (o := .crcMatched) (by simp) hm (by rw [hread]; omega) fun _ => ⟨h2, Nat.le_of_eq (hread c).symm, hk⟩
    exact ⟨h.frame.trans (.setFhsClock _ _), h.bounds.setFhsClock _, by simp, h.matched⟩
  · exact .wrote (.refl s) hb (by simp) hm (by rw [hread]; omega) (by simp)

theorem plHv_run {s : State} (hb : PayloadBounds s) {r : PacketRow} (hm : r.fixedBytes ≤ 343) :
    HandlerRun s (plHv r s) := by
  unfold plHv
  extract_lets n m
  split
  · exact .stopped (.refl s) hb (by simp) (by simp)
  rcases undoFec_cases (f := r.fec) (n := n) (symbols_length s hw.payloadPos m) with ⟨o, ho, hz, hn⟩ | ⟨t, ht, hlen⟩
  · rw [ho]; exact .stopped (.refl s) hb hn (ne_matched_of_result_zero hz)
  · rw [ht]
    exact .wrote (.refl s) hb (by simp) hm (by rw [dewhitened_length]; omega) (by simp)

theorem plEvUncoded_run {s : State} (hb : PayloadBounds s) {maxtot : Nat} (hm : maxtot ≤ 343) :
    HandlerRun s (plEvUncoded maxtot s) := by
  unfold plEvUncoded
  dsimp only
  split
  · exact .stopped (.refl s) hb (by simp) (by simp)
  split
  · rename_i len hd
    obtain ⟨h1, h2, h3⟩ := discover_some hd
    have h4 := Nat.min_le_left maxtot (s.symbolsFrom hw.payloadPos / 8)
    refine .wrote (.refl s) hb (by simp) (by omega) ?_ fun _ => ⟨by omega, ?_, ?_⟩
    · simp only [List.length_take, dewhitened_length, symbols_length, Nat.min_self]; omega
    · simp only [List.length_take, dewhitened_length, symbols_length, Nat.min_self]; omega
    · rw [crcOk_take _ _ _ (by omega)]; exact h1
  · exact .wrote (.refl s) hb (by simp) (by omega) (by simp <;> omega) (by simp)

/-- What the EV4 loop can answer. -/
theorem ev4Loop_run (maxtot clock : Nat) (w : Bool) (uap : Byte) (k b lc : Nat) (syms done : Bits) (hk : k + b ≤ 98)
    (hs : 15 * k ≤ syms.length) (hd : done.length = 10 * b) (hlc : 2 ≤ lc) :
    let r := ev4Loop maxtot clock w uap k b lc syms done
    r.2.2 ≠ .noHandler ∧ r.2.1 ≤ 343 ∧ r.1.length ≤ 2744 ∧
      (r.2.2 = .crcMatched → 2 ≤ r.2.1 ∧ 8 * r.2.1 ≤ r.1.length ∧ crcOk r.1 r.2.1 uap = true) := by
  induction k generalizing b lc syms done with
  | zero => simp [ev4Loop]; omega
  | succ k ih =>
    simp only [ev4Loop]
    split
    · split <;> simp <;> omega
    · rename_i u m hu
      have hu' : u.length = 10 := by
        have := (unfec23Blocks_length (k := 1) (by simp <;> omega) hu).1
        simpa using this
      have hd' : (done ++ dewhiten u clock 10 (payloadSkip + 10 * b) w).length = 10 * (b + 1) := by
        simp [hu', hd]; omega
      split
      · rename_i len hf
        obtain ⟨h1, h2, h3⟩ := discover_some hf
        dsimp only
        refine ⟨by simp, by omega, by omega, fun _ => ⟨by omega, by omega, h1⟩⟩
      · exact ih (b + 1) _ _ _ (by omega) (by simp <;> omega) hd' (by omega)

theorem plEv4_run {s : State} (hb : PayloadBounds s) {maxtot : Nat} (hm : maxtot ≤ 122) :
    HandlerRun s (plEv4 maxtot s) := by
  unfold plEv4
  extract_lets nblk
  have hn : nblk ≤ 98 := by
    have : ceilDiv (8 * maxtot) 10 ≤ 98 := by unfold ceilDiv; omega
    exact Nat.le_trans (Nat.min_le_left _ _) this
  split
  · exact .stopped (.refl s) hb (by simp) (by simp)
  · have h := ev4Loop_run maxtot s.clock6 s.ctx.whitened s.ctx.uap nblk 0 2
      (s.symbols hw.payloadPos (15 * nblk)) [] (by omega) (by simp) rfl (by omega)
    exact .wrote (.refl s) hb h.1 h.2.1 h.2.2.1 h.2.2.2

theorem plType7_run {s : State} (hb : PayloadBounds s) {r : PacketRow} (hm : r.maxBytes ≤ 343)
    (hf : r.fixedBytes ≤ 343) : HandlerRun s (plType7 r s) := by
  have h := plEvUncoded_run hb hm
  unfold plType7
  split
  · rename_i t heq
    rw [heq] at h
    exact h
  · rename_i t o _ heq
    rw [heq] at h
    exact (plHv_run (h.bounds.setPayloadLength (by omega)) hf).after (h.frame.trans (.setPayloadLength _ _))

theorem plDv_run {s : State} (hb : PayloadBounds s) {r : PacketRow} (hl : r.hdr ≤ 2) (hm : r.maxBytes ≤ 343) :
    HandlerRun s (plDv r s) := by
  unfold plDv
  split
  · exact .stopped (.refl s) hb (by simp) (by simp)
  · exact (plDm_run (hb.writeBuf _ _ _) _ _ hl hm).after (.writeVoice _ _)

/-- What a row must satisfy for its handler to keep within `PAY` (rule R72). -/
structure RowSound (r : PacketRow) : Prop where
  hdr : r.hdr ≤ 2
  maxBytes : r.maxBytes ≤ 343
  fixedBytes : r.fixedBytes ≤ 343
  fhs : r.handler = .plFhs → 2 ≤ r.fixedBytes
  ev4 : r.handler = .plEv4 → r.maxBytes ≤ 122

/-- The handler of any sound row does one of the things `HandlerRun` allows. -/
theorem runHandler_run {r : PacketRow} (hr : RowSound r) {s : State} (hb : PayloadBounds s) :
    HandlerRun s (runHandler r s) := by
  unfold runHandler
  cases h : r.handler with
  | plNone => exact plNone_run hb
  | plFhs => exact plFhs_run hb (hr.fhs h) hr.fixedBytes
  | plDm => exact plDm_run hb _ _ hr.hdr hr.maxBytes
  | plDh => exact plDh_run hb hr.hdr hr.maxBytes
  | plHv => exact plHv_run hb hr.fixedBytes
  | plType7 => exact plType7_run hb hr.maxBytes hr.fixedBytes
  | plDv => exact plDv_run hb hr.hdr hr.maxBytes
  | plAux1 => exact plDh_run hb hr.hdr hr.maxBytes
  | plEv4 => exact plEv4_run hb (hr.ev4 h)
  | plEvUncoded => exact plEvUncoded_run hb hr.maxBytes

theorem row_sound (p : PacketType) : RowSound (row p) := by
  cases p <;> constructor <;> decide

/-- Dispatch runs the handler that the type's row names (rules R72, R171). -/
theorem handlerOf_eq (p : PacketType) : handlerOf p = runHandler (row p) := by cases p <;> rfl

/-- Every packet type's handler, under this hardware's configuration, does one of the things `HandlerRun` allows. -/
theorem handlerOf_run (p : PacketType) {s : State} (hb : PayloadBounds s) : HandlerRun s (handlerOf p s) := by
  rw [handlerOf_eq]; exact runHandler_run (row_sound p) hb

/-- The payload registers are bounded when a handler starts (rule R170). -/
theorem PayloadBounds.start (s : State) : PayloadBounds (s.setPhase .payloadPending).clearPayload := by
  constructor <;> simp [State.clearPayload, State.setPhase, State.payloadBytes]

end Sys2Proof.Machine
end

