-- ==== Sys2Proof/Laws/PerInstr.lean ====
section
/-! SUPPORT. The per-instruction family: the encoding of every instruction is a well-formed word, one lemma for each
constructor. -/

namespace Sys2Proof.Laws

/-- The word of an instruction is well formed (rules R60, R61 and R73). -/
def EncodingWellFormed.Statement (i : Instr) : Prop := (encode i).wf = true

theorem EncodingWellFormed.nop : EncodingWellFormed.Statement .nop := by unfold EncodingWellFormed.Statement; decide
theorem EncodingWellFormed.restart : EncodingWellFormed.Statement .restart := by unfold EncodingWellFormed.Statement; decide
theorem EncodingWellFormed.clrCtx : EncodingWellFormed.Statement .clrCtx := by unfold EncodingWellFormed.Statement; decide
theorem EncodingWellFormed.air2host : EncodingWellFormed.Statement .air2host := by unfold EncodingWellFormed.Statement; decide
theorem EncodingWellFormed.host2air : EncodingWellFormed.Statement .host2air := by unfold EncodingWellFormed.Statement; decide
theorem EncodingWellFormed.rev8 : EncodingWellFormed.Statement .rev8 := by unfold EncodingWellFormed.Statement; decide
theorem EncodingWellFormed.dewhiten : EncodingWellFormed.Statement .dewhiten := by unfold EncodingWellFormed.Statement; decide
theorem EncodingWellFormed.unfec13 : EncodingWellFormed.Statement .unfec13 := by unfold EncodingWellFormed.Statement; decide
theorem EncodingWellFormed.unfec23 : EncodingWellFormed.Statement .unfec23 := by unfold EncodingWellFormed.Statement; decide
theorem EncodingWellFormed.acgen : EncodingWellFormed.Statement .acgen := by unfold EncodingWellFormed.Statement; decide
theorem EncodingWellFormed.sniff : EncodingWellFormed.Statement .sniff := by unfold EncodingWellFormed.Statement; decide
theorem EncodingWellFormed.verify : EncodingWellFormed.Statement .verify := by unfold EncodingWellFormed.Statement; decide
theorem EncodingWellFormed.hec2uap : EncodingWellFormed.Statement .hec2uap := by unfold EncodingWellFormed.Statement; decide
theorem EncodingWellFormed.probeUap : EncodingWellFormed.Statement .probeUap := by unfold EncodingWellFormed.Statement; decide
theorem EncodingWellFormed.decodeHeader : EncodingWellFormed.Statement .decodeHeader := by unfold EncodingWellFormed.Statement; decide
theorem EncodingWellFormed.crcgen : EncodingWellFormed.Statement .crcgen := by unfold EncodingWellFormed.Statement; decide
theorem EncodingWellFormed.crcchk : EncodingWellFormed.Statement .crcchk := by unfold EncodingWellFormed.Statement; decide
theorem EncodingWellFormed.decodePayload : EncodingWellFormed.Statement .decodePayload := by unfold EncodingWellFormed.Statement; decide
theorem EncodingWellFormed.create : EncodingWellFormed.Statement .create := by unfold EncodingWellFormed.Statement; decide
theorem EncodingWellFormed.setLap : EncodingWellFormed.Statement .setLap := by unfold EncodingWellFormed.Statement; decide
theorem EncodingWellFormed.setUap : EncodingWellFormed.Statement .setUap := by unfold EncodingWellFormed.Statement; decide
theorem EncodingWellFormed.setNap : EncodingWellFormed.Statement .setNap := by unfold EncodingWellFormed.Statement; decide
theorem EncodingWellFormed.setClock : EncodingWellFormed.Statement .setClock := by unfold EncodingWellFormed.Statement; decide
theorem EncodingWellFormed.setChannel : EncodingWellFormed.Statement .setChannel := by unfold EncodingWellFormed.Statement; decide
theorem EncodingWellFormed.setWhitened : EncodingWellFormed.Statement .setWhitened := by unfold EncodingWellFormed.Statement; decide
theorem EncodingWellFormed.decode : EncodingWellFormed.Statement .decode := by unfold EncodingWellFormed.Statement; decide
theorem EncodingWellFormed.emit : EncodingWellFormed.Statement .emit := by unfold EncodingWellFormed.Statement; decide
theorem EncodingWellFormed.pktNull (h : HeaderFields) : EncodingWellFormed.Statement (.pktNull h) := rfl
theorem EncodingWellFormed.pktPoll (h : HeaderFields) : EncodingWellFormed.Statement (.pktPoll h) := rfl
theorem EncodingWellFormed.pktFhs (h : HeaderFields) : EncodingWellFormed.Statement (.pktFhs h) := rfl
theorem EncodingWellFormed.pktDm1 (h : HeaderFields) : EncodingWellFormed.Statement (.pktDm1 h) := rfl
theorem EncodingWellFormed.pktDh1 (h : HeaderFields) : EncodingWellFormed.Statement (.pktDh1 h) := rfl
theorem EncodingWellFormed.pktHv1 (h : HeaderFields) : EncodingWellFormed.Statement (.pktHv1 h) := rfl
theorem EncodingWellFormed.pktHv2 (h : HeaderFields) : EncodingWellFormed.Statement (.pktHv2 h) := rfl
theorem EncodingWellFormed.pktHv3Ev3 (h : HeaderFields) : EncodingWellFormed.Statement (.pktHv3Ev3 h) := rfl
theorem EncodingWellFormed.pktDv (h : HeaderFields) : EncodingWellFormed.Statement (.pktDv h) := rfl
theorem EncodingWellFormed.pktAux1 (h : HeaderFields) : EncodingWellFormed.Statement (.pktAux1 h) := rfl
theorem EncodingWellFormed.pktDm3 (h : HeaderFields) : EncodingWellFormed.Statement (.pktDm3 h) := rfl
theorem EncodingWellFormed.pktDh3 (h : HeaderFields) : EncodingWellFormed.Statement (.pktDh3 h) := rfl
theorem EncodingWellFormed.pktEv4 (h : HeaderFields) : EncodingWellFormed.Statement (.pktEv4 h) := rfl
theorem EncodingWellFormed.pktEv5 (h : HeaderFields) : EncodingWellFormed.Statement (.pktEv5 h) := rfl
theorem EncodingWellFormed.pktDm5 (h : HeaderFields) : EncodingWellFormed.Statement (.pktDm5 h) := rfl
theorem EncodingWellFormed.pktDh5 (h : HeaderFields) : EncodingWellFormed.Statement (.pktDh5 h) := rfl

end Sys2Proof.Laws
end

