-- ==== Sys2Proof/Laws/Step.lean ====
section
/-! SUPPORT. What a step can do, said once: run the decoded instruction, raise `IllegalCommand`, or make the host's move. -/

namespace Sys2Proof.Machine

/-- A command word is due exactly where the host's next move writes it to `CMD` and the state takes commands. -/
theorem nextWord_command_iff (s : State) (w : Word) :
    s.nextWord = some (.command w) ↔
      s.phase ≠ .payloadPending ∧ s.phase ≠ .fault ∧ ∃ q, s.queue = .write 0 w :: q := by
  obtain ⟨_, _, _, _, _, phase, _, _, _, queue, _⟩ := s
  cases queue with
  | nil => cases phase <;> simp [State.nextWord]
  | cons m q =>
    cases m with
    | reset => cases phase <;> simp [State.nextWord]
    | read r => cases phase <;> simp [State.nextWord]
    | write r v =>
      by_cases hr : r = 0 <;> cases phase <;> simp [State.nextWord, hr]

/-- A packet header is due exactly in `PayloadPending` with no reset due (rule R270). -/
theorem nextWord_header_iff (s : State) (h : BitVec 18) :
    s.nextWord = some (.header h) ↔
      s.phase = .payloadPending ∧ h = s.dispatchWord ∧ s.queue.head? ≠ some .reset := by
  unfold State.nextWord
  cases hq : s.queue with
  | nil => cases s.phase <;> simp <;> exact eq_comm
  | cons m q =>
    cases m with
    | reset => cases s.phase <;> simp
    | read r => cases s.phase <;> simp <;> exact eq_comm
    | write r v => by_cases hr : r = 0 <;> cases s.phase <;> simp [hr] <;> exact eq_comm

/-- Everything a step can answer. -/
theorem step_cases {s t : State} (h : step s = .next t) :
    (∃ w i, s.nextWord = some w ∧ decode w = .ok i ∧ exec i s.fetched = .next t) ∨
    (∃ w e, s.nextWord = some w ∧ decode w = .error e ∧ t = s.fetched.raise .illegalCommand) ∨
    (s.nextWord = none ∧ t = s.hostStep) := by
  unfold step at h
  split at h
  · exact .inr (.inr ⟨‹_›, by simpa using h.symm⟩)
  · split at h
    · exact .inl ⟨_, _, ‹_›, ‹_›, h⟩
    · exact .inr (.inl ⟨_, _, ‹_›, ‹_›, by simpa using h.symm⟩)

/-- A packet header always decodes (rule R73), so only a command word can be illegal. -/
theorem decode_header_ok (h : BitVec 18) : decode (.header h) = .ok (decodeHeaderWord h) := rfl

end Sys2Proof.Machine
end

