-- ==== Sys2Proof/Tests/Slice0.lean ====
section
/-! SUPPORT. The model's own tests. Expected values are those of the tables and examples of the specification, mostly of
95_test_vectors.md; a bit string of the specification is written as a number whose bit `i` is the string's `i`-th symbol.
The theorems named `test_wit_…` show, for each statement with hypotheses, a state and operands that meet them. -/

namespace Sys2Proof.Tests

open Sys2Proof Sys2Proof.Machine

set_option Elab.async false

/-! ## Helpers -/

/-- Whether an outcome is a next state of which `p` holds. -/
def nextIs (o : Host.Outcome State Fault Refusal) (p : State → Bool) : Bool :=
  match o with
  | .next t => p t
  | _ => false

/-- The reset state with operands. -/
def withOps (a0 a1 a2 a3 : Word) : State := { State.reset with ops := ⟨a0, a1, a2, a3⟩ }

/-- `n` bits of the number `v` placed in the memory of `s` from bit address `a`. -/
def place (s : State) (a v n : Nat) : State := { s with mem := s.mem.put a (hostToAir v n) }

/-- The `n` bits of `s` from bit address `a`, as a number. -/
def value (s : State) (a n : Nat) : Nat := airValue ((List.range n).map fun i => s.mem.get (a + i))

/-- The packet of the vectors (UAP 0x47, clock 0x2A, whitened) with `n` payload symbols, the core due to dispatch on it. -/
def packet (v n : Nat) : State :=
  place { State.reset with
    phase := .payloadPending
    port := ⟨0, BitVec.ofNat 12 (126 + n)⟩
    range := ⟨0, BitVec.ofNat 12 (126 + n)⟩
    ctx := { Context.cleared with uap := 0x47, haveUap := true, clock := 0x2A } } 126 v n

/-- The header fields of the packets of the vectors. -/
def fields : HeaderFields := ⟨1, true, false, true, 0⟩

/-- The result, cause, `PAYLOAD_LENGTH` and payload bytes that an outcome left. -/
def decodedTo (o : Host.Outcome State Fault Refusal) (r : Confidence) (c : Cause) (len v : Nat) : Bool :=
  nextIs o fun t => t.prog.result == r && t.res.cause == c && t.payloadBytes == len && value t 0x2000 (8 * len) == v

/-- A window of 3125 zero symbols, not whitened, UAP 0, in a given state of the packet context. -/
def zeros (p : Phase) : State :=
  { State.reset with
    phase := p
    port := ⟨0, 3125⟩
    range := ⟨0, 3125⟩
    ctx := { Context.cleared with haveUap := true, whitened := false } }

/-- The same with `n` bits of `v` at packet symbol 126, a UAP and a `LENGTH`. -/
def symbols (v n : Nat) (uap : Byte) (len : Nat) : State :=
  let s := place (zeros .payloadPending) 126 v n
  { s with range := ⟨0, BitVec.ofNat 12 len⟩, ctx := { s.ctx with uap := uap } }

/-! ## Well-formedness and decoding -/

/-- Rule R62: a nonzero reserved bit, and an operation code outside the table, make a command word ill formed. -/
theorem test_wf_reserved_bit : (InstrWord.command 0x00000100).wf = false := by decide
theorem test_wf_top_reserved_bit : (InstrWord.command 0x80000000).wf = false := by decide
theorem test_wf_unlisted_op : (InstrWord.command 0x00000099).wf = false := by decide
theorem test_wf_command : (InstrWord.command 0x00000078).wf = true := by decide
theorem test_decode_reserved_bit : decode (.command 0x00000100) = .error .reservedBits := rfl
theorem test_decode_unlisted_op : decode (.command 0x00000099) = .error .unlistedOp := rfl

/-! Every row of rule R61, its operation code written out. -/

theorem test_decode_nop : decode (.command 0b00000000000000000000000000000000) = .ok .nop := rfl
theorem test_decode_restart : decode (.command 0b00000000000000000000000000000001) = .ok .restart := rfl
theorem test_decode_clrCtx : decode (.command 0b00000000000000000000000000000010) = .ok .clrCtx := rfl
theorem test_decode_air2host : decode (.command 0b00000000000000000000000000010000) = .ok .air2host := rfl
theorem test_decode_host2air : decode (.command 0b00000000000000000000000000010001) = .ok .host2air := rfl
theorem test_decode_rev8 : decode (.command 0b00000000000000000000000000010010) = .ok .rev8 := rfl
theorem test_decode_dewhiten : decode (.command 0b00000000000000000000000000010011) = .ok .dewhiten := rfl
theorem test_decode_unfec13 : decode (.command 0b00000000000000000000000000100000) = .ok .unfec13 := rfl
theorem test_decode_unfec23 : decode (.command 0b00000000000000000000000000100001) = .ok .unfec23 := rfl
theorem test_decode_acgen : decode (.command 0b00000000000000000000000000110000) = .ok .acgen := rfl
theorem test_decode_sniff : decode (.command 0b00000000000000000000000000110001) = .ok .sniff := rfl
theorem test_decode_verify : decode (.command 0b00000000000000000000000000110010) = .ok .verify := rfl
theorem test_decode_hec2uap : decode (.command 0b00000000000000000000000001000000) = .ok .hec2uap := rfl
theorem test_decode_probeUap : decode (.command 0b00000000000000000000000001000001) = .ok .probeUap := rfl
theorem test_decode_decodeHeader : decode (.command 0b00000000000000000000000001000010) = .ok .decodeHeader := rfl
theorem test_decode_crcgen : decode (.command 0b00000000000000000000000001010000) = .ok .crcgen := rfl
theorem test_decode_crcchk : decode (.command 0b00000000000000000000000001010001) = .ok .crcchk := rfl
theorem test_decode_decodePayload : decode (.command 0b00000000000000000000000001100000) = .ok .decodePayload := rfl
theorem test_decode_create : decode (.command 0b00000000000000000000000001110000) = .ok .create := rfl
theorem test_decode_setLap : decode (.command 0b00000000000000000000000001110001) = .ok .setLap := rfl
theorem test_decode_setUap : decode (.command 0b00000000000000000000000001110010) = .ok .setUap := rfl
theorem test_decode_setNap : decode (.command 0b00000000000000000000000001110011) = .ok .setNap := rfl
theorem test_decode_setClock : decode (.command 0b00000000000000000000000001110100) = .ok .setClock := rfl
theorem test_decode_setChannel : decode (.command 0b00000000000000000000000001110101) = .ok .setChannel := rfl
theorem test_decode_setWhitened : decode (.command 0b00000000000000000000000001110110) = .ok .setWhitened := rfl
theorem test_decode_decode : decode (.command 0b00000000000000000000000001110111) = .ok .decode := rfl
theorem test_decode_emit : decode (.command 0b00000000000000000000000001111000) = .ok .emit := rfl

/-! Every row of rule R72: the 18 header bits of part 3.1 of the vectors, bit 17 first. -/

theorem test_decode_pktNull : decode (.header 0b110001001010000001) = .ok (.pktNull ⟨1, true, false, true, 0xC4⟩) := rfl
theorem test_decode_pktPoll : decode (.header 0b000100101010001001) = .ok (.pktPoll ⟨1, true, false, true, 0x12⟩) := rfl
theorem test_decode_pktFhs : decode (.header 0b101000111010010001) = .ok (.pktFhs ⟨1, true, false, true, 0xA3⟩) := rfl
theorem test_decode_pktDm1 : decode (.header 0b011101011010011001) = .ok (.pktDm1 ⟨1, true, false, true, 0x75⟩) := rfl
theorem test_decode_pktDh1 : decode (.header 0b000010101010100001) = .ok (.pktDh1 ⟨1, true, false, true, 0x0A⟩) := rfl
theorem test_decode_pktHv1 : decode (.header 0b110111001010101001) = .ok (.pktHv1 ⟨1, true, false, true, 0xDC⟩) := rfl
theorem test_decode_pktHv2 : decode (.header 0b011011011010110001) = .ok (.pktHv2 ⟨1, true, false, true, 0x6D⟩) := rfl
theorem test_decode_pktHv3Ev3 : decode (.header 0b101110111010111001) = .ok (.pktHv3Ev3 ⟨1, true, false, true, 0xBB⟩) := rfl
theorem test_decode_pktDv : decode (.header 0b100100111011000001) = .ok (.pktDv ⟨1, true, false, true, 0x93⟩) := rfl
theorem test_decode_pktAux1 : decode (.header 0b010001011011001001) = .ok (.pktAux1 ⟨1, true, false, true, 0x45⟩) := rfl
theorem test_decode_pktDm3 : decode (.header 0b111101001011010001) = .ok (.pktDm3 ⟨1, true, false, true, 0xF4⟩) := rfl
theorem test_decode_pktDh3 : decode (.header 0b001000101011011001) = .ok (.pktDh3 ⟨1, true, false, true, 0x22⟩) := rfl
theorem test_decode_pktEv4 : decode (.header 0b010111011011100001) = .ok (.pktEv4 ⟨1, true, false, true, 0x5D⟩) := rfl
theorem test_decode_pktEv5 : decode (.header 0b100010111011101001) = .ok (.pktEv5 ⟨1, true, false, true, 0x8B⟩) := rfl
theorem test_decode_pktDm5 : decode (.header 0b001110101011110001) = .ok (.pktDm5 ⟨1, true, false, true, 0x3A⟩) := rfl
theorem test_decode_pktDh5 : decode (.header 0b111011001011111001) = .ok (.pktDh5 ⟨1, true, false, true, 0xEC⟩) := rfl

/-- The words of the opcode table: 18-bit rows are headers, 32-bit rows command words. -/
theorem test_table_word_header : decodeTableWord 24 0x1D699 = some (.pktDm1 ⟨1, true, false, true, 0x75⟩) := by decide
theorem test_table_word_command : decodeTableWord 32 0x21 = some .unfec23 := by decide
theorem test_fetch_command : (State.reset.withFetchWord 32 0x78).nextWord = some (.command 0x78) := by decide +kernel
theorem test_fetch_header : (State.reset.withFetchWord 24 0x1D699).nextWord = some (.header 0x1D699) := by
  decide +kernel

/-! ## Tables -/

/-- One step of the register of rule R92, `r[0]` first. -/
def lfsrStep : Bits → Bits
  | [r0, r1, r2, r3, r4, r5, r6] => [r6, r0, r1, r2, r3 ^^ r6, r4, r5]
  | r => r

/-- The register after `n` steps from `r`. -/
def lfsr : Nat → Bits → Bits
  | 0, r => r
  | n + 1, r => lfsr n (lfsrStep r)

/-- Rule R92: the sequence is the output of its shift register. -/
theorem test_whiten_seq :
    (List.range 127).all (fun j => hw.whitenSeq.getLsbD j == (lfsr j (List.replicate 7 true)).getD 6 false) = true := by
  decide +kernel

/-- Rule R93: `WHITEN_IDX[c]` steps lead from all ones to the state of clock `c`. -/
theorem test_whiten_idx :
    (List.range 64).all (fun c =>
      lfsr (hw.whitenIdx.getD c 0) (List.replicate 7 true) == hostToAir (c + 64) 7) = true := by
  decide +kernel

/-- Rule R131: the first row of each distance table. -/
theorem test_preamble_dist :
    (List.range 16).map (fun v => preambleDist (BitVec.ofNat 5 v)) = [2, 2, 1, 2, 2, 1, 2, 2, 1, 2, 0, 1, 2, 2, 1, 2] := by
  decide +kernel
theorem test_trailer_dist :
    (List.range 16).map (fun v => trailerDist (BitVec.ofNat 7 (v + 32))) =
      [2, 3, 1, 2, 3, 3, 2, 3, 1, 2, 0, 1, 2, 3, 1, 2] := by
  decide +kernel

/-- Rule R148: values of the forward generator. -/
theorem test_hec_gen : hecGen 0x299 0x47 = 0x75 ∧ hecGen 0x281 0x47 = 0xC4 ∧ hecGen 0x3FF 0xFF = 0x72 := by
  decide +kernel

/-! ## The stand-alone commands -/

/-- Rule R96's example. -/
theorem test_air2host : nextIs (exec .air2host (place (withOps 0x1000 8 0 0) 0x1000 0x53 8)) fun t =>
    t.res == ⟨0x53, 0, .ok⟩ := by decide +kernel

/-- Part 2.1: after reset no symbol is readable. -/
theorem test_air2host_bad_operand : nextIs (exec .air2host (withOps 0 1 0 0)) fun t =>
    t.res == ⟨0, 0, .badOperand⟩ := by decide +kernel

/-- Part 2.1: offset 3093 takes 32 bits, 3094 does not. -/
theorem test_host2air_last : nextIs (exec .host2air (withOps 0x80000001 32 3093 0)) fun t =>
    t.res == ⟨32, 0, .ok⟩ && t.bitRead 0x1C34 && t.bitRead 0x1C15 && !t.bitRead 0x1C33 := by decide +kernel
theorem test_host2air_past_end : nextIs (exec .host2air (withOps 0x80000001 32 3094 0)) fun t =>
    t.res == ⟨0, 0, .badOperand⟩ && t.mem == [] := by decide +kernel

/-- Rule R98's example. -/
theorem test_rev8 : nextIs (exec .rev8 (withOps 0xFF47 0 0 0)) fun t => t.res == ⟨0xE2, 0, .ok⟩ := by decide +kernel

/-- Rule R99's example: 18 zeros under clock 0 give `100100110100111101`. -/
theorem test_dewhiten : nextIs (exec .dewhiten (withOps 0x1000 0x40 18 0)) fun t =>
    t.res == ⟨18, 99, .ok⟩ && value t 0x1000 18 == 0b101111001011001001 := by decide +kernel

/-- Part 2.2: clock 0, skip 200, length 8. -/
theorem test_dewhiten_skip : nextIs (exec .dewhiten (withOps 0x1000 0 8 200)) fun t =>
    t.res == ⟨8, 45, .ok⟩ && value t 0x1000 8 == 0b00111001 := by decide +kernel

/-- Rule R112's examples: one disagreeing triplet of eight passes, two do not. -/
theorem test_unfec13 : nextIs (exec .unfec13 (place (withOps 0x1000 8 0 0) 0x1000 0x1c0fd7 24)) fun t =>
    t.res == ⟨1, 1, .ok⟩ && value t 0x1000 8 == 0b01001101 := by decide +kernel
theorem test_unfec13_gate : nextIs (exec .unfec13 (place (withOps 0x1000 8 0 0) 0x1000 0x1c0dd7 24)) fun t =>
    t.res == ⟨2, 0, .repetitionGate⟩ && value t 0x1000 8 == 0b01001101 := by decide +kernel

/-- Part 1, T4: two blocks with one symbol inverted in each. -/
theorem test_unfec23 : nextIs (exec .unfec23 (place (withOps 0x1000 16 0 0) 0x1000 0x3413e65b 30)) fun t =>
    t.res == ⟨20, 2, .ok⟩ && value t 0x1000 20 == 0b00000001111001010011 := by decide +kernel
/-- Rule R116: symbols 0 and 1 inverted; `WB` keeps its contents. -/
theorem test_unfec23_uncorrectable : nextIs (exec .unfec23 (place (withOps 0x1000 10 0 0) 0x1000 0x6a4e 15)) fun t =>
    t.res == ⟨0, 0, .fecUncorrectable⟩ && value t 0x1000 15 == 0x6a4e := by decide +kernel

/-- Part 0: the access code of LAP 0x9E8B33; rule R128's `R0` and `R1`. -/
theorem test_acgen : nextIs (exec .acgen (withOps 0xFF9E8B33 0 0 0)) fun t =>
    t.res == ⟨0x331A3AE2, 0x4E7A2CCE, .ok⟩ && value t 0x1000 72 == 0x54e7a2cce331a3ae2a := by decide +kernel
/-- Part 1, T1: the access code of LAP 0xFFFFFF. -/
theorem test_acgen_ones : nextIs (exec .acgen (withOps 0xFFFFFF 0 0 0)) fun t =>
    value t 0x1000 72 == 0x54ffffffe44ad1ae75 := by decide +kernel

/-- Part 1, T1: symbols 0 to 5 inverted are accepted with 6 errors, 0 to 6 rejected with 7. -/
theorem test_verify : nextIs (exec .verify (place (withOps 0x1000 0x9E8B33 0 0) 0x1000 (0x54e7a2cce331a3ae2a ^^^ 0x3F) 72)) fun t =>
    t.res == ⟨1, 6, .ok⟩ := by decide +kernel
theorem test_verify_rejects : nextIs (exec .verify (place (withOps 0x1000 0x9E8B33 0 0) 0x1000 (0x54e7a2cce331a3ae2a ^^^ 0x7F) 72))
    fun t => t.res == ⟨0, 7, .notFound⟩ := by decide +kernel

/-- A window of ten zeros, the access code of 0x9E8B33 xored with a mask, and twenty zeros (part 1, T5). -/
def window (mask : Nat) : State := place { State.reset with port := ⟨0, 102⟩ } 10 (0x54e7a2cce331a3ae2a ^^^ mask) 72

/-- Part 1, T5: found with symbols 0, 10, 20 and 70 inverted, not found with symbol 1 inverted as well. -/
theorem test_sniff : nextIs (exec .sniff (window 0x400000000000100401)) fun t => t.res == ⟨10, 0x9E8B33, .ok⟩ := by
  decide +kernel
theorem test_sniff_not_found : nextIs (exec .sniff (window 0x400000000000100403)) fun t =>
    t.res == ⟨0xFFFFFFFF, 0, .notFound⟩ := by decide +kernel

/-- Rule R147's example. -/
theorem test_hec2uap : nextIs (exec .hec2uap (withOps 0x299 0x75 0 0)) fun t => t.res == ⟨0x47, 0, .ok⟩ := by
  decide +kernel

/-- Rule R162's example, and part 2.3: a count that is no multiple of 8. -/
theorem test_crcgen : nextIs (exec .crcgen (place (withOps 0x1000 32 0x47 0) 0x1000 0x2169481E 32)) fun t =>
    t.res == ⟨0x9388, 0, .ok⟩ := by decide +kernel
theorem test_crcgen_12_bits : nextIs (exec .crcgen (place (withOps 0x1000 12 0x47 0) 0x1000 0x81E 12)) fun t =>
    t.res == ⟨0x5D14, 0, .ok⟩ := by decide +kernel

/-- Rule R163's examples. -/
theorem test_crcchk : nextIs (exec .crcchk (place (withOps 0x1000 6 0x47 0) 0x1000 0x93882169481E 48)) fun t =>
    t.res == ⟨1, 0x9388, .ok⟩ := by decide +kernel
theorem test_crcchk_mismatch : nextIs (exec .crcchk (place (withOps 0x1000 6 0x47 0) 0x1000 0x938821694816 48)) fun t =>
    t.res == ⟨0, 0x7650, .crcMismatch⟩ := by decide +kernel

/-! ## The packet context -/

/-- The DM1 header of part 2.4 in a packet of 126 symbols, xored with a mask. -/
def dm1Header (uap : Byte) (mask : Nat) : State :=
  place { State.reset with
    phase := .created
    port := ⟨0, 126⟩
    range := ⟨0, 126⟩
    ctx := { Context.cleared with uap := uap, haveUap := true, clock := 0x2A } } 72 (0x3f000ff8e38e38 ^^^ mask) 54

/-- Part 2.4: three disagreeing triplets decode, under UAP 0x47. -/
theorem test_decodeHeader : nextIs (exec .decodeHeader (dm1Header 0x47 0b1001001)) fun t =>
    t.res == ⟨1, 0x47, .ok⟩ && t.prog.packetHeader == 0x1D699 && t.prog.packetType == 3 && t.phase == .headerDecoded := by
  decide +kernel

/-- Part 2.4: the wrong UAP is a bad HEC that reports the computed one. -/
theorem test_decodeHeader_bad_hec : nextIs (exec .decodeHeader (dm1Header 0x48 0)) fun t =>
    t.res == ⟨0, 0x47, .badHec⟩ && t.phase == .created := by decide +kernel

/-- Part 2.4: four disagreeing triplets fail the gate. -/
theorem test_decode_gate : nextIs (exec .decode (dm1Header 0x47 0b1001001001)) fun t =>
    t.res == ⟨0, 0, .repetitionGate⟩ && t.phase == .created := by decide +kernel

/-- Part 2.4: the NULL packet under clock hypothesis 0 (`A0[31:6]` ignored) and 42. -/
def nullPacket (a0 : Word) : State :=
  place { dm1Header 0x47 0 with ops := ⟨a0, 0, 0, 0⟩, mem := [] } 72 0x7fc0e38e3f038 54

theorem test_probeUap : nextIs (exec .probeUap (nullPacket 0x40)) fun t => t.res == ⟨0xDA, 0x3387B, .ok⟩ := by
  decide +kernel
theorem test_probeUap_42 : nextIs (exec .probeUap (nullPacket 42)) fun t => t.res == ⟨0x47, 0x31281, .ok⟩ := by
  decide +kernel

/-- Part 3.1: `DECODE` of the NULL packet. -/
theorem test_decode : nextIs (exec .decode (nullPacket 0)) fun t =>
    t.statusWord == 0x185 && t.res.r0 == 1 && t.res.r1 == 0 := by decide +kernel

/-- Rule R211's example: `WLEN` 272, `A0` 100. -/
theorem test_create : nextIs (exec .create { withOps 100 0 0 0 with port := ⟨0, 272⟩ }) fun t =>
    t.range == ⟨100, 172⟩ && t.phase == .created && t.res == ⟨172, 0, .ok⟩ := by decide +kernel

/-- Program D: an offset past the window. -/
theorem test_create_bad_operand : nextIs (exec .create (withOps 5 0 0 0)) fun t => t.statusWord == 0x90 := by
  decide +kernel

/-- Rule R213's example; `A0[31:24]` is ignored. -/
theorem test_setLap : nextIs (exec .setLap (withOps 0xAA9E8B33 0 0 0)) fun t =>
    t.ctx.lap == 0x9E8B33 && t.flagsByte == 0x11 && t.phase == .idle := by decide +kernel

/-- Rule R214's example. -/
theorem test_setUap : nextIs (exec .setUap (withOps 0x147 0 0 0)) fun t => t.ctx.uap == 0x47 && t.flagsByte == 0x12 := by
  decide +kernel

/-- Rule R215. -/
theorem test_setNap : nextIs (exec .setNap (withOps 0x12345 0 0 0)) fun t =>
    t.ctx.nap == 0x2345 && t.flagsByte == 0x14 := by decide +kernel

/-- Rule R216: 27 bits of the operand, and the flag from bit 0 of `A1`. -/
theorem test_setClock : nextIs (exec .setClock (withOps 0xF923452A 3 0 0)) fun t =>
    t.ctx.clock == 0x123452A && t.flagsByte == 0x18 := by decide +kernel

/-- Rule R217: a decoded payload stays. -/
theorem test_setChannel : nextIs (exec .setChannel { withOps 0x127 0 0 0 with phase := .payloadDecoded }) fun t =>
    t.ctx.channel == 39 && t.phase == .payloadDecoded := by decide +kernel

/-- Rule R218. -/
theorem test_setWhitened : nextIs (exec .setWhitened { withOps 2 0 0 0 with phase := .payloadDecoded }) fun t =>
    t.flagsByte == 0 && t.phase == .created := by decide +kernel

/-- Program D: `NOP` clears `CAUSE`. -/
theorem test_nop : nextIs (exec .nop { State.reset with res := ⟨1, 2, .badState⟩ }) fun t => t == State.reset := by
  decide +kernel

/-- Program D: `RESTART` in `Idle`. -/
theorem test_restart_idle : nextIs (exec .restart State.reset) fun t => t.statusWord == 0xA0 := by decide +kernel

/-- Rule R220. -/
theorem test_clrCtx : nextIs (exec .clrCtx (dm1Header 0x47 0)) fun t =>
    t.flagsByte == 0x10 && t.ctx.uap == 0 && t.ctx.clock == 0 && t.phase == .created && t.range == ⟨0, 126⟩ := by
  decide +kernel

/-- Part 3.3, last row: the DM1 record after `SET_CLOCK` with 0x123452A known in full, `SET_NAP` and channel 39. -/
theorem test_emit : nextIs (exec .emit (place { State.reset with
      phase := .payloadDecoded
      ctx := { Context.cleared with clock := 0x123452A, channel := 39, haveFullClock := true, haveNap := true }
      prog := { Progress.cleared with packetHeader := 0x1D699, payloadLength := 6, result := .ten } }
      0x2000 0x93882169481E 48)) fun t =>
    t.prog.recLen == 15 && t.res == ⟨15, 0, .ok⟩ && value t 0x4000 120 == 0x93882169481E7505190327012 * 16 ^ 5 + 0x3452A := by
  decide +kernel

/-- Rule R183's example with `AUX1_DECODE` = `fault`: `STATUS` 0xFF. -/
theorem test_missing_handler :
    (State.payloadStage { State.reset with phase := .headerDecoded } (plAux1 .fault (row .aux1))).statusWord = 0xFF := by
  decide +kernel

/-! ## The packets of part 3.1 -/

/-- NULL. -/
theorem test_pktNull : decodedTo (exec (.pktNull fields) (packet 0x0 0)) .one .unvalidated 0 0 := by
  decide +kernel

/-- POLL. -/
theorem test_pktPoll : decodedTo (exec (.pktPoll fields) (packet 0x0 0)) .one .unvalidated 0 0 := by
  decide +kernel

/-- Rule R176: a clock found by the retry. The same payload, `CLOCK` 7, validates under 42. -/
theorem test_pktFhs_retry : nextIs
    (exec (.pktFhs fields) (let s := packet 0xe5bb9642bb9ee755bebe26b2a0a8397b738171238c03e7ebea47230d0f8b 240; { s with ctx := { s.ctx with clock := 7 } })) fun t =>
    t.prog.result == .ten && t.prog.fhsClk == 42 && t.prog.fhsClkValid && t.ctx.clock == 7 &&
    value t 0x2000 32 == 0x18CA4DA5 := by decide +kernel

/-- DM1. -/
theorem test_pktDm1 : decodedTo (exec (.pktDm1 fields) (packet 0x109d43d7ea19b6dea30 75)) .ten .ok 6 0x93882169481E := by
  decide +kernel

/-- Part 1, T8: three symbols of block 0 inverted, a miscorrected header that declares 19. -/
theorem test_pktDm1_implausible : nextIs (exec (.pktDm1 fields) (packet 0x109d43d7ea19b6dea37 75)) fun t =>
    t.prog.payloadHeader == 0x99 && t.res == ⟨1, 0, .implausibleLength⟩ && t.phase == .payloadDecoded := by decide +kernel

/-- DH1. -/
theorem test_pktDh1 : decodedTo (exec (.pktDh1 fields) (packet 0xb0480bf6ca002700 64)) .ten .ok 8 0x6C3705040302012E := by
  decide +kernel

/-- DH1 with `S(146)` inverted. -/
theorem test_pktDh1_mismatch : decodedTo (exec (.pktDh1 fields) (packet 0xb0480bf6ca102700 64)) .one .crcMismatch 8 0x6C3705040312012E := by
  decide +kernel

/-- HV1, its first four bytes. -/
theorem test_pktHv1 : nextIs (exec (.pktHv1 fields) (packet 0xe38e3fe3ffc0e07e001f8e001fffffff8e3f000038007fc71c71c0007007 240)) fun t =>
    t.prog.result == .one && t.res.cause == .unvalidated && t.payloadBytes == 10 && value t 0x2000 32 == 0xCB1F723F := by
  decide +kernel

/-- HV2, its first four bytes. -/
theorem test_pktHv2 : nextIs (exec (.pktHv2 fields) (packet 0x1bd5f84a2550d3bc990bdbb5dcb65c1d5d8f2630d587f57598086faadc11 240)) fun t =>
    t.prog.result == .one && t.res.cause == .unvalidated && t.payloadBytes == 20 && value t 0x2000 32 == 0xCB1F723F := by
  decide +kernel

/-- EV3. -/
theorem test_pktHv3Ev3_ev3 : decodedTo (exec (.pktHv3Ev3 fields) (packet 0xc59fd9ab566aa0878e 72)) .ten .ok 9 0xED43A6A5A4A3A2A1A0 := by
  decide +kernel

/-- Rule R181: the EV3 packet with its first symbol inverted is too short to be an HV3. -/
theorem test_pktHv3Ev3_short : nextIs (exec (.pktHv3Ev3 fields) (packet 0xc59fd9ab566aa0878f 72)) fun t =>
    t.res == ⟨0, 0, .shortBuffer⟩ && t.phase == .headerDecoded && t.payloadBytes == 0 := by decide +kernel

/-- DV. -/
theorem test_pktDv : decodedTo (exec (.pktDv fields) (packet 0x1a1e95abcf4f05377c0d4379a1cdf917cbf3a3c4c52 170)) .ten .ok 7 0xE2F0EFBEADDE22 := by
  decide +kernel

/-- DV cut to `LENGTH` 220: the voice bits are written although the data field is too short. -/
theorem test_pktDv_short : nextIs
    (exec (.pktDv fields) (let s := packet 0x1a1e95abcf4f05377c0d4379a1cdf917cbf3a3c4c52 170; { s with range := ⟨0, 220⟩ })) fun t =>
    t.res == ⟨0, 0, .shortBuffer⟩ && t.phase == .headerDecoded && value t 0x3200 80 == 0xe73403ee724df33e6a7c := by decide +kernel

/-- AUX1. -/
theorem test_pktAux1 : decodedTo (exec (.pktAux1 fields) (packet 0x790bf6ca00271c 56)) .one .unvalidated 7 0x06050403020132 := by
  decide +kernel

/-- DM3 with its last symbol missing: the first two blocks declare 30 bytes, which take 420 symbols. -/
theorem test_pktDm3_short : nextIs
    (exec (.pktDm3 fields) (let s := packet 0x3e44aadf 30; { s with range := ⟨0, 545⟩ })) fun t =>
    t.res == ⟨0, 0, .shortBuffer⟩ && t.phase == .headerDecoded && t.prog.payloadHeader == 0 := by decide +kernel

/-- DH3. -/
theorem test_pktDh3 : decodedTo (exec (.pktDh3 fields) (packet 0xf1301c36c22634 56)) .ten .ok 7 0x8E3EEEFFC0001A := by
  decide +kernel

/-- The smallest EV4. -/
theorem test_pktEv4 : decodedTo (exec (.pktEv4 fields) (packet 0xa79ec3f 45)) .ten .ok 3 0x01EA11 := by
  decide +kernel

/-- EV5. -/
theorem test_pktEv5 : decodedTo (exec (.pktEv5 fields) (packet 0xa574cf052e27 48)) .ten .ok 6 0xAB8606070809 := by
  decide +kernel

/-- EV5 cut to `LENGTH` 150. -/
theorem test_pktEv5_cut : decodedTo (exec (.pktEv5 fields) (packet 0x52e27 24)) .one .crcMismatch 3 0x070809 := by
  decide +kernel

/-- DM5. -/
theorem test_pktDm5 : decodedTo (exec (.pktDm5 fields) (packet 0x58853ab989adf84d238 75)) .ten .ok 6 0x8BA5EFBE0016 := by
  decide +kernel

/-- DH5. -/
theorem test_pktDh5 : decodedTo (exec (.pktDh5 fields) (packet 0x8a367d2625 40)) .ten .ok 5 0x78FF7F000B := by
  decide +kernel

/-- `DECODE_PAYLOAD` of the DM1 packet. -/
theorem test_decodePayload : nextIs
    (exec .decodePayload (let s := packet 0x109d43d7ea19b6dea30 75
      { s with phase := .headerDecoded, prog := { s.prog with packetType := 3, packetHeader := 0x1D699 } })) fun t =>
    t.res == ⟨10, 6, .ok⟩ && t.phase == .payloadDecoded && t.prog.payloadInfo == 0x16 := by decide +kernel

/-! ## The step -/

/-- Rule R47: the last word of a window, 31 of whose symbols fall past the end. -/
theorem test_step_sym_data : nextIs (step { State.reset with port := ⟨3124, 0⟩, queue := [.write 9 0xFFFFFFFF] }) fun t =>
    t.mem == [(3124, 1)] && t.port.symAddr == 3125 := by decide +kernel

/-- Rule R16: a value above 3125 stores 3125. -/
theorem test_step_wlen : nextIs (step { State.reset with queue := [.write 0x0A 0x80000001] }) fun t =>
    t.port.wlen == 3125 := by decide +kernel

/-- Program D: the word 0x99. -/
theorem test_step_illegal : nextIs (step { State.reset with queue := [.write 0 0x99] }) fun t =>
    t.statusWord == 0xC0 && t.queue == [] := by decide +kernel

/-- Rule R270: the reset input abandons a packet row under way. -/
theorem test_step_reset_abandons : nextIs (step { packet 0 0 with queue := [.reset, .read 1] }) fun t =>
    t == { State.reset with queue := [.read 1] } := by decide +kernel

/-- Rule R40: a read of `FLAGS`. -/
theorem test_step_read : nextIs (step { State.reset with queue := [.read 0x16] }) fun t => t.readData == 0x10 := by
  decide +kernel

/-! ## Witnesses: the hypotheses of the statements can be met, clause by clause, at the ends of their ranges -/

/-- `DecodeIsUnambiguous`. -/
theorem test_wit_decode_unambiguous : decode (.command 0x78) = .ok .emit := rfl

/-- The reset state with one move of the host to come. -/
def willDo (m : HostAction) : State := { State.reset with queue := [m] }

/-- `IllegalWordRaises`. -/
theorem test_wit_illegal_word_zero_op : (willDo (.write 0 0x03)).phase ≠ .fault ∧ (willDo (.write 0 0x03)).phase ≠ .payloadPending ∧
    (willDo (.write 0 0x03)).queue = .write 0 0x03 :: [] ∧ ∀ op ∈ operationCodes, (0x03 : Word) ≠ op.setWidth 32 := by decide +kernel

theorem test_wit_illegal_word_last_op : (willDo (.write 0 0x79)).phase ≠ .fault ∧ (willDo (.write 0 0x79)).phase ≠ .payloadPending ∧
    (willDo (.write 0 0x79)).queue = .write 0 0x79 :: [] ∧ ∀ op ∈ operationCodes, (0x79 : Word) ≠ op.setWidth 32 := by decide +kernel

theorem test_wit_illegal_word_reserved : (willDo (.write 0 0x100)).phase ≠ .fault ∧ (willDo (.write 0 0x100)).phase ≠ .payloadPending ∧
    (willDo (.write 0 0x100)).queue = .write 0 0x100 :: [] ∧ ∀ op ∈ operationCodes, (0x100 : Word) ≠ op.setWidth 32 := by decide +kernel

theorem test_wit_illegal_word_top : (willDo (.write 0 0x80000078)).phase ≠ .fault ∧ (willDo (.write 0 0x80000078)).phase ≠ .payloadPending ∧
    (willDo (.write 0 0x80000078)).queue = .write 0 0x80000078 :: [] ∧ ∀ op ∈ operationCodes, (0x80000078 : Word) ≠ op.setWidth 32 := by decide +kernel

/-- `StepRunsDecodedInstruction`, first clause. -/
theorem test_wit_step_runs_command : (willDo (.write 0 0x78)).phase ≠ .fault ∧ (willDo (.write 0 0x78)).phase ≠ .payloadPending ∧
    (willDo (.write 0 0x78)).queue = .write 0 0x78 :: [] ∧ decode (.command 0x78) = .ok .emit := ⟨by decide, by decide, rfl, rfl⟩

/-- `StepRunsDecodedInstruction`, second clause. -/
theorem test_wit_step_runs_header : (zeros .payloadPending).phase = .payloadPending ∧
    (zeros .payloadPending).prog.packetType = headerType (zeros .payloadPending).prog.packetHeader ∧
    (zeros .payloadPending).queue.head? ≠ some .reset ∧
    decode (.header (zeros .payloadPending).prog.packetHeader) = .ok (.pktNull ⟨0, false, false, false, 0⟩) :=
  ⟨rfl, by decide, by decide, rfl⟩

/-- `DecodePayloadRunsItsHandler`, `MissingHandlerEntersFault`. -/
theorem test_wit_decode_payload : (zeros .headerDecoded).phase = .headerDecoded := rfl

/-- `StepNeverStops`, second clause. -/
theorem test_wit_idle_core : State.reset.phase ≠ .payloadPending ∧ State.reset.queue = [] := by decide +kernel

/-- `HostReads`. -/
theorem test_wit_host_read : (willDo (.read 0x3F)).phase ≠ .payloadPending ∧ (willDo (.read 0x3F)).queue = .read 0x3F :: [] := by decide +kernel

theorem test_wit_host_read_zero : ∀ r ∈ [0x00, 0x09, 0x0B, 0x0F, 0x1F, (0x3F : BitVec 6)],
    r = 0x00 ∨ r = 0x09 ∨ (0x0B ≤ r.toNat ∧ r.toNat ≤ 0x0F) ∨ 0x1F ≤ r.toNat := by decide +kernel

/-- `HostWrites`. -/
theorem test_wit_host_write : ∀ r ∈ [0x02, 0x03, 0x04, 0x05, 0x08, 0x01, (0x3F : BitVec 6)],
    (willDo (.write r 7)).phase ≠ .payloadPending ∧ (willDo (.write r 7)).queue = .write r 7 :: [] := by decide +kernel

theorem test_wit_host_write_ignored : (0x01 : BitVec 6) ∉ [0x00, 0x02, 0x03, 0x04, 0x05, 0x08, 0x09, (0x0A : BitVec 6)] ∧
    (0x3F : BitVec 6) ∉ [0x00, 0x02, 0x03, 0x04, 0x05, 0x08, 0x09, (0x0A : BitVec 6)] := by decide +kernel

/-- `SymbolLoadPort`: the last symbol address is still stored to, in `Fault` too. -/
theorem test_wit_sym_data : ∀ p ∈ [Phase.idle, .fault],
    let s := { willDo (.write 0x09 1) with port := ⟨3124, 0⟩, phase := p }
    s.phase ≠ .payloadPending ∧ s.queue = .write 0x09 1 :: [] ∧
    s.port.symAddr.toNat + 0 ≤ 3124 ∧ (0 : Nat) < 32 := by decide +kernel

theorem test_wit_wlen : ∀ p ∈ [Phase.payloadDecoded, .fault], let s := { willDo (.write 0x0A 3126) with phase := p }
    s.phase ≠ .payloadPending ∧ s.queue = .write 0x0A 3126 :: [] := by decide +kernel

/-- `ResetInput`: with a packet row under way. -/
theorem test_wit_reset_input : let s := { willDo .reset with phase := .payloadPending }
    s.queue = .reset :: [] ∧ s.busy = true := by decide +kernel

/-- `FaultIgnoresCommands`. -/
theorem test_wit_fault : let s := { willDo (.write 0 0) with phase := .fault }
    s.phase = .fault ∧ s.queue = .write 0 0 :: [] := by decide +kernel

/-- `OnlyResetLeavesFault`. -/
theorem test_wit_fault_step : (zeros .fault).phase = .fault ∧ step (zeros .fault) = .next (zeros .fault) := ⟨rfl, rfl⟩

/-- `StepKeepsMemoryForm`. -/
theorem test_wit_memory_form : MemoryForm (place State.reset 0x1000 3 2) ∧
    step (place State.reset 0x1000 3 2) = .next (place State.reset 0x1000 3 2) := ⟨by unfold MemoryForm; decide +kernel, rfl⟩

/-- `StepKeepsContextInvariant`: a window of five symbols with a packet in it. -/
def created5 : State := { State.reset with port := ⟨0, 5⟩, range := ⟨2, 3⟩, phase := .created }
theorem test_wit_context_invariant : ContextInvariant created5 := by
  constructor <;> decide +kernel
theorem test_wit_context_invariant_step : step created5 = .next created5 := rfl

/-- `StepKeepsTenMeansCrc`: three zero bytes under UAP 0, validated. -/
def ten3 : State :=
  { zeros .payloadDecoded with prog := { Progress.cleared with result := .ten, payloadLength := 3, havePayload := true } }
theorem test_wit_ten_means_crc : TenMeansCrc ten3 ∧ ten3.prog.result = .ten ∧ step ten3 = .next ten3 :=
  ⟨by unfold TenMeansCrc; decide +kernel, rfl, rfl⟩

/-- `StepEndsAtRest`. -/
theorem test_wit_ends_at_rest : State.reset.phase ≠ .headerPending ∧ step State.reset = .next State.reset := ⟨by decide, rfl⟩

/-- `InstructionsKeepHostState`, `WritersOfState`. -/
theorem test_wit_instruction : exec .nop State.reset = .next State.reset ∧ Instr.nop ∉ [Instr.host2air, .dewhiten, .unfec13, .unfec23, .acgen] ∧
    Instr.nop ∉ [Instr.clrCtx, .setLap, .setUap, .setNap, .setClock, .setChannel, .setWhitened] ∧
    Instr.nop ≠ .create ∧ Instr.nop ≠ .emit := ⟨rfl, by decide, by decide, by decide, by decide⟩

theorem test_wit_instruction_payload : Instr.nop ∉ [Instr.decodePayload, .decode] ∧
    (∀ p f, Instr.nop ≠ packetInstr p f) ∧ ∀ f, Instr.nop ≠ .pktDv f :=
  ⟨by decide, fun p f => by cases p <;> simp [packetInstr], fun f => by simp⟩

theorem test_wit_instruction_voice : (zeros .headerDecoded).prog.packetType ≠ 8 ∧
    nextIs (exec .decodePayload (zeros .headerDecoded)) (fun _ => true) = true := by decide +kernel

theorem test_wit_instruction_work : nextIs (exec .host2air (withOps 1 1 0 0)) (fun _ => true) = true ∧
    Instr.host2air ∈ [Instr.host2air, .dewhiten, .unfec13, .unfec23, .acgen] := by decide +kernel

theorem test_wit_instruction_rec : let s := { zeros .payloadDecoded with prog := { Progress.cleared with recLen := 9 } }
    nextIs (exec .restart s) (fun t => t.prog.recLen != s.prog.recLen) = true := by decide +kernel

/-- `StateTransitions`. -/
theorem test_wit_transition : (zeros .created).phase ≠ .headerPending ∧ (zeros .created).phase ≠ .payloadPending ∧
    nextIs (exec .decodeHeader (zeros .created)) (fun t => t.phase == .headerDecoded) = true := by decide +kernel

theorem test_wit_transition_packet : (zeros .payloadPending).phase = .payloadPending ∧
    nextIs (exec (packetInstr .null fields) (zeros .payloadPending)) (fun t => t.phase == .payloadDecoded) = true := by decide +kernel

/-- `OutOfOrderIsRefused`. -/
theorem test_wit_out_of_order : let s := zeros .created
    s.phase ≠ .fault ∧ s.phase ≠ .headerDecoded ∧ s.phase ≠ .payloadDecoded ∧ s.phase ≠ .payloadPending := by decide +kernel

/-- `NopAndRestart`, `ClrCtxRestoresContext`, `ContextSetters`, `SetChannelKeepsDecode`, `Rev8ReversesByte`,
`AcgenWritesAccessCode`, `Hec2UapReturnsUap`. -/
theorem test_wit_restart : (zeros .created).phase ≠ .fault ∧ (zeros .created).phase ≠ .idle ∧ State.reset.phase ≠ .fault ∧
    State.reset.phase = .idle := by decide +kernel

/-- `CreateNamesPacket`: an offset at the window's end, and one past it. -/
theorem test_wit_create : let s := { withOps 5 0 0 0 with port := ⟨0, 5⟩ }
    s.phase ≠ .fault ∧ s.ops.a0.toNat ≤ s.wlen := by decide +kernel

theorem test_wit_create_past : let s := { withOps 6 0 0 0 with port := ⟨0, 5⟩ }
    s.phase ≠ .fault ∧ s.wlen < s.ops.a0.toNat := by decide +kernel

/-- `DecodeRunsBothStages`, `DecodeHeaderAcceptsItsHec`. -/
theorem test_wit_decode : (zeros .created).phase = .created ∧ (zeros .created).ctx.haveUap = true := by decide +kernel

theorem test_wit_decode_refused : State.reset.phase ≠ .fault ∧ State.reset.phase ≠ .created ∧
    ({ State.reset with phase := .created } : State).ctx.haveUap = false := by decide +kernel

/-- `EmitBuildsRecord`: the longest payload. -/
theorem test_wit_emit : let s := { zeros .payloadDecoded with prog := { Progress.cleared with payloadLength := 343 } }
    s.phase = .payloadDecoded ∧ s.payloadBytes ≤ 343 := by decide +kernel

theorem test_wit_emit_refused : State.reset.phase ≠ .payloadDecoded ∧ State.reset.phase ≠ .fault := by decide +kernel

/-- A window of 3125 symbols and operands. -/
def opsOn (a0 a1 a2 a3 : Word) : State := { zeros .idle with ops := ⟨a0, a1, a2, a3⟩ }

/-- `Air2HostReadsBits`: the last 32 symbols, and an empty range anywhere. -/
theorem test_wit_air2host : (opsOn 3093 32 0 0).ops.a1.toNat ≤ 32 ∧ (opsOn 3093 32 0 0).rangeOk 3093 32 = true ∧
    (opsOn 0xFFFF 0 0 0).rangeOk 0xFFFF 0 = true := by decide +kernel

theorem test_wit_air2host_refused : 32 < (opsOn 0 33 0 0).ops.a1.toNat ∧ (opsOn 3094 32 0 0).rangeOk 3094 32 = false := by decide +kernel

/-- `Host2AirWritesBits`. -/
theorem test_wit_host2air : (opsOn 0 32 3093 0).ops.a1.toNat ≤ 32 ∧
    (opsOn 0 32 3093 0).ops.a2.toNat + (opsOn 0 32 3093 0).ops.a1.toNat ≤ 3125 := by decide +kernel

theorem test_wit_host2air_refused : 32 < (opsOn 0 33 0 0).ops.a1.toNat ∧
    3125 < (opsOn 0 32 3094 0).ops.a2.toNat + (opsOn 0 32 3094 0).ops.a1.toNat := by decide +kernel

/-- `DewhitenWritesBits`. -/
theorem test_wit_dewhiten : (opsOn 0x1000 0 3125 0).ops.a2.toNat ≤ 3125 ∧ (opsOn 0x1000 0 3125 0).rangeOk 0x1000 3125 = true := by decide +kernel

theorem test_wit_dewhiten_refused : 3125 < (opsOn 0x1000 0 3126 0).ops.a2.toNat ∧ (opsOn 0x1001 0 3125 0).rangeOk 0x1001 3125 = false := by decide +kernel

/-- `Unfec13DecodesTriplets`: the largest count; a gate that passes at the least count, and one that fails. -/
theorem test_wit_unfec13 : (opsOn 0x1000 1041 0 0).ops.a1.toNat ≤ 1041 ∧ (opsOn 0x1000 1041 0 0).rangeOk 0x1000 (3 * 1041) = true := by decide +kernel

theorem test_wit_unfec13_gate : let be := fun n => (List.range n).countP fun i => !(State.reset.bitRead (0x1000 + 3 * i + 0) ==
      State.reset.bitRead (0x1000 + 3 * i + 1) && State.reset.bitRead (0x1000 + 3 * i + 1) ==
      State.reset.bitRead (0x1000 + 3 * i + 2))
    be 4 < 4 / 4 ∧ 3 / 4 ≤ be 3 ∧ 0 / 4 ≤ be 0 := by decide +kernel

theorem test_wit_unfec13_refused : 1041 < (opsOn 0x1000 1042 0 0).ops.a1.toNat ∧ (opsOn 0x1002 1041 0 0).rangeOk 0x1003 (3 * 1041) = false := by decide +kernel

/-- `Unfec23DecodesBlocks`: the largest count; a block that decodes, one that does not. -/
theorem test_wit_unfec23 : (opsOn 0x1000 2080 0 0).ops.a1.toNat ≤ 2080 ∧
    (opsOn 0x1000 2080 0 0).rangeOk 0x1000 (15 * ((2080 + 9) / 10)) = true := by decide +kernel

theorem test_wit_unfec23_block : (∀ k, k < (11 + 9) / 10 → (unfec23Block (State.reset.bitsAt (0x1000 + 15 * k) 15)).isSome = true) ∧
    ∃ k, k < 1 ∧ unfec23Block ((place State.reset 0x1000 3 2).bitsAt (0x1000 + 15 * k) 15) = none := ⟨by decide +kernel, 0, by decide +kernel⟩

theorem test_wit_unfec23_refused : 2080 < (opsOn 0x1000 2081 0 0).ops.a1.toNat ∧ (opsOn 0x1006 2080 0 0).rangeOk 0x1006 3120 = false := by decide +kernel

/-- `BlockCodeCorrectsOneError`. -/
theorem test_wit_block_code : (hostToAir 0x3FF 10).length = 10 := by decide +kernel

/-- The differences that `VerifyCountsErrors` counts, with the access code of 0x9E8B33 xored with a mask in `WB`. -/
def differences (mask : Nat) : Nat :=
  (List.range 68).countP fun i =>
    (place State.reset 0x1000 (0x54e7a2cce331a3ae2a ^^^ mask) 72).bitRead (0x1000 + i) != (acGen 0x9E8B33).getD i false

/-- `VerifyCountsErrors`: 6 errors, 7 errors, and a range that is not readable. -/
theorem test_wit_verify : State.reset.rangeOk 0x1000 68 = true ∧ differences 0x3F = 6 ∧ differences 0x7F = 7 := by decide +kernel

theorem test_wit_verify_refused : State.reset.rangeOk 0 68 = false ∧ State.reset.rangeOk 0x1BF2 68 = false := by decide +kernel

/-- `SniffFindsFirstOffset`: an accepted offset with `A0` equal to it, so that no earlier one is examined. -/
theorem test_wit_sniff : let s := window 0
    s.phase ≠ .fault ∧ 10 + 72 ≤ s.wlen ∧
    alternatingDistance (s.readBuf .sym 10 5) + alternatingDistance (s.readBuf .sym (10 + 65) 7) ≤ 2 ∧
    verifyErrors (s.readBuf .sym 10 68) (BitVec.ofNat 24 (airToHost (s.readBuf .sym (10 + 38) 24) 24)) < 7 := by decide +kernel

theorem test_wit_sniff_none : let s := { withOps 31 0 0 0 with port := ⟨0, 102⟩ }
    s.ops.a0.toNat ≤ s.wlen ∧ ∀ o, s.ops.a0.toNat ≤ o → ¬ o + 72 ≤ s.wlen := by
  refine ⟨by decide +kernel, fun o h => ?_⟩
  have h1 : (31 : Nat) ≤ o := h
  show ¬ o + 72 ≤ 102
  omega

theorem test_wit_sniff_past : (withOps 1 0 0 0).wlen < (withOps 1 0 0 0).ops.a0.toNat := by decide +kernel

/-- `HecToUapInvertsHecGen`, second clause. -/
theorem test_wit_hec_unique : hecToUap 0x299 0x75 = 0x47 := by decide +kernel

/-- `ProbeUapReturnsCandidate`, `DecodeHeaderAcceptsItsHec`: 126 symbols and 125; three disagreeing triplets and four. -/
theorem test_wit_probe : let s := { zeros .created with range := ⟨0, 126⟩ }
    126 ≤ s.length ∧ (unfec13 (s.symbols 72 54) 18).2 < 4 := by decide +kernel

theorem test_wit_probe_three : (unfec13 ((place (zeros .created) 72 0b1001001 7).symbols 72 54) 18).2 < 4 := by decide +kernel

theorem test_wit_probe_gate : 4 ≤ (unfec13 ((place (zeros .created) 72 0b1001001001 10).symbols 72 54) 18).2 := by decide +kernel

theorem test_wit_probe_short : ({ zeros .created with range := ⟨0, 125⟩ } : State).length < 126 := by decide +kernel

/-- `DecodeHeaderAcceptsItsHec`: accepted under UAP 0, rejected under UAP 1. -/
theorem test_wit_header_accept : let h := dewhiten (unfec13 ((zeros .created).symbols 72 54) 18).1 0 18 0 false
    BitVec.ofNat 8 (airToHost (h.drop 10) 8) = hecGen (BitVec.ofNat 10 (airToHost (h.take 10) 10)) 0 ∧
    BitVec.ofNat 8 (airToHost (h.drop 10) 8) ≠ hecGen (BitVec.ofNat 10 (airToHost (h.take 10) 10)) 1 := by decide +kernel

/-- `CrcCommands`: the ends of the ranges, and past them. -/
theorem test_wit_crc : (opsOn 0x1000 3125 0 0).rangeOk 0x1000 3125 = true ∧ (opsOn 0x1000 390 0 0).rangeOk 0x1000 (8 * 390) = true ∧
    (opsOn 0x1000 2 0 0).rangeOk 0x1000 (8 * 2) = true ∧ 8 * 2 ≤ (List.replicate 16 false).length := by decide +kernel

theorem test_wit_crc_refused : 3125 < (opsOn 0 3126 0 0).ops.a1.toNat ∧ (opsOn 0 1 0 0).ops.a1.toNat < 2 ∧ 390 < (opsOn 0 391 0 0).ops.a1.toNat := by decide +kernel

/-- `NullAndPollPackets`, and the state hypothesis of every packet statement below. -/
theorem test_wit_null : (zeros .payloadPending).phase = .payloadPending := rfl

/-- `DmPackets`: a body of 0 bytes, and the largest body of DM1, 17. -/
theorem test_wit_dm_accepted : let s := symbols 0 0 0 171
    s.blockRead 126 18 (8 * 3) = some (List.replicate 24 false) ∧ 1 + lengthField (List.replicate 24 false) 1 + 2 = 3 ∧
    15 * ceilDiv (8 * 3) 10 ≤ s.length - 126 := by decide +kernel

theorem test_wit_dm_accepted_largest : let s := symbols 0x5088 15 0 366
    (s.blockRead 126 18 (8 * 20)).any (fun bits => 1 + lengthField bits 1 + 2 == 20) = true ∧
    15 * ceilDiv (8 * 20) 10 ≤ s.length - 126 := by decide +kernel

/-- A declared body of 18; the largest with one symbol missing; its last block uncorrectable; the first; no header. -/
theorem test_wit_dm_implausible : let s := symbols 0x1890 15 0 366
    (s.blockRead 126 18 (8 * 1)).any (fun p => 20 < 1 + lengthField p 1 + 2) = true ∧
    15 * ceilDiv (8 * 1) 10 ≤ s.length - 126 := by decide +kernel

theorem test_wit_dm_short_body : let s := symbols 0x5088 15 0 365
    (s.blockRead 126 18 (8 * 1)).any (fun p => 1 + lengthField p 1 + 2 ≤ 20 &&
      s.length - 126 < 15 * ceilDiv (8 * (1 + lengthField p 1 + 2)) 10) = true := by decide +kernel

theorem test_wit_dm_fec_body : let s := place (symbols 0x5088 15 0 366) (126 + 225) 3 2
    (s.blockRead 126 18 (8 * 1)).any (fun p => 1 + lengthField p 1 + 2 == 20) = true ∧
    s.blockRead 126 18 (8 * 20) = none ∧ 15 * ceilDiv (8 * 20) 10 ≤ s.length - 126 := by decide +kernel

theorem test_wit_dm_fec_header : let s := symbols 3 2 0 141
    15 * ceilDiv (8 * 1) 10 ≤ s.length - 126 ∧ s.blockRead 126 18 (8 * 1) = none := by decide +kernel

theorem test_wit_dm_short : let s := symbols 0 0 0 140
    s.length - 126 < 15 * ceilDiv (8 * 1) 10 := by decide +kernel

/-- A 2-byte payload header. -/
theorem test_wit_dm3_accepted : let s := symbols 0 0 0 186
    (s.blockRead 126 18 (8 * 4)).any (fun bits => 2 + lengthField bits 2 + 2 == 4) = true ∧
    15 * ceilDiv (8 * 4) 10 ≤ s.length - 126 := by decide +kernel

/-- `DhAndAux1Packets`: the largest body of DH1, 27; a declared 28; the largest with one symbol missing; no header. -/
theorem test_wit_dh_accepted : let s := symbols 0xD8 8 0 366
    let tot := 1 + lengthField (s.plainRead 126 18 8) 1 + 2
    8 * 1 ≤ s.length - 126 ∧ tot = 30 ∧ 8 * tot ≤ s.length - 126 := by decide +kernel

theorem test_wit_dh_implausible : let s := symbols 0xE0 8 0 366
    8 * 1 ≤ s.length - 126 ∧ 30 < 1 + lengthField (s.plainRead 126 18 8) 1 + 2 := by decide +kernel

theorem test_wit_dh_short_body : let s := symbols 0xD8 8 0 365
    let tot := 1 + lengthField (s.plainRead 126 18 8) 1 + 2
    8 * 1 ≤ s.length - 126 ∧ tot ≤ 30 ∧ s.length - 126 < 8 * tot := by decide +kernel

theorem test_wit_dh_short : (symbols 0 0 0 133).length - 126 < 8 * 1 := by decide +kernel

/-- AUX1: the largest body, 29, and a declared 30. -/
theorem test_wit_aux1_accepted : let s := symbols 0xE8 8 0 366
    1 + lengthField (s.plainRead 126 18 8) 1 + 0 = 30 ∧ 8 * 30 ≤ s.length - 126 := by decide +kernel

theorem test_wit_aux1_implausible : 30 < 1 + lengthField ((symbols 0xF0 8 0 366).plainRead 126 18 8) 1 + 0 := by decide +kernel

/-- `FhsPacket`: validated under the nominal clock; under a later one and no earlier one; under none; the failures. -/
theorem test_wit_fhs_nominal : let s := symbols 0 0 0 366
    240 ≤ s.length - 126 ∧ (unfec23 (s.symbols 126 240) 160).any (fun r =>
      residueZero (dewhiten r.1 0 160 18 s.ctx.whitened) 20 s.ctx.uap) = true := by decide +kernel

theorem test_wit_fhs_retry : let s := let s := packet 0xe5bb9642bb9ee755bebe26b2a0a8397b738171238c03e7ebea47230d0f8b 240; { s with ctx := { s.ctx with clock := 41 } }
    240 ≤ s.length - 126 ∧ (unfec23 (s.symbols 126 240) 160).any (fun r =>
      let valid := fun c => residueZero (dewhiten r.1 c 160 18 s.ctx.whitened) 20 s.ctx.uap
      !valid 41 && valid 42 && (List.range 10).all fun d => !valid (32 + d)) = true := by decide +kernel

theorem test_wit_fhs_none : let s := symbols 0 0 1 366
    240 ≤ s.length - 126 ∧ (unfec23 (s.symbols 126 240) 160).any (fun r =>
      !residueZero (r.1.take 160) 20 s.ctx.uap) = true ∧
    ∀ (t : Bits) (c : Nat), dewhiten t c 160 18 s.ctx.whitened = t.take 160 := ⟨by decide +kernel, by decide +kernel, fun _ _ => rfl⟩

theorem test_wit_fhs_fec : let s := symbols 3 2 0 366
    240 ≤ s.length - 126 ∧ unfec23 (s.symbols 126 240) 160 = none := by decide +kernel

theorem test_wit_fhs_short : (symbols 0 0 0 365).length - 126 < 240 := by decide +kernel

/-- `Hv1AndHv2Packets`: 19 and 20 disagreeing triplets; blocks that decode, and one that does not; 239 symbols. -/
theorem test_wit_hv1 : let s := symbols 0x49249249249249 240 0 366
    240 ≤ s.length - 126 ∧ (unfec13 (s.symbols 126 240) 80).2 = 19 := by decide +kernel

theorem test_wit_hv1_gate : let s := symbols 0x249249249249249 240 0 366
    240 ≤ s.length - 126 ∧ 20 ≤ (unfec13 (s.symbols 126 240) 80).2 := by decide +kernel

theorem test_wit_hv2 : let s := symbols 0 0 0 366
    240 ≤ s.length - 126 ∧ s.blockRead 126 18 160 = some (List.replicate 160 false) := by decide +kernel

theorem test_wit_hv2_fec : let s := symbols 3 2 0 366
    240 ≤ s.length - 126 ∧ s.blockRead 126 18 160 = none := by decide +kernel

theorem test_wit_hv_short : (symbols 0 0 0 365).length - 126 < 240 := by decide +kernel

/-- `Hv3Ev3Packet`, `Ev5Packet`: the least length, 3, with nothing shorter to examine; no length with exactly three bytes;
two bytes. -/
theorem test_wit_ev_least : let s := symbols 0 0 0 150
    3 ≤ min 32 ((s.length - 126) / 8) ∧ residueZero (s.plainRead 126 18 (8 * 3)) 3 s.ctx.uap = true := by decide +kernel

theorem test_wit_ev_none : let s := symbols 0 0 1 150
    min 32 ((s.length - 126) / 8) = 3 ∧ min 182 ((s.length - 126) / 8) = 3 ∧ s.length - 126 < 240 ∧
    residueZero (s.plainRead 126 18 (8 * 3)) 3 s.ctx.uap = false := by decide +kernel

theorem test_wit_ev5_short : min 182 (((symbols 0 0 0 149).length - 126) / 8) < 3 := by decide +kernel

/-- `Hv3Ev3Packet`: 240 symbols and no length from 3 to 30 that validates. -/
theorem test_wit_hv3 : let s := symbols 0 0 1 366
    240 ≤ s.length - 126 ∧ min 32 ((s.length - 126) / 8) = 30 ∧
    (List.range 28).all (fun k => !residueZero (s.plainRead 126 18 (8 * (k + 3))) (k + 3) s.ctx.uap) = true := by decide +kernel

/-- `DvPacket`: the largest body, 9; a declared 10; the largest with one symbol missing; the two kinds of uncorrectable
block; a data field cut off; no voice field. -/
theorem test_wit_dv_accepted : let s := symbols 0xc4800000000000000000000 95 0 356
    206 ≤ s.length ∧ (s.blockRead 206 98 (8 * 12)).any (fun bits => lengthField bits 1 + 3 == 12) = true ∧
    15 * ceilDiv (8 * 12) 10 ≤ s.length - 206 := by decide +kernel

theorem test_wit_dv_implausible : let s := symbols 0x445000000000000000000000 95 0 356
    206 ≤ s.length ∧ 15 ≤ s.length - 206 ∧ (s.blockRead 206 98 8).any (fun p => 12 < lengthField p 1 + 3) = true := by decide +kernel

theorem test_wit_dv_short_body : let s := symbols 0xc4800000000000000000000 95 0 355
    206 ≤ s.length ∧ 15 ≤ s.length - 206 ∧ (s.blockRead 206 98 8).any (fun p => lengthField p 1 + 3 ≤ 12 &&
      s.length - 206 < 15 * ceilDiv (8 * (lengthField p 1 + 3)) 10) = true := by decide +kernel

theorem test_wit_dv_fec_body : let s := place (symbols 0xc4800000000000000000000 95 0 356) (206 + 135) 3 2
    (s.blockRead 206 98 8).any (fun p => lengthField p 1 + 3 == 12) = true ∧ s.blockRead 206 98 (8 * 12) = none ∧
    15 * ceilDiv (8 * 12) 10 ≤ s.length - 206 := by decide +kernel

theorem test_wit_dv_fec_header : let s := symbols 0x300000000000000000000 82 0 221
    206 ≤ s.length ∧ 15 ≤ s.length - 206 ∧ s.blockRead 206 98 8 = none := by decide +kernel

theorem test_wit_dv_short : 206 ≤ (symbols 0 0 0 206).length ∧ (symbols 0 0 0 220).length - 206 < 15 ∧ (symbols 0 0 0 205).length < 206 := by decide +kernel

/-- `Ev4Packet`: the least length; no length with exactly three blocks; with a fourth that is uncorrectable; with the
third; two blocks. -/
theorem test_wit_ev4_ok : let s := symbols 0 0 0 171
    ceilDiv (8 * 3) 10 ≤ min 98 ((s.length - 126) / 15) ∧
    s.blockRead 126 18 (10 * ceilDiv (8 * 3) 10) = some (List.replicate 30 false) ∧
    residueZero (List.replicate 30 false) 3 s.ctx.uap = true := by decide +kernel

theorem test_wit_ev4_none : let s := symbols 0 0 1 171
    3 = min 98 ((s.length - 126) / 15) ∧ s.blockRead 126 18 (10 * 3) = some (List.replicate 30 false) ∧ 10 * 3 / 8 = 3 ∧
    residueZero (List.replicate 30 false) 3 s.ctx.uap = false := by decide +kernel

theorem test_wit_ev4_stopped : let s := symbols 0x600000000000 47 1 186
    3 ≤ min 98 ((s.length - 126) / 15) ∧ s.blockRead 126 18 (10 * 3) = some (List.replicate 30 false) ∧
    unfec23Block (s.symbols (126 + 15 * 3) 15) = none ∧ residueZero (List.replicate 30 false) 3 s.ctx.uap = false := by decide +kernel

theorem test_wit_ev4_fec : let s := symbols 0xc0000000 32 0 171
    3 ≤ min 98 ((s.length - 126) / 15) ∧ (s.blockRead 126 18 (10 * 2)).isSome = true ∧
    unfec23Block (s.symbols (126 + 15 * 2) 15) = none := by decide +kernel

theorem test_wit_ev4_fec_first : let s := symbols 3 2 0 171
    3 ≤ min 98 ((s.length - 126) / 15) ∧ s.blockRead 126 18 (10 * 0) = some [] ∧
    unfec23Block (s.symbols (126 + 15 * 0) 15) = none := by decide +kernel

theorem test_wit_ev4_short : min 98 (((symbols 0 0 0 170).length - 126) / 15) < 3 := by decide +kernel

end Sys2Proof.Tests
end

/-! # The rules of the state: what a step can do, and what every step keeps

The first part says once what each instruction can leave behind (`Effect`, `exec_effect`) and what each move of the host
can (`MoveEffect`, `hostStep_effect`). The frames and the invariants are case splits over these two. After them come the step
at the register port and the two ends of a payload stage, with the FHS packet. -/

namespace Sys2Proof.Machine

/-! ## Packet rows -/

/-- A packet row is the payload stage of its type, out of order but in `PayloadPending` (rules R170, R230). -/
theorem exec_packetInstr (p : PacketType) (f : HeaderFields) (s : State) :
    exec (packetInstr p f) s = packetStage s (handlerOf p) := by
  cases p <;> rfl

/-- In `PayloadPending` a packet row runs its payload stage. -/
theorem exec_packetInstr_pending (p : PacketType) (f : HeaderFields) {s : State} (h : s.phase = .payloadPending) :
    exec (packetInstr p f) s = .next (s.payloadStage (handlerOf p)) := by
  rw [exec_packetInstr, packetStage, command_run _ (by simp [h]), if_pos h]

/-- Only type 8 is DV (rule R72). -/
theorem packetTypeOf_eq_dv {c : BitVec 4} (h : packetTypeOf c = .dv) : c = 8 := by
  have code := code_packetTypeOf c
  rw [h] at code
  exact code.symm

/-! ## Handlers outside DV leave `VOICE` alone -/

theorem SameCellsOutside.refl (lo n : Nat) (s : State) : SameCellsOutside lo n s s := fun _ _ => rfl

theorem SameCellsOutside.trans {lo n : Nat} {s t u : State} (h : SameCellsOutside lo n s t)
    (k : SameCellsOutside lo n t u) : SameCellsOutside lo n s u := fun a ha => (k a ha).trans (h a ha)

/-- A buffer write stays inside the buffer, whatever is written (rule R44). -/
theorem sameCellsOutside_writeBuf (s : State) (r : Region) (off : Nat) (bits : Bits) :
    SameCellsOutside r.base r.size s (s.writeBuf r off bits) := by
  intro a ha
  rw [State.writeBuf_mem, Memory.get_put, dif_neg]
  rw [List.length_take]
  omega

/-- A write of `PAY` leaves the cells outside `PAY` alone. -/
theorem sameCellsOutside_writePay (s : State) (bits : Bits) :
    SameCellsOutside 0x2000 2744 s (s.writeBuf .pay 0 bits) := sameCellsOutside_writeBuf s .pay 0 bits

theorem plHeaded_keeps_outside_pay (base skip : Nat) (r : PacketRow) (s : State) :
    SameCellsOutside 0x2000 2744 s (plHeaded base skip r s).1 := by
  unfold plHeaded
  extract_lets size hb
  split
  · exact .refl _ _ s
  split
  · exact .refl _ _ s
  dsimp only
  generalize r.hdr + _ + (if r.crc = true then 2 else 0) = tot
  split
  · exact .refl _ _ s
  split
  · exact .refl _ _ s
  split
  · exact .refl _ _ s
  · exact sameCellsOutside_writePay (s.setPlHeader _ _) _

theorem plFhs_keeps_outside_pay (r : PacketRow) (s : State) : SameCellsOutside 0x2000 2744 s (plFhs r s).1 := by
  unfold plFhs
  extract_lets n m
  split
  · exact .refl _ _ s
  split
  · exact .refl _ _ s
  dsimp only
  split <;> exact sameCellsOutside_writePay (s.setPayloadLength _) _

theorem plHv_keeps_outside_pay (r : PacketRow) (s : State) : SameCellsOutside 0x2000 2744 s (plHv r s).1 := by
  unfold plHv
  extract_lets n m
  split
  · exact .refl _ _ s
  split
  · exact .refl _ _ s
  · exact sameCellsOutside_writePay s _

theorem plEvUncoded_keeps_outside_pay (maxtot : Nat) (s : State) :
    SameCellsOutside 0x2000 2744 s (plEvUncoded maxtot s).1 := by
  unfold plEvUncoded
  dsimp only
  split
  · exact .refl _ _ s
  split <;> exact sameCellsOutside_writePay s _

theorem plEv4_keeps_outside_pay (maxtot : Nat) (s : State) : SameCellsOutside 0x2000 2744 s (plEv4 maxtot s).1 := by
  unfold plEv4
  extract_lets nblk
  split
  · exact .refl _ _ s
  · exact sameCellsOutside_writePay s _

theorem plType7_keeps_outside_pay (r : PacketRow) (s : State) : SameCellsOutside 0x2000 2744 s (plType7 r s).1 := by
  have attempt := plEvUncoded_keeps_outside_pay r.maxBytes s
  unfold plType7
  split
  · rename_i t ht
    rwa [ht] at attempt
  · rename_i t o _ ht
    rw [ht] at attempt
    exact attempt.trans (plHv_keeps_outside_pay r (t.setPayloadLength 0))

/-- Every handler but DV's writes no buffer but `PAY` (rules R172 to R183). -/
theorem runHandler_keeps_outside_pay {r : PacketRow} (hr : r.handler ≠ .plDv) (s : State) :
    SameCellsOutside 0x2000 2744 s (runHandler r s).1 := by
  unfold runHandler
  cases h : r.handler with
  | plNone => exact .refl _ _ s
  | plFhs => exact plFhs_keeps_outside_pay r s
  | plDm => exact plHeaded_keeps_outside_pay _ _ r s
  | plDh => exact plHeaded_keeps_outside_pay _ _ r s
  | plHv => exact plHv_keeps_outside_pay r s
  | plType7 => exact plType7_keeps_outside_pay r s
  | plDv => exact absurd h hr
  | plAux1 => exact plHeaded_keeps_outside_pay _ _ r s
  | plEv4 => exact plEv4_keeps_outside_pay _ s
  | plEvUncoded => exact plEvUncoded_keeps_outside_pay _ s

/-- Only the row of DV names `PlDv` (rule R72). -/
theorem eq_dv_of_handler {p : PacketType} : (row p).handler = .plDv → p = .dv := by
  cases p <;> decide

/-- The handler of every type but DV writes no buffer but `PAY`. -/
theorem handlerOf_keeps_outside_pay {p : PacketType} (hp : p ≠ .dv) (s : State) :
    SameCellsOutside 0x2000 2744 s (handlerOf p s).1 := by
  rw [handlerOf_eq]
  exact runHandler_keeps_outside_pay (fun h => hp (eq_dv_of_handler h)) s

/-! ## The payload stage, said once -/

/-- The two ends of a payload stage (rule R170): back in `HeaderDecoded` with the payload registers cleared, or in
`PayloadDecoded` with a result. -/
def PayloadVerdict (t : State) : Prop :=
  (t.phase = .headerDecoded ∧ t.prog.result = .zero ∧ t.prog.havePayload = false ∧ t.prog.payloadHeader = 0 ∧
    t.prog.payloadLength = 0 ∧ t.prog.payloadInfo = 0 ∧ t.prog.fhsClk = 0 ∧ t.prog.fhsClkValid = false) ∨
  (t.phase = .payloadDecoded ∧ t.prog.result ≠ .zero ∧ t.prog.havePayload = true)

/-- All that a payload stage of type `p` does: the registers it may write, the buffers it may write, the bounds on what it
reports, and its two ends. -/
structure PayloadEnd (p : PacketType) (s t : State) : Prop where
  registers : t = { s with
    phase := t.phase
    res := t.res
    mem := t.mem
    prog := { t.prog with
      haveHeader := s.prog.haveHeader
      packetHeader := s.prog.packetHeader
      packetType := s.prog.packetType
      recLen := s.prog.recLen } }
  wf : s.mem.wf = true → t.mem.wf = true
  inMap : s.mem.inMap = true → t.mem.inMap = true
  cells : ∀ a, (a < 0x2000 ∨ 0x2AB8 ≤ a) → (a < 0x3200 ∨ 0x3250 ≤ a) → t.mem.get a = s.mem.get a
  onlyPay : p ≠ .dv → SameCellsOutside 0x2000 2744 s t
  bounds : PayloadBounds t
  verdict : PayloadVerdict t

/-- The payload stage of each type (rule R170). No type's handler is missing, so `Fault` is not entered. -/
theorem payloadStage_end (p : PacketType) (s : State) : PayloadEnd p s (s.payloadStage (handlerOf p)) := by
  have run := handlerOf_run p (PayloadBounds.start s)
  have pay := fun hp => handlerOf_keeps_outside_pay (p := p) hp (s.setPhase .payloadPending).clearPayload
  unfold State.payloadStage
  generalize handlerOf p (s.setPhase .payloadPending).clearPayload = r at run pay ⊢
  obtain ⟨u, o⟩ := r
  obtain ⟨⟨hreg, hwf, hmap, hcells⟩, hbounds, hknown, -⟩ := run
  dsimp only at *
  rcases endPayload_cases u o with ⟨ho, -⟩ | ⟨-, -, he⟩ | ⟨hr, he⟩
  · exact absurd ho hknown
  · rw [he]
    refine ⟨?_, hwf, hmap, hcells, pay, ?_, .inl (by simp)⟩
    · rw [hreg]; rfl
    · constructor <;> simp [State.payloadBytes]
  · rw [he]
    refine ⟨?_, hwf, hmap, hcells, pay, ?_, .inr ⟨rfl, hr, rfl⟩⟩
    · rw [hreg]; rfl
    · exact ⟨hbounds.1, hbounds.2, hbounds.3, hbounds.4, hbounds.5⟩

/-- The end of a payload stage does not depend on what `R0`, `R1` and `CAUSE` then hold. -/
theorem PayloadEnd.withRes {p : PacketType} {s t : State} (h : PayloadEnd p s t) (r : ResultRegs) :
    PayloadEnd p s { t with res := r } where
  registers := congrArg (fun u : State => { u with res := r }) h.registers
  wf := h.wf
  inMap := h.inMap
  cells := h.cells
  onlyPay := h.onlyPay
  bounds := ⟨h.bounds.1, h.bounds.2, h.bounds.3, h.bounds.4, h.bounds.5⟩
  verdict := h.verdict

/-! ## The instructions, said once -/

/-- The stand-alone commands that write `WB` (rule R41). -/
def workWriters : List Instr := [.host2air, .dewhiten, .unfec13, .unfec23, .acgen]

/-- The commands that write the context and restart the decode (rules R36, R213 to R218, R220). -/
def contextWriters : List Instr := [.clrCtx, .setLap, .setUap, .setNap, .setClock, .setWhitened]

/-- A value register whose presence flag is 0 reads 0 (rule R18). -/
structure ContextPresence (c : Context) : Prop where
  lap : c.haveLap = false → c.lap = 0
  uap : c.haveUap = false → c.uap = 0
  nap : c.haveNap = false → c.nap = 0

/-- `t` is `s` after a header stage that accepted the header `h` (rule R150). -/
structure HeaderAccepted (s t : State) (h : Bits) : Prop where
  created : s.phase = .created
  uapKnown : s.ctx.haveUap = true
  longEnough : 126 ≤ s.length
  registers : t = { (s.setHeader h).setPhase .headerDecoded with res := t.res }

/-- Where the payload stage of type `p` runs as an instruction of its own: `DECODE_PAYLOAD` of a decoded header, and a
packet row in `PayloadPending`. -/
def RunsPayload (i : Instr) (p : PacketType) (s : State) : Prop :=
  (i = .decodePayload ∧ s.phase = .headerDecoded ∧ p = packetTypeOf s.prog.packetType) ∨
  ((∃ f, i = packetInstr p f) ∧ s.phase = .payloadPending)

/-- Everything an instruction can leave behind. -/
inductive Effect (s : State) : Instr → State → Prop where
  /-- Results alone: a query, a refusal, or any instruction in `Fault`. -/
  | results (i : Instr) (r : ResultRegs) : Effect s i { s with res := r }
  /-- A stand-alone writer of `WB`. -/
  | work (i : Instr) (hi : i ∈ workWriters) (off : Nat) (bits : Bits) (r : ResultRegs) :
      Effect s i { s.writeBuf .wb off bits with res := r }
  /-- A context setter or `CLR_CTX`. -/
  | context (i : Instr) (hi : i ∈ contextWriters) (hf : s.phase ≠ .fault) (c : Context)
      (hc : ContextPresence s.ctx → ContextPresence c) (r : ResultRegs) :
      Effect s i { ({ s with ctx := c } : State).restart with res := r }
  | setChannel (b : Byte) (r : ResultRegs) :
      Effect s .setChannel { s with ctx := { s.ctx with channel := b }, res := r }
  | restart (hf : s.phase ≠ .fault) (r : ResultRegs) :
      Effect s .restart { s.clearProgress.setPhase .created with res := r }
  | create (hf : s.phase ≠ .fault) (o : Nat) (ho : o ≤ s.wlen) (r : ResultRegs) :
      Effect s .create
        { ({ s with range := ⟨BitVec.ofNat 12 o, BitVec.ofNat 12 (s.wlen - o)⟩ } : State).clearProgress.setPhase
          .created with res := r }
  | decodeHeader (t : State) (h : Bits) (ht : HeaderAccepted s t h) : Effect s .decodeHeader t
  /-- `DECODE` of a packet whose header was not accepted. -/
  | decodeNoHeader (hp : s.phase = .created) (r : ResultRegs) :
      Effect s .decode { s with prog := { s.prog with result := .zero }, res := r }
  /-- `DECODE` of a packet whose header was accepted in the state `u`. -/
  | decode (u t : State) (h : Bits) (hu : HeaderAccepted s u h)
      (ht : PayloadEnd (packetTypeOf u.prog.packetType) u t) : Effect s .decode t
  | payload (i : Instr) (p : PacketType) (t : State) (hi : RunsPayload i p s) (ht : PayloadEnd p s t) : Effect s i t
  | emit (hp : s.phase = .payloadDecoded) (bits : Bits) (r : ResultRegs) :
      Effect s .emit
        { s.writeBuf .record 0 bits with
          prog := { s.prog with recLen := BitVec.ofNat 9 (9 + s.payloadBytes) }
          res := r }

/-- An instruction in `Fault` changes nothing, and an instruction whose body ends in `t` elsewhere leaves `t`. -/
theorem command_effect {i : Instr} {s t : State} {body : State → State} (h : command s body = .next t)
    (hb : s.phase ≠ .fault → Effect s i (body s)) : Effect s i t := by
  rcases command_next h with ⟨-, rfl⟩ | ⟨hf, rfl⟩
  · exact .results i t.res
  · exact hb hf

/-- A context setter keeps an absent value at 0 where its own write does (rule R18). -/
theorem setter_effect {i : Instr} {s t : State} {f : Context → Context} (hi : i ∈ contextWriters)
    (h : setter s f = .next t) (hc : ContextPresence s.ctx → ContextPresence (f s.ctx)) : Effect s i t :=
  command_effect h fun hf => .context i hi hf (f s.ctx) hc _

/-- `HeaderBits` needs the packet's first 126 symbols (rule R145). -/
theorem length_of_headerBits {s : State} {c : Nat} {h : Bits} (hb : s.headerBits c = .bits h) : 126 ≤ s.length := by
  unfold State.headerBits at hb
  split at hb
  · cases hb
  · rename_i hlen
    exact Nat.le_of_not_lt hlen

/-- What the header stage leaves of a created packet: results alone, or the header accepted. -/
theorem headerStage_created {s : State} (hp : s.phase = .created) (hu : s.ctx.haveUap = true) :
    (∃ r, s.headerStage = { s with res := r }) ∨ ∃ h, HeaderAccepted s s.headerStage h := by
  rcases headerStage_cases s with ⟨r, hr⟩ | ⟨h, hb, -, hs⟩
  · refine .inl ⟨r, ?_⟩
    rw [hr, ← hp]
  · exact .inr ⟨h, hp, hu, length_of_headerBits hb, by rw [hs]; rfl⟩

theorem execDecodeHeader_effect {s t : State} (h : execDecodeHeader s = .next t) : Effect s .decodeHeader t := by
  refine command_effect h fun _ => ?_
  split
  · exact .results _ _
  split
  · exact .results _ _
  rename_i hp hu
  rcases headerStage_created (by simpa using hp) (by simpa using hu) with ⟨r, hr⟩ | ⟨b, hb⟩
  · rw [hr]; exact .results _ r
  · exact .decodeHeader _ b hb

theorem execDecode_effect {s t : State} (h : execDecode s = .next t) : Effect s .decode t := by
  refine command_effect h fun _ => ?_
  split
  · exact .results _ _
  split
  · exact .results _ _
  rename_i hp hu
  replace hp : s.phase = .created := by simpa using hp
  rcases headerStage_created hp (by simpa using hu) with ⟨r, hr⟩ | ⟨b, hb⟩
  · rw [hr, if_pos (by simp [hp])]
    exact .decodeNoHeader hp _
  · have decoded : s.headerStage.phase = .headerDecoded := by rw [hb.registers]; rfl
    rw [if_neg (by simp [decoded])]
    have stage := payloadStage_end (packetTypeOf s.headerStage.prog.packetType) s.headerStage
    unfold State.endDecode
    split
    · exact .decode _ _ b hb stage
    · exact .decode _ _ b hb (stage.withRes _)

theorem packetInstr_effect (p : PacketType) (f : HeaderFields) {s t : State}
    (h : exec (packetInstr p f) s = .next t) : Effect s (packetInstr p f) t := by
  rw [exec_packetInstr] at h
  refine command_effect h fun _ => ?_
  split
  · exact .payload _ p _ (.inr ⟨⟨f, rfl⟩, ‹_›⟩) (payloadStage_end p s)
  · exact .results _ _

/-- Every instruction has one of the effects listed (rule R41's last column and the rule of each command). -/
theorem exec_effect {i : Instr} {s t : State} (h : exec i s = .next t) : Effect s i t := by
  unfold exec at h
  cases i with
  | nop => exact command_effect h fun _ => .results _ _
  | restart =>
    refine command_effect h fun hf => ?_
    split
    · exact .results _ _
    · exact .restart hf _
  | clrCtx =>
    exact command_effect h fun hf =>
      .context _ (by decide) hf Context.cleared (fun _ => ⟨fun _ => rfl, fun _ => rfl, fun _ => rfl⟩) _
  | air2host =>
    refine command_effect h fun _ => ?_
    dsimp only
    split <;> exact .results _ _
  | host2air =>
    refine command_effect h fun _ => ?_
    dsimp only
    split
    · exact .results _ _
    · exact .work _ (by decide) _ _ _
  | rev8 => exact command_effect h fun _ => .results _ _
  | dewhiten =>
    refine command_effect h fun _ => ?_
    dsimp only
    split
    · exact .results _ _
    · exact .work _ (by decide) _ _ _
  | unfec13 =>
    refine command_effect h fun _ => ?_
    dsimp only
    split
    · exact .results _ _
    · exact .work _ (by decide) _ _ _
  | unfec23 =>
    refine command_effect h fun _ => ?_
    dsimp only
    split
    · exact .results _ _
    split
    · exact .results _ _
    · exact .work _ (by decide) _ _ _
  | acgen => exact command_effect h fun _ => .work _ (by decide) _ _ _
  | sniff =>
    refine command_effect h fun _ => ?_
    dsimp only
    split
    · exact .results _ _
    split <;> exact .results _ _
  | verify =>
    refine command_effect h fun _ => ?_
    dsimp only
    split <;> exact .results _ _
  | hec2uap => exact command_effect h fun _ => .results _ _
  | probeUap =>
    refine command_effect h fun _ => ?_
    split
    · exact .results _ _
    split <;> exact .results _ _
  | decodeHeader => exact execDecodeHeader_effect h
  | crcgen =>
    refine command_effect h fun _ => ?_
    dsimp only
    split <;> exact .results _ _
  | crcchk =>
    refine command_effect h fun _ => ?_
    dsimp only
    split <;> exact .results _ _
  | decodePayload =>
    refine command_effect h fun _ => ?_
    split
    · exact .results _ _
    · rename_i hp
      exact .payload _ _ _ (.inl ⟨rfl, by simpa using hp, rfl⟩) (payloadStage_end _ s)
  | create =>
    refine command_effect h fun hf => ?_
    dsimp only
    split
    · exact .results _ _
    · exact .create hf _ (Nat.le_of_not_lt ‹_›) _
  | setLap => exact setter_effect (by decide) h fun hc => ⟨nofun, hc.uap, hc.nap⟩
  | setUap => exact setter_effect (by decide) h fun hc => ⟨hc.lap, nofun, hc.nap⟩
  | setNap => exact setter_effect (by decide) h fun hc => ⟨hc.lap, hc.uap, nofun⟩
  | setClock => exact setter_effect (by decide) h fun hc => ⟨hc.lap, hc.uap, hc.nap⟩
  | setChannel => exact command_effect h fun _ => .setChannel _ _
  | setWhitened => exact setter_effect (by decide) h fun hc => ⟨hc.lap, hc.uap, hc.nap⟩
  | decode => exact execDecode_effect h
  | emit =>
    refine command_effect h fun _ => ?_
    dsimp only
    split
    · exact .results _ _
    · rename_i hp
      exact .emit (by simpa using hp) _ _
  | pktNull f => exact packetInstr_effect .null f h
  | pktPoll f => exact packetInstr_effect .poll f h
  | pktFhs f => exact packetInstr_effect .fhs f h
  | pktDm1 f => exact packetInstr_effect .dm1 f h
  | pktDh1 f => exact packetInstr_effect .dh1 f h
  | pktHv1 f => exact packetInstr_effect .hv1 f h
  | pktHv2 f => exact packetInstr_effect .hv2 f h
  | pktHv3Ev3 f => exact packetInstr_effect .hv3Ev3 f h
  | pktDv f => exact packetInstr_effect .dv f h
  | pktAux1 f => exact packetInstr_effect .aux1 f h
  | pktDm3 f => exact packetInstr_effect .dm3 f h
  | pktDh3 f => exact packetInstr_effect .dh3 f h
  | pktEv4 f => exact packetInstr_effect .ev4 f h
  | pktEv5 f => exact packetInstr_effect .ev5 f h
  | pktDm5 f => exact packetInstr_effect .dm5 f h
  | pktDh5 f => exact packetInstr_effect .dh5 f h

/-! ## The host's moves and the step, said once -/

/-- Everything a move of the host can leave behind (rules R12 to R16, R40, R47, R48, R270), none at all included. -/
inductive MoveEffect (s : State) : State → Prop where
  /-- A read, an ignored write, or a write of `A0` to `A3` or `SYM_ADDR`. -/
  | port (hp : s.phase ≠ .payloadPending) (o : OperandRegs) (a : BitVec 12) (q : List HostAction) (d : Word) :
      MoveEffect s { s with ops := o, port := { s.port with symAddr := a }, queue := q, readData := d }
  | loadSymbols (v : Word) : MoveEffect s (s.popMove.loadSymbols v)
  | writeWlen (v : Word) : MoveEffect s (s.popMove.writeWlen v)
  | reset : MoveEffect s s.popMove.applyReset

/-- What a write to a register other than `CMD` can do (rules R14, R16, R40). -/
theorem writeReg_cases (s : State) (r : BitVec 6) (v : Word) :
    (∃ o a, s.writeReg r v = { s with ops := o, port := { s.port with symAddr := a } }) ∨
    s.writeReg r v = s.loadSymbols v ∨ s.writeReg r v = s.writeWlen v := by
  unfold State.writeReg
  split
  case h_6 => exact .inr (.inl rfl)
  case h_7 => exact .inr (.inr rfl)
  all_goals exact .inl ⟨_, _, rfl⟩

/-- In `PayloadPending` the core finds nothing to run only where a reset is due (rule R270). -/
theorem reset_due_of_nextWord_none {s : State} (h : s.nextWord = none) (hp : s.phase = .payloadPending) :
    s.queue.head? = some .reset := by
  refine Decidable.byContradiction fun hq => ?_
  rw [(nextWord_header_iff s s.dispatchWord).2 ⟨hp, rfl, hq⟩] at h
  cases h

theorem hostStep_effect {s : State} (h : s.nextWord = none) : MoveEffect s s.hostStep := by
  have pending := reset_due_of_nextWord_none h
  unfold State.hostStep
  cases hq : s.queue with
  | nil =>
    rw [hq] at pending
    exact .port (fun hp => by simpa using pending hp) s.ops s.port.symAddr s.queue s.readData
  | cons m q =>
    rw [hq] at pending
    cases m with
    | reset => exact .reset
    | read r => exact .port (fun hp => by simpa using pending hp) s.ops s.port.symAddr _ _
    | write r v =>
      rcases writeReg_cases s.popMove r v with ⟨o, a, e⟩ | e | e
      · dsimp only [State.hostMove]
        rw [e]
        exact .port (fun hp => by simpa using pending hp) o a _ _
      · dsimp only [State.hostMove]
        rw [e]
        exact .loadSymbols v
      · dsimp only [State.hostMove]
        rw [e]
        exact .writeWlen v

/-- Everything a step can leave behind: outside `PayloadPending` the effect of a command or the cause of a word that is
none, with the host's move used up; in `PayloadPending` the payload stage that is due; or the host's move. -/
theorem step_effect {s t : State} (h : step s = .next t) :
    (s.phase ≠ .payloadPending ∧ ∃ i, Effect s.popMove i t) ∨
    (s.phase = .payloadPending ∧ ∃ p, PayloadEnd p s t) ∨
    (s.phase ≠ .payloadPending ∧ t = s.popMove.raise .illegalCommand) ∨ MoveEffect s t := by
  rcases step_cases h with ⟨w, i, hw, hi, ht⟩ | ⟨w, e, hw, he, ht⟩ | ⟨hn, ht⟩
  · cases w with
    | command c =>
      have hp := ((nextWord_command_iff s c).1 hw).1
      rw [State.fetched, if_neg hp] at ht
      exact .inl ⟨hp, i, exec_effect ht⟩
    | header d =>
      have hp := ((nextWord_header_iff s d).1 hw).1
      rw [decode_header_ok] at hi
      cases hi
      rw [State.fetched, if_pos hp, decodeHeaderWord, exec_packetInstr_pending _ _ hp] at ht
      cases ht
      exact .inr (.inl ⟨hp, _, payloadStage_end _ s⟩)
  · cases w with
    | command c =>
      have hp := ((nextWord_command_iff s c).1 hw).1
      rw [State.fetched, if_neg hp] at ht
      exact .inr (.inr (.inl ⟨hp, ht⟩))
    | header d => rw [decode_header_ok] at he; cases he
  · rw [ht]; exact .inr (.inr (.inr (hostStep_effect hn)))

/-! ## Every step keeps the form of the memory -/

theorem MemoryForm.writeBuf {s : State} (h : MemoryForm s) (r : Region) (hr : r.isBuffer = true) (off : Nat)
    (bits : Bits) : MemoryForm (s.writeBuf r off bits) :=
  ⟨writeBuf_wf h.1 r off bits, writeBuf_inMap h.2 r hr off bits⟩

/-- The form of the memory is a fact about the memory alone. -/
theorem MemoryForm.of_mem {s t : State} (h : MemoryForm s) (hm : t.mem = s.mem) : MemoryForm t := by
  unfold MemoryForm
  rw [hm]
  exact h

theorem PayloadEnd.memoryForm {p : PacketType} {s t : State} (h : PayloadEnd p s t) (hs : MemoryForm s) :
    MemoryForm t := ⟨h.wf hs.1, h.inMap hs.2⟩

/-- An accepted header is written to registers alone. -/
theorem HeaderAccepted.mem {s t : State} {b : Bits} (h : HeaderAccepted s t b) : t.mem = s.mem := by
  rw [h.registers]; rfl

theorem Effect.memoryForm {i : Instr} {s t : State} (h : Effect s i t) (hs : MemoryForm s) : MemoryForm t := by
  cases h with
  | results => exact hs
  | work i hi off bits r => exact hs.writeBuf .wb rfl off bits
  | context => exact hs
  | setChannel => exact hs
  | restart => exact hs
  | create => exact hs
  | decodeHeader t b ht => exact hs.of_mem ht.mem
  | decodeNoHeader => exact hs
  | decode u t b hu ht => exact ht.memoryForm (hs.of_mem hu.mem)
  | payload i p t hi ht => exact ht.memoryForm hs
  | emit hp bits r => exact hs.writeBuf .record rfl 0 bits

theorem MoveEffect.memoryForm {s t : State} (h : MoveEffect s t) (hs : MemoryForm s) : MemoryForm t := by
  cases h with
  | port => exact hs
  | loadSymbols v => exact hs.writeBuf .sym rfl _ _
  | writeWlen v => exact hs
  | reset => exact ⟨rfl, rfl⟩

/-- Settles O18, by the effects a step can have: each writes a buffer through `writeBuf`, or no cell. -/
theorem stepKeepsMemoryForm : Obligations.StepKeepsMemoryForm := by
  intro s t hs h
  rcases step_effect h with ⟨-, i, he⟩ | ⟨-, p, hp⟩ | ⟨-, rfl⟩ | hm
  · exact he.memoryForm hs
  · exact hp.memoryForm hs
  · exact hs
  · exact hm.memoryForm hs

/-! ## Every step keeps the invariant of the registers -/

section ContextInvariant
variable {s t : State}

theorem ContextInvariant.presence (h : ContextInvariant s) : ContextPresence s.ctx :=
  ⟨h.lapAbsent, h.uapAbsent, h.napAbsent⟩

/-- Outside `PayloadDecoded` the result is 0 (rule R29). -/
theorem ContextInvariant.result_zero (h : ContextInvariant s) (hp : s.phase ≠ .payloadDecoded) :
    s.prog.result = .zero := Decidable.byContradiction fun hr => hp (h.result.1 hr)

/-- The invariant does not speak of the operands, the results, `SYM_ADDR`, `CHANNEL`, the buffers, nor of the host. -/
theorem ContextInvariant.frame (h : ContextInvariant s) (o : OperandRegs) (r : ResultRegs) (a : BitVec 12) (b : Byte)
    (m : Memory) (q : List HostAction) (d : Word) :
    ContextInvariant { s with
      ops := o, res := r, port := { s.port with symAddr := a }, ctx := { s.ctx with channel := b }
      mem := m, queue := q, readData := d } where
  rangeInWindow := h.rangeInWindow
  windowFits := h.windowFits
  lapAbsent := h.lapAbsent
  uapAbsent := h.uapAbsent
  napAbsent := h.napAbsent
  headerStageDone := h.headerStageDone
  faultSticky := h.faultSticky
  header := h.header
  payload := h.payload
  uapKnown := h.uapKnown
  headerRead := h.headerRead
  typeIsHeaders := h.typeIsHeaders
  payloadFits := h.payloadFits
  infoReserved := h.infoReserved
  infoWidth := h.infoWidth
  headerAbove := h.headerAbove
  recordLength := h.recordLength
  fhsAbsent := h.fhsAbsent
  result := h.result
  payloadCleared := h.payloadCleared

/-- With the decode progress cleared the invariant is what it says of the window, the context and `FAULT`. -/
theorem contextInvariant_of_cleared (range : s.pktBase + s.length ≤ s.wlen) (window : s.wlen ≤ 3125)
    (presence : ContextPresence s.ctx) (progress : s.prog = Progress.cleared)
    (phase : s.phase = .idle ∨ s.phase = .created ∨ s.phase = .fault)
    (fault : s.faultFlag = true ↔ s.phase = .fault) : ContextInvariant s := by
  have noHeader : s.phase.hasHeader = false := by rcases phase with e | e | e <;> rw [e] <;> rfl
  have noPayload : s.phase ≠ .payloadDecoded := by rcases phase with e | e | e <;> simp [e]
  constructor
  case rangeInWindow => exact range
  case windowFits => exact window
  case lapAbsent => exact presence.lap
  case uapAbsent => exact presence.uap
  case napAbsent => exact presence.nap
  case headerStageDone => rcases phase with e | e | e <;> simp [e]
  case faultSticky => exact fault
  all_goals simp [progress, Progress.cleared, noHeader, noPayload, State.payloadBytes, headerType]

/-- Dropping or restarting the decode from a state outside `Fault` ends outside `Fault`. -/
theorem ContextInvariant.restarted (h : ContextInvariant s) (hf : s.phase ≠ .fault) {c : Context}
    (hc : ContextPresence c) (r : ResultRegs) :
    ContextInvariant { ({ s with ctx := c } : State).restart with res := r } := by
  have noFault : s.faultFlag ≠ true := fun e => hf (h.faultSticky.1 e)
  refine contextInvariant_of_cleared h.rangeInWindow h.windowFits hc rfl ?_ ?_ <;>
    by_cases hi : s.phase = .idle <;> simp [hi, noFault]

theorem ContextInvariant.created (h : ContextInvariant s) (hf : s.phase ≠ .fault) {g : PacketRange}
    (hg : g.base.toNat + g.length.toNat ≤ s.wlen) (r : ResultRegs) :
    ContextInvariant { ({ s with range := g } : State).clearProgress.setPhase .created with res := r } := by
  have noFault : s.faultFlag ≠ true := fun e => hf (h.faultSticky.1 e)
  exact contextInvariant_of_cleared hg h.windowFits h.presence rfl (.inr (.inl rfl)) (by simp [noFault])

/-- `PACKET_TYPE` and `PACKET_HEADER` are written from the same bits (rules R66, R150). -/
theorem headerType_headerValue (h : Bits) :
    headerType (headerValue h) = BitVec.ofNat 4 (airToHost (slice h 3 4) 4) := by
  apply BitVec.eq_of_getLsbD_eq
  intro i hi
  simp only [headerType, headerValue, slice, airToHost, BitVec.getLsbD_extractLsb', BitVec.getLsbD_ofNat,
    airValue_testBit, List.getD_eq_getElem?_getD, List.getElem?_take, List.getElem?_drop]
  simp [hi, show 3 + i < 18 by omega]

theorem HeaderAccepted.contextInvariant {b : Bits} (h : HeaderAccepted s t b) (hs : ContextInvariant s) :
    ContextInvariant t := by
  obtain ⟨hp, hu, hl, ht⟩ := h
  have noFault : s.faultFlag ≠ true := fun e => by simpa [hp] using hs.faultSticky.1 e
  have noPayload : ¬ s.prog.havePayload = true := fun e => by simpa [hp] using hs.payload.1 e
  have noResult := hs.result_zero (by simp [hp])
  obtain ⟨ph, pl, pi, fv, rl⟩ := hs.payloadCleared (by simp [hp])
  rw [ht]
  constructor
  case rangeInWindow => exact hs.rangeInWindow
  case windowFits => exact hs.windowFits
  case lapAbsent => exact hs.lapAbsent
  case uapAbsent => exact hs.uapAbsent
  case napAbsent => exact hs.napAbsent
  case headerRead => exact fun _ => hl
  case typeIsHeaders => exact (headerType_headerValue b).symm
  case fhsAbsent => exact hs.fhsAbsent
  all_goals simp [Phase.hasHeader, State.payloadBytes, noFault, noPayload, noResult, hu, ph, pl, pi, fv, rl]

theorem PayloadEnd.contextInvariant {p : PacketType} (h : PayloadEnd p s t) (hs : ContextInvariant s)
    (hh : s.phase.hasHeader = true) (hd : s.phase ≠ .payloadDecoded) : ContextInvariant t := by
  have notFault : s.phase ≠ .fault := by rintro e; simp [e, Phase.hasHeader] at hh
  have noFault : s.faultFlag ≠ true := fun e => notFault (hs.faultSticky.1 e)
  have haveHeader := (hs.header notFault).2 hh
  have uapKnown := hs.uapKnown hh
  have headerRead := hs.headerRead hh
  obtain ⟨-, -, -, -, recLen⟩ := hs.payloadCleared hd
  obtain ⟨hreg, -, -, -, -, hb, hv⟩ := h
  rw [hreg]
  clear hreg
  constructor
  case rangeInWindow => exact hs.rangeInWindow
  case windowFits => exact hs.windowFits
  case lapAbsent => exact hs.lapAbsent
  case uapAbsent => exact hs.uapAbsent
  case napAbsent => exact hs.napAbsent
  case uapKnown => exact fun _ => uapKnown
  case headerRead => exact fun _ => headerRead
  case typeIsHeaders => exact hs.typeIsHeaders
  case payloadFits => exact hb.length
  case infoReserved => exact hb.reserved
  case infoWidth => exact hb.width
  case headerAbove => exact hb.header
  case recordLength => exact .inl recLen
  case fhsAbsent => exact hb.clock
  all_goals
    rcases hv with ⟨hp, hr, hpay, hph, hpl, hpi, -, hfv⟩ | ⟨hp, hr, hpay⟩ <;>
      simp [Phase.hasHeader, *]

theorem ContextInvariant.emitted (h : ContextInvariant s) (hp : s.phase = .payloadDecoded) (m : Memory)
    (r : ResultRegs) : ContextInvariant { s with
      mem := m, res := r, prog := { s.prog with recLen := BitVec.ofNat 9 (9 + s.payloadBytes) } } where
  rangeInWindow := h.rangeInWindow
  windowFits := h.windowFits
  lapAbsent := h.lapAbsent
  uapAbsent := h.uapAbsent
  napAbsent := h.napAbsent
  headerStageDone := h.headerStageDone
  faultSticky := h.faultSticky
  header := h.header
  payload := h.payload
  uapKnown := h.uapKnown
  headerRead := h.headerRead
  typeIsHeaders := h.typeIsHeaders
  payloadFits := h.payloadFits
  infoReserved := h.infoReserved
  infoWidth := h.infoWidth
  headerAbove := h.headerAbove
  fhsAbsent := h.fhsAbsent
  result := h.result
  recordLength := .inr <| by
    have fits := h.payloadFits
    simp only [BitVec.toNat_ofNat]
    omega
  payloadCleared e := absurd hp e

/-- `RESULT` is already 0 in `Created`, where `DECODE` clears it again. -/
theorem ContextInvariant.noHeader (h : ContextInvariant s) (hp : s.phase = .created) (r : ResultRegs) :
    ContextInvariant { s with prog := { s.prog with result := .zero }, res := r } := by
  have noResult := h.result_zero (by simp [hp])
  rw [← noResult]
  exact h.frame _ r _ _ _ _ _

/-- A header is decoded where a payload stage runs, and no payload is. -/
theorem RunsPayload.phase {i : Instr} {p : PacketType} (h : RunsPayload i p s) :
    s.phase.hasHeader = true ∧ s.phase ≠ .payloadDecoded := by
  rcases h with ⟨-, e, -⟩ | ⟨-, e⟩ <;> rw [e] <;> exact ⟨rfl, by simp⟩

theorem Effect.contextInvariant {i : Instr} (h : Effect s i t) (hs : ContextInvariant s) : ContextInvariant t := by
  cases h with
  | results i r => exact hs.frame _ r _ _ _ _ _
  | work i hi off bits r => exact hs.frame _ r _ _ _ _ _
  | context i hi hf c hc r => exact hs.restarted hf (hc hs.presence) r
  | setChannel b r => exact hs.frame _ r _ b _ _ _
  | restart hf r => exact hs.created hf hs.rangeInWindow r
  | create hf o ho r =>
    refine hs.created hf ?_ r
    have fits := hs.windowFits
    simp only [BitVec.toNat_ofNat]
    omega
  | decodeHeader t b ht => exact ht.contextInvariant hs
  | decodeNoHeader hp r => exact hs.noHeader hp r
  | decode u t b hu ht =>
    have decoded : u.phase = .headerDecoded := by rw [hu.registers]; rfl
    exact ht.contextInvariant (hu.contextInvariant hs) (by rw [decoded]; rfl) (by simp [decoded])
  | payload i p t hi ht => exact ht.contextInvariant hs hi.phase.1 hi.phase.2
  | emit hp bits r => exact hs.emitted hp _ r

/-- Dropping the packet empties its range and ends in `Idle`, or in `Fault` (rule R48). -/
theorem contextInvariant_dropPacket (window : s.wlen ≤ 3125) (presence : ContextPresence s.ctx)
    (fault : s.faultFlag = true ↔ s.phase = .fault) : ContextInvariant s.dropPacket := by
  refine contextInvariant_of_cleared (by simp [State.pktBase, State.length]) window presence rfl ?_ ?_ <;>
    by_cases hf : s.phase = .fault <;> simp [fault, hf]

theorem contextInvariant_reset (q : List HostAction) (d : Word) :
    ContextInvariant { State.reset with queue := q, readData := d } :=
  contextInvariant_of_cleared (Nat.le_refl 0) (Nat.zero_le 3125) ⟨fun _ => rfl, fun _ => rfl, fun _ => rfl⟩ rfl
    (.inl rfl) ⟨nofun, nofun⟩

theorem MoveEffect.contextInvariant (h : MoveEffect s t) (hs : ContextInvariant s) : ContextInvariant t := by
  cases h with
  | port hp o a q d => exact hs.frame o _ a _ _ q d
  | loadSymbols v => exact contextInvariant_dropPacket hs.windowFits hs.presence hs.faultSticky
  | writeWlen v =>
    refine contextInvariant_dropPacket ?_ hs.presence hs.faultSticky
    simp only [State.wlen, hw_maxSymbols, BitVec.toNat_ofNat]
    omega
  | reset => exact contextInvariant_reset _ _

end ContextInvariant

/-- Settles O19: the invariant is inductive, effect by effect. -/
theorem stepKeepsContextInvariant : Obligations.StepKeepsContextInvariant := by
  intro s t hs h
  have popped : ContextInvariant s.popMove := hs.frame _ _ _ _ _ _ _
  rcases step_effect h with ⟨-, i, he⟩ | ⟨hp, p, he⟩ | ⟨-, rfl⟩ | hm
  · exact he.contextInvariant popped
  · exact he.contextInvariant hs (by rw [hp]; rfl) (by simp [hp])
  · exact popped.frame _ _ _ _ _ _ _
  · exact hm.contextInvariant hs

/-- Settles O17. -/
theorem resetMeetsInvariants : Obligations.ResetMeetsInvariants :=
  ⟨⟨rfl, rfl⟩, contextInvariant_reset [] 0, nofun⟩

/-! ## No step ends in a transient state -/

/-- Outside the transient states `BUSY` reads 0 (rules R13, R30). -/
theorem busy_false_iff (s : State) : s.busy = false ↔ s.phase ≠ .headerPending ∧ s.phase ≠ .payloadPending := by
  unfold State.busy
  cases s.phase <;> simp

theorem PayloadEnd.busy {p : PacketType} {s t : State} (h : PayloadEnd p s t) : t.busy = false := by
  rcases h.verdict with ⟨e, -⟩ | ⟨e, -⟩ <;> simp [busy_false_iff, e]

/-- An instruction that starts at rest ends at rest. -/
theorem Effect.busy {i : Instr} {s t : State} (h : Effect s i t) (hs : s.busy = false) : t.busy = false := by
  cases h with
  | results => exact hs
  | work => exact hs
  | context => by_cases hi : s.phase = .idle <;> simp [busy_false_iff, hi]
  | setChannel => exact hs
  | restart => rfl
  | create => rfl
  | decodeHeader t b ht => rw [ht.registers]; rfl
  | decodeNoHeader => exact hs
  | decode u t b hu ht => exact ht.busy
  | payload i p t hi ht => exact ht.busy
  | emit => exact hs

/-- A move of the host that the core leaves to it ends at rest. -/
theorem MoveEffect.busy {s t : State} (h : MoveEffect s t) (hs : s.phase ≠ .headerPending) : t.busy = false := by
  cases h with
  | port hp => exact (busy_false_iff s).2 ⟨hs, hp⟩
  | loadSymbols v =>
    rw [State.loadSymbols, busy_false_iff, State.dropPacket_phase]
    split <;> simp
  | writeWlen v =>
    rw [State.writeWlen, busy_false_iff, State.dropPacket_phase]
    split <;> simp
  | reset => rfl

/-- Settles O21: what a command or the host leaves is as much at rest as what it found, and a payload stage ends in
`HeaderDecoded` or `PayloadDecoded`. -/
theorem stepEndsAtRest : Obligations.StepEndsAtRest := by
  intro s t hs h
  rcases step_effect h with ⟨hp, i, he⟩ | ⟨-, p, he⟩ | ⟨hp, rfl⟩ | hm
  · exact he.busy ((busy_false_iff _).2 ⟨hs, hp⟩)
  · exact he.busy
  · exact (busy_false_iff _).2 ⟨hs, hp⟩
  · exact hm.busy hs

/-! ## Which instruction writes which part of the state -/

section Writers
variable {s t : State} {i : Instr}

/-! ### Registers that a stage of the decode leaves alone -/

theorem PayloadEnd.ctx {p : PacketType} (h : PayloadEnd p s t) : t.ctx = s.ctx := by rw [h.registers]
theorem PayloadEnd.range {p : PacketType} (h : PayloadEnd p s t) : t.range = s.range := by rw [h.registers]
theorem PayloadEnd.ops {p : PacketType} (h : PayloadEnd p s t) : t.ops = s.ops := by rw [h.registers]
theorem PayloadEnd.port {p : PacketType} (h : PayloadEnd p s t) : t.port = s.port := by rw [h.registers]
theorem PayloadEnd.queue {p : PacketType} (h : PayloadEnd p s t) : t.queue = s.queue := by rw [h.registers]
theorem PayloadEnd.readData {p : PacketType} (h : PayloadEnd p s t) : t.readData = s.readData := by rw [h.registers]
theorem PayloadEnd.recLen {p : PacketType} (h : PayloadEnd p s t) : t.prog.recLen = s.prog.recLen := by
  rw [h.registers]
theorem PayloadEnd.packetType {p : PacketType} (h : PayloadEnd p s t) : t.prog.packetType = s.prog.packetType := by
  rw [h.registers]

theorem HeaderAccepted.ctx {b : Bits} (h : HeaderAccepted s t b) : t.ctx = s.ctx := by rw [h.registers]; rfl
theorem HeaderAccepted.range {b : Bits} (h : HeaderAccepted s t b) : t.range = s.range := by rw [h.registers]; rfl
theorem HeaderAccepted.ops {b : Bits} (h : HeaderAccepted s t b) : t.ops = s.ops := by rw [h.registers]; rfl
theorem HeaderAccepted.port {b : Bits} (h : HeaderAccepted s t b) : t.port = s.port := by rw [h.registers]; rfl
theorem HeaderAccepted.queue {b : Bits} (h : HeaderAccepted s t b) : t.queue = s.queue := by rw [h.registers]; rfl
theorem HeaderAccepted.readData {b : Bits} (h : HeaderAccepted s t b) : t.readData = s.readData := by
  rw [h.registers]; rfl
theorem HeaderAccepted.recLen {b : Bits} (h : HeaderAccepted s t b) : t.prog.recLen = s.prog.recLen := by
  rw [h.registers]; rfl

/-! ### Registers that an instruction leaves alone -/

/-- The operands, the load port and the model's host fields have no writer among the instructions (rules R14, R16). -/
theorem Effect.hostRegisters (h : Effect s i t) :
    t.ops = s.ops ∧ t.port = s.port ∧ t.queue = s.queue ∧ t.readData = s.readData := by
  cases h with
  | decodeHeader t b ht => exact ⟨ht.ops, ht.port, ht.queue, ht.readData⟩
  | decode u t b hu ht =>
    exact ⟨ht.ops.trans hu.ops, ht.port.trans hu.port, ht.queue.trans hu.queue, ht.readData.trans hu.readData⟩
  | payload i p t hi ht => exact ⟨ht.ops, ht.port, ht.queue, ht.readData⟩
  | _ => exact ⟨rfl, rfl, rfl, rfl⟩

/-- The writers of the context (rules R18 to R20). -/
theorem Effect.ctx (h : Effect s i t) (hi : i ∉ contextWriters) (hc : i ≠ .setChannel) : t.ctx = s.ctx := by
  cases h with
  | context i hw => exact absurd hw hi
  | setChannel => exact absurd rfl hc
  | decodeHeader t b ht => exact ht.ctx
  | decode u t b hu ht => exact ht.ctx.trans hu.ctx
  | payload i p t hp ht => exact ht.ctx
  | _ => rfl

/-- The writer of the packet range (rule R17). -/
theorem Effect.range (h : Effect s i t) (hi : i ≠ .create) : t.range = s.range := by
  cases h with
  | create => exact absurd rfl hi
  | decodeHeader t b ht => exact ht.range
  | decode u t b hu ht => exact ht.range.trans hu.range
  | payload i p t hp ht => exact ht.range
  | _ => rfl

/-- The writers of `REC_LEN` (rule R28): a cleared decode, and `EMIT`. -/
theorem Effect.recLen (h : Effect s i t) : t.prog.recLen = s.prog.recLen ∨ t.prog.recLen = 0 ∨ i = .emit := by
  cases h with
  | context => exact .inr (.inl rfl)
  | restart => exact .inr (.inl rfl)
  | create => exact .inr (.inl rfl)
  | decodeHeader t b ht => exact .inl ht.recLen
  | decode u t b hu ht => exact .inl (ht.recLen.trans hu.recLen)
  | payload i p t hp ht => exact .inl ht.recLen
  | emit => exact .inr (.inr rfl)
  | _ => exact .inl rfl

/-! ### Buffers -/

/-- `i` decodes a payload of type `p` on the way from `s` to `t`. -/
def DecodesPayload (i : Instr) (p : PacketType) (s t : State) : Prop :=
  RunsPayload i p s ∨ (i = .decode ∧ p = packetTypeOf t.prog.packetType)

/-- The buffers an instruction can have written (rule R41): none, `WB`, `REC`, or `PAY` and, for DV alone, `VOICE`. -/
theorem Effect.cells (h : Effect s i t) :
    t.mem = s.mem ∨ (i ∈ workWriters ∧ SameCellsOutside 0x1000 3125 s t) ∨
    (i = .emit ∧ SameCellsOutside 0x4000 2816 s t) ∨
    ∃ p, DecodesPayload i p s t ∧
      (∀ a, (a < 0x2000 ∨ 0x2AB8 ≤ a) → (a < 0x3200 ∨ 0x3250 ≤ a) → t.mem.get a = s.mem.get a) ∧
      (p ≠ .dv → SameCellsOutside 0x2000 2744 s t) := by
  cases h with
  | work i hi off bits r => exact .inr (.inl ⟨hi, sameCellsOutside_writeBuf s .wb off bits⟩)
  | emit hp bits r => exact .inr (.inr (.inl ⟨rfl, sameCellsOutside_writeBuf s .record 0 bits⟩))
  | decodeHeader t b ht => exact .inl ht.mem
  | decode u t b hu ht =>
    refine .inr (.inr (.inr ⟨_, .inr ⟨rfl, by rw [ht.packetType]⟩, ?_, ?_⟩))
    · rw [← hu.mem]; exact ht.cells
    · unfold SameCellsOutside
      rw [← hu.mem]
      exact ht.onlyPay
  | payload i p t hi ht => exact .inr (.inr (.inr ⟨p, .inl hi, ht.cells, ht.onlyPay⟩))
  | _ => exact .inl rfl

/-- An instruction that decodes a payload is `DECODE_PAYLOAD`, `DECODE` or a packet row. -/
theorem DecodesPayload.instr {p : PacketType} (h : DecodesPayload i p s t) :
    i = .decodePayload ∨ i = .decode ∨ ∃ f, i = packetInstr p f := by
  rcases h with (⟨hi, -⟩ | ⟨hf, -⟩) | ⟨hi, -⟩
  · exact .inl hi
  · exact .inr (.inr hf)
  · exact .inr (.inl hi)

/-- None of them is a stand-alone writer of `WB`. -/
theorem DecodesPayload.notWork {p : PacketType} (h : DecodesPayload i p s t) : i ∉ workWriters := by
  rcases h.instr with rfl | rfl | ⟨f, rfl⟩
  · decide
  · decide
  · cases p <;> simp [packetInstr, workWriters]

/-- Where the payload decoded is DV, the registers or the row say so. -/
theorem DecodesPayload.dv (h : DecodesPayload i .dv s t) :
    (i = .decodePayload ∧ s.prog.packetType = 8) ∨ (i = .decode ∧ t.prog.packetType = 8) ∨ ∃ f, i = .pktDv f := by
  rcases h with (⟨hi, -, hp⟩ | ⟨hf, -⟩) | ⟨hi, hp⟩
  · exact .inl ⟨hi, packetTypeOf_eq_dv hp.symm⟩
  · exact .inr (.inr hf)
  · exact .inr (.inl ⟨hi, packetTypeOf_eq_dv hp.symm⟩)

/-- The symbol memory has no writer among the instructions. -/
theorem Effect.symbols (h : Effect s i t) (a : Nat) (ha : a < 0x1000) : t.mem.get a = s.mem.get a := by
  rcases h.cells with hm | ⟨-, hc⟩ | ⟨-, hc⟩ | ⟨p, -, hc, -⟩
  · rw [hm]
  · exact hc a (by omega)
  · exact hc a (by omega)
  · exact hc a (by omega) (by omega)

/-- An instruction that is no stand-alone writer changes `PAY`, `VOICE` and `REC` at most. -/
theorem Effect.outsideWork (h : Effect s i t) (hi : i ∉ workWriters) : SameCellsOutside 0x2000 0x2B00 s t := by
  intro a ha
  rcases h.cells with hm | ⟨hw, -⟩ | ⟨-, hc⟩ | ⟨p, -, hc, -⟩
  · rw [hm]
  · exact absurd hw hi
  · exact hc a (by omega)
  · exact hc a (by omega) (by omega)

/-- The writer of the record buffer. -/
theorem Effect.record (h : Effect s i t) (hi : i ≠ .emit) (a : Nat) (ha : 0x4000 ≤ a) :
    t.mem.get a = s.mem.get a := by
  rcases h.cells with hm | ⟨-, hc⟩ | ⟨he, -⟩ | ⟨p, -, hc, -⟩
  · rw [hm]
  · exact hc a (by omega)
  · exact absurd he hi
  · exact hc a (by omega) (by omega)

/-- A stand-alone writer changes `WB` alone. -/
theorem Effect.onlyWork (h : Effect s i t) (hi : i ∈ workWriters) : SameCellsOutside 0x1000 3125 s t := by
  rcases h.cells with hm | ⟨-, hc⟩ | ⟨rfl, -⟩ | ⟨p, hd, -⟩
  · intro a _; rw [hm]
  · exact hc
  · exact absurd hi (by decide)
  · exact absurd hi hd.notWork

/-- The writers of `PAY`. -/
theorem Effect.pay (h : Effect s i t) (hi : i ∉ [.decodePayload, .decode]) (hr : ∀ p f, i ≠ packetInstr p f) (a : Nat)
    (hlo : 0x2000 ≤ a) (hhi : a < 0x2AB8) : t.mem.get a = s.mem.get a := by
  rcases h.cells with hm | ⟨-, hc⟩ | ⟨-, hc⟩ | ⟨p, hd, -⟩
  · rw [hm]
  · exact hc a (by omega)
  · exact hc a (by omega)
  · rcases hd.instr with rfl | rfl | ⟨f, hf⟩
    · exact absurd (by decide) hi
    · exact absurd (by decide) hi
    · exact absurd hf (hr p f)

/-- The writers of `VOICE`. -/
theorem Effect.voice (h : Effect s i t) (hp : i = .decodePayload → s.prog.packetType ≠ 8)
    (hd : i = .decode → t.prog.packetType ≠ 8) (hr : ∀ f, i ≠ .pktDv f) (a : Nat) (hlo : 0x3200 ≤ a)
    (hhi : a < 0x3250) : t.mem.get a = s.mem.get a := by
  rcases h.cells with hm | ⟨-, hc⟩ | ⟨-, hc⟩ | ⟨p, hdec, -, hc⟩
  · rw [hm]
  · exact hc a (by omega)
  · exact hc a (by omega)
  · refine hc ?_ a (by omega)
    rintro rfl
    rcases hdec.dv with ⟨hi, h8⟩ | ⟨hi, h8⟩ | ⟨f, hf⟩
    · exact hp hi h8
    · exact hd hi h8
    · exact hr f hf

end Writers

/-- Settles O22. -/
theorem instructionsKeepHostState : Obligations.InstructionsKeepHostState := by
  intro i s t h
  have effect := exec_effect h
  obtain ⟨ops, port, queue, readData⟩ := effect.hostRegisters
  exact ⟨ops, port, effect.symbols, queue, readData⟩

/-- Settles O23, clause by clause from the writers of each part. -/
theorem writersOfState : Obligations.WritersOfState := by
  intro i s t h
  have effect := exec_effect h
  refine ⟨fun hi => effect.ctx ?_ ?_, effect.range, effect.outsideWork, effect.record, effect.onlyWork, effect.pay,
    effect.voice, fun hne => effect.recLen.resolve_left hne⟩
  · exact fun hw => hi ((by decide : contextWriters ⊆ _) hw)
  · rintro rfl
    exact hi (by decide)

/-! ## The step at the register port -/

/-- A command the host writes runs as the word it decodes to (rules R10, R60). -/
theorem step_command {s : State} {w : Word} {q : List HostAction} {i : Instr} (hf : s.phase ≠ .fault)
    (hp : s.phase ≠ .payloadPending) (hq : s.queue = .write 0 w :: q) (hd : decode (.command w) = .ok i) :
    step s = exec i { s with queue := q } := by
  have word := (nextWord_command_iff s w).2 ⟨hp, hf, q, hq⟩
  have popped : s.fetched = { s with queue := q } := by
    rw [State.fetched, if_neg hp, State.popMove, hq]
    rfl
  unfold step
  rw [word]
  dsimp only
  rw [hd, popped]

/-- In `PayloadPending` the packet row that is due runs, and the host's moves wait (rules R170, R270). -/
theorem step_header {s : State} (hp : s.phase = .payloadPending) (hq : s.queue.head? ≠ some .reset) :
    step s = exec (decodeHeaderWord s.dispatchWord) s := by
  have word := (nextWord_header_iff s _).2 ⟨hp, rfl, hq⟩
  unfold step
  rw [word, State.fetched, if_pos hp]
  rfl

/-- A move of the host that writes no command is made as it stands (rules R12 to R16). -/
theorem step_hostMove {s : State} {m : HostAction} {q : List HostAction} (hp : s.phase ≠ .payloadPending)
    (hq : s.queue = m :: q) (hm : ∀ w : Word, m ≠ .write 0 w) :
    step s = .next (({ s with queue := q } : State).hostMove m) := by
  have none : s.nextWord = none := by
    cases hw : s.nextWord with
    | none => rfl
    | some w =>
      cases w with
      | command c =>
        obtain ⟨-, -, q', e⟩ := (nextWord_command_iff s c).1 hw
        rw [hq] at e
        exact absurd (List.cons.inj e).1 (hm c)
      | header d => exact absurd ((nextWord_header_iff s d).1 hw).1 hp
  unfold step
  rw [none]
  dsimp only
  rw [State.hostStep, hq]
  dsimp only
  rw [State.popMove, hq]
  rfl

/-- A write to a register other than `CMD`. -/
theorem step_writeReg {s : State} {r : BitVec 6} {v : Word} {q : List HostAction} (hp : s.phase ≠ .payloadPending)
    (hq : s.queue = .write r v :: q) (hr : r ≠ 0) : step s = .next (({ s with queue := q } : State).writeReg r v) :=
  step_hostMove hp hq fun _ e => hr (HostAction.write.inj e).1

/-- A packet header is its `TYPE` and its other fields (rule R66). -/
theorem headerWord_headerType (h : BitVec 18) : headerWord (headerType h) (headerFields h) = h := by
  apply BitVec.eq_of_getLsbD_eq
  intro i hi
  simp only [headerWord, headerType, headerFields, BitVec.getLsbD_append, BitVec.getLsbD_extractLsb',
    BitVec.getLsbD_ofBool]
  split
  · rename_i ltAddr
    simp only [ltAddr, decide_true, Bool.true_and, Nat.zero_add]
  split
  · rename_i type
    rw [decide_eq_true type, Bool.true_and, show 3 + (i - 3) = i by omega]
  split
  · rw [show i = 7 by omega]; rfl
  split
  · rw [show i = 8 by omega]; rfl
  split
  · rw [show i = 9 by omega]; rfl
  · rw [decide_eq_true (show i - 3 - 4 - 1 - 1 - 1 < 8 by omega), Bool.true_and,
      show 10 + (i - 3 - 4 - 1 - 1 - 1) = i by omega]

/-- Settles O5. -/
theorem stepRunsDecodedInstruction : Obligations.StepRunsDecodedInstruction := by
  refine ⟨fun s w q i hf hp hq hd => step_command hf hp hq hd, fun s i hp ht hq hd => ?_⟩
  have word : s.dispatchWord = s.prog.packetHeader := by
    rw [State.dispatchWord, ht, headerWord_headerType]
  rw [decode_header_ok] at hd
  rw [step_header hp hq, word, Except.ok.inj hd]

/-! ## `STATUS` and `FLAGS` -/

/-- The fields of a word laid out as `STATUS` is (rule R13). -/
theorem statusFields {p f c r b : Nat} (hp : p < 8) (hf : f < 2) (hc : c < 16) (hr : r < 16) (hb : b < 2) :
    let w := BitVec.ofNat 32 (p + 8 * f + 16 * c + 256 * r + 4096 * b)
    w.extractLsb' 0 3 = BitVec.ofNat 3 p ∧ w.getLsbD 3 = decide (f = 1) ∧ w.extractLsb' 4 4 = BitVec.ofNat 4 c ∧
      w.extractLsb' 8 4 = BitVec.ofNat 4 r ∧ w.getLsbD 12 = decide (b = 1) ∧ w.extractLsb' 13 19 = 0#19 := by
  refine ⟨?phase, ?fault, ?cause, ?result, ?busy, ?zero⟩
  case fault | busy =>
    simp only [BitVec.getLsbD_ofNat, Nat.testBit_eq_decide_div_mod_eq]
    simp
    omega
  all_goals
    apply BitVec.eq_of_toNat_eq
    simp only [BitVec.extractLsb'_toNat, BitVec.toNat_ofNat, Nat.shiftRight_eq_div_pow]
    omega

theorem Phase.code_lt (p : Phase) : p.code < 8 := by cases p <;> decide
theorem Cause.code_lt (c : Cause) : c.code < 16 := by cases c <;> decide
theorem Confidence.code_lt (r : Confidence) : r.code < 16 := by cases r <;> decide

/-- The fields of `STATUS`, by the codes of what they show (rule R13). -/
theorem statusWord_fields (s : State) :
    s.statusWord.extractLsb' 0 3 = BitVec.ofNat 3 s.phase.code ∧ s.statusWord.getLsbD 3 = s.faultFlag ∧
      s.statusWord.extractLsb' 4 4 = BitVec.ofNat 4 s.res.cause.code ∧
      s.statusWord.extractLsb' 8 4 = BitVec.ofNat 4 s.prog.result.code ∧ s.statusWord.getLsbD 12 = s.busy ∧
      s.statusWord.extractLsb' 13 19 = 0#19 := by
  obtain ⟨phase, fault, cause, result, busy, zero⟩ := statusFields s.phase.code_lt (Bool.toNat_lt s.faultFlag)
    s.res.cause.code_lt s.prog.result.code_lt (Bool.toNat_lt s.busy)
  simp only [Bool.toNat_eq_one, Bool.decide_eq_true] at fault busy
  exact ⟨phase, fault, cause, result, busy, zero⟩

/-- The bits of `FLAGS` (rule R21). -/
theorem flagsByte_bits (s : State) :
    s.flagsByte.getLsbD 0 = s.ctx.haveLap ∧ s.flagsByte.getLsbD 1 = s.ctx.haveUap ∧
      s.flagsByte.getLsbD 2 = s.ctx.haveNap ∧ s.flagsByte.getLsbD 3 = s.ctx.haveFullClock ∧
      s.flagsByte.getLsbD 4 = s.ctx.whitened ∧ s.flagsByte.getLsbD 5 = s.prog.haveHeader ∧
      s.flagsByte.getLsbD 6 = s.prog.havePayload ∧ s.flagsByte.getLsbD 7 = s.prog.fhsClkValid := by
  simp only [State.flagsByte, BitVec.getLsbD_append, BitVec.getLsbD_ofBool]
  simp

/-- Settles O8. -/
theorem statusAndFlagsFields : Obligations.StatusAndFlagsFields := by
  refine ⟨fun s => ?_, fun s => ?_⟩
  · show s.statusWord.extractLsb' 0 3 = _ ∧ s.statusWord.getLsbD 3 = _ ∧ s.statusWord.extractLsb' 4 4 = _ ∧
      s.statusWord.extractLsb' 8 4 = _ ∧ s.statusWord.getLsbD 12 = _ ∧ s.statusWord.extractLsb' 13 19 = 0
    obtain ⟨phase, fault, cause, result, busy, zero⟩ := statusWord_fields s
    rw [phase, cause, result, busy]
    refine ⟨?_, fault, ?_, ?_, ?_, zero⟩
    · cases s.phase <;> rfl
    · cases s.res.cause <;> rfl
    · cases s.prog.result <;> rfl
    · unfold State.busy
      cases s.phase <;> rfl
  · have read : ∀ i, i < 8 → (s.readReg 0x16).getLsbD i = s.flagsByte.getLsbD i := fun i hi => by
      show (s.flagsByte.setWidth 32).getLsbD i = _
      rw [BitVec.getLsbD_setWidth]
      simp [show i < 32 by omega]
    obtain ⟨b0, b1, b2, b3, b4, b5, b6, b7⟩ := flagsByte_bits s
    refine ⟨(read 0 (by decide)).trans b0, (read 1 (by decide)).trans b1, (read 2 (by decide)).trans b2,
      (read 3 (by decide)).trans b3, (read 4 (by decide)).trans b4, (read 5 (by decide)).trans b5,
      (read 6 (by decide)).trans b6, (read 7 (by decide)).trans b7, ?_⟩
    show (s.flagsByte.setWidth 32).extractLsb' 8 24 = 0
    apply BitVec.eq_of_toNat_eq
    have small := s.flagsByte.isLt
    simp only [BitVec.extractLsb'_toNat, BitVec.toNat_setWidth, Nat.shiftRight_eq_div_pow]
    simp
    omega

/-! ## Host reads and writes -/

/-- The numbers that no readable register has: `CMD`, `SYM_DATA` and those no rule defines (rules R12, R40). -/
theorem readReg_unmapped (s : State) {r : BitVec 6}
    (h : r.toNat = 0x00 ∨ r.toNat = 0x09 ∨ (0x0B ≤ r.toNat ∧ r.toNat ≤ 0x0F) ∨ 0x1F ≤ r.toNat) :
    s.readReg r = 0 := by
  unfold State.readReg
  split
  case h_25 => rfl
  all_goals omega

/-- Settles O9. -/
theorem hostReads : Obligations.HostReads := by
  refine ⟨fun s r q hp hq => step_hostMove hp hq nofun, fun s => ?_, fun s r hr => readReg_unmapped s ?_⟩
  · exact ⟨⟨rfl, rfl, rfl, rfl⟩, ⟨rfl, rfl⟩, ⟨rfl, rfl⟩, ⟨rfl, rfl⟩, ⟨rfl, rfl, rfl, rfl, rfl⟩,
      rfl, rfl, rfl, rfl, rfl, rfl, rfl⟩
  · rcases hr with rfl | rfl | hr | hr
    · exact .inl rfl
    · exact .inr (.inl rfl)
    · exact .inr (.inr (.inl hr))
    · exact .inr (.inr (.inr hr))

/-- The numbers a write stores to, `CMD` apart. -/
def storedRegs : List (BitVec 6) := [0x02, 0x03, 0x04, 0x05, 0x08, 0x09, 0x0A]

/-- A write to a number that stores nothing is ignored (rules R13, R15, R40). -/
theorem writeReg_ignored (s : State) {r : BitVec 6} (v : Word) (h : r ∉ storedRegs) : s.writeReg r v = s := by
  have numbers : ∀ r ∉ storedRegs, r.toNat ∉ [0x02, 0x03, 0x04, 0x05, 0x08, 0x09, 0x0A] := by decide
  have hr := numbers r h
  simp only [List.mem_cons, List.not_mem_nil, or_false, not_or] at hr
  unfold State.writeReg
  split
  case h_8 => rfl
  all_goals omega

/-- Settles O10. -/
theorem hostWrites : Obligations.HostWrites := by
  intro s r v q hp hq
  have stored : ∀ number : BitVec 6, number ≠ 0 → r = number →
      step s = .next (({ s with queue := q } : State).writeReg number v) := by
    rintro number hn rfl
    exact step_writeReg hp hq hn
  refine ⟨stored 0x02 (by decide), stored 0x03 (by decide), stored 0x04 (by decide), stored 0x05 (by decide),
    stored 0x08 (by decide), fun hr => ?_⟩
  have numbers : r ≠ 0 ∧ r ∉ storedRegs := by simpa [storedRegs] using hr
  rw [step_writeReg hp hq numbers.1, writeReg_ignored _ _ numbers.2]

/-- A symbol load puts bit `j` of the word at the `j`-th symbol from `SYM_ADDR`, where the buffer has one (rule R47). -/
theorem get_loadSymbols_inside (s : State) (v : Word) {j : Nat} (hj : j < 32)
    (hlast : s.port.symAddr.toNat + j ≤ 3124) :
    (s.loadSymbols v).mem.get (s.port.symAddr.toNat + j) = v.getLsbD j := by
  have inside := get_writeBuf_inside s .sym s.port.symAddr.toNat (hostToAir v.toNat 32) j (by simpa [hostToAir])
    (by simp only [Region.size, hw_maxSymbols]; omega)
  rw [show Region.sym.base = 0 from rfl, Nat.zero_add] at inside
  calc (s.loadSymbols v).mem.get (s.port.symAddr.toNat + j)
      _ = (hostToAir v.toNat 32)[j]'(by simpa [hostToAir]) := inside
      _ = v.getLsbD j := by simp [hostToAir, BitVec.testBit_toNat]

/-- A symbol load leaves every other cell alone (rule R47). -/
theorem get_loadSymbols_outside (s : State) (v : Word) {a : Nat}
    (ha : a < s.port.symAddr.toNat ∨ s.port.symAddr.toNat + 32 ≤ a ∨ 3124 < a) :
    (s.loadSymbols v).mem.get a = s.mem.get a := by
  by_cases hbuffer : 3124 < a
  · exact sameCellsOutside_writeBuf s .sym s.port.symAddr.toNat (hostToAir v.toNat 32) a
      (.inr (by simp only [Region.base, Region.size, hw_maxSymbols]; omega))
  · exact get_writeBuf_outside s .sym s.port.symAddr.toNat (hostToAir v.toNat 32) a
      (by simp only [Region.base, hostToAir, List.length_map, List.length_range]; omega)

/-- Settles O11: the symbols go where `SYM_ADDR` points and the buffer reaches, and the packet is dropped. -/
theorem symbolLoadPort : Obligations.SymbolLoadPort := by
  refine ⟨fun s v q hp hq => ?_, fun s v q hp hq => step_writeReg hp hq (by decide)⟩
  exact ⟨_, step_writeReg hp hq (by decide), rfl, fun j => get_loadSymbols_inside { s with queue := q } v,
    fun a => get_loadSymbols_outside { s with queue := q } v⟩

/-- Settles O12. -/
theorem resetValues : Obligations.ResetValues := by
  refine ⟨by decide, fun a => ?_⟩
  unfold State.bitRead
  split <;> simp [State.reset, Progress.cleared, Memory.get]

/-! ## The context setters -/

/-- Outside `Fault` a setter writes its field, restarts the decode and clears the results (rule R36). -/
theorem setter_run {s : State} (f : Context → Context) (hf : s.phase ≠ .fault) :
    setter s f = .next { s with
      ctx := f s.ctx
      prog := Progress.cleared
      phase := if s.phase = .idle then .idle else .created
      res := ⟨0, 0, .ok⟩ } := command_run _ hf

theorem lapOperand_eq (a : Word) : lapOperand a = a.extractLsb' 0 24 := BitVec.setWidth_eq_extractLsb' (by decide)
theorem byteOperand_eq (a : Word) : byteOperand a = a.extractLsb' 0 8 := BitVec.setWidth_eq_extractLsb' (by decide)
theorem napOperand_eq (a : Word) : napOperand a = a.extractLsb' 0 16 := BitVec.setWidth_eq_extractLsb' (by decide)
theorem fullClockOperand_eq (a : Word) : fullClockOperand a = a.extractLsb' 0 27 :=
  BitVec.setWidth_eq_extractLsb' (by decide)

/-- Settles O29: each setter is `setter_run` with its operand read from the low bits. -/
theorem contextSetters : Obligations.ContextSetters := by
  intro s hf
  simp only [exec]
  refine ⟨?_, ?_, ?_, ?_, setter_run _ hf⟩
  · rw [← lapOperand_eq]; exact setter_run _ hf
  · rw [← byteOperand_eq]; exact setter_run _ hf
  · rw [← napOperand_eq]; exact setter_run _ hf
  · rw [← fullClockOperand_eq]; exact setter_run _ hf

/-! ## The CRC test and the residue test agree (rule R161) -/

/-- One step of the register against a value that will be shifted once less: the taps hold bit 15, so they cannot have
been applied where the result is below `2 ^ 15` (rule R160). -/
theorem crcStep_eq_iff (reg : BitVec 16) (b : Bool) {v : Nat} (hv : v < 2 ^ 15) :
    crcStep reg b = BitVec.ofNat 16 v ↔ reg = BitVec.ofNat 16 (b.toNat + 2 * v) := by
  have shifted : (reg >>> 1).toNat = reg.toNat / 2 := by simp [BitVec.toNat_ushiftRight, Nat.shiftRight_eq_div_pow]
  have size := reg.isLt
  have bit := Bool.toNat_lt b
  have differ : (reg.getLsbD 0 ^^ b) = true ↔ reg.toNat % 2 ≠ b.toNat := by
    rw [BitVec.getLsbD, Nat.testBit_zero]
    cases b <;> simp
  have whole : reg = BitVec.ofNat 16 (b.toNat + 2 * v) ↔ reg.toNat = b.toNat + 2 * v := by
    rw [← BitVec.toNat_inj, BitVec.toNat_ofNat, Nat.mod_eq_of_lt (by omega)]
  rw [whole]
  by_cases feedback : (reg.getLsbD 0 ^^ b) = true
  · have top : (crcStep reg b).getLsbD 15 = true := by
      rw [crcStep, if_pos feedback]
      simp [hw]
    have below : (BitVec.ofNat 16 v).getLsbD 15 = false := by
      rw [BitVec.getLsbD_ofNat, Nat.testBit_lt_two_pow hv, Bool.and_false]
    rw [differ] at feedback
    constructor
    · intro h
      rw [h, below] at top
      cases top
    · intro h
      omega
  · rw [crcStep, if_neg feedback, ← BitVec.toNat_inj, shifted, BitVec.toNat_ofNat, Nat.mod_eq_of_lt (by omega)]
    rw [differ] at feedback
    omega

/-- The register runs to 0 over at most 16 bits exactly where it held them. -/
theorem foldl_crcStep_eq_zero_iff (bits : Bits) (reg : BitVec 16) (h : bits.length ≤ 16) :
    bits.foldl crcStep reg = 0 ↔ reg = BitVec.ofNat 16 (airValue bits) := by
  induction bits generalizing reg with
  | nil => rfl
  | cons b bits ih =>
    rw [List.length_cons] at h
    have small : airValue bits < 2 ^ 15 :=
      Nat.lt_of_lt_of_le (airValue_lt bits) (Nat.pow_le_pow_right (by decide) (by omega))
    rw [List.foldl_cons, ih _ (by omega), crcStep_eq_iff _ _ small]
    rfl

/-- The CRC matches its payload exactly where the register run over all of it ends at 0. -/
theorem crcOk_eq_residueZero {bits : Bits} {len : Nat} (uap : Byte) (h2 : 2 ≤ len) (hl : 8 * len ≤ bits.length) :
    crcOk bits len uap = residueZero bits len uap := by
  have split : bits.take (8 * len) = bits.take (8 * (len - 2)) ++ slice bits (8 * (len - 2)) 16 := by
    rw [slice, ← List.take_add]
    congr 1
    omega
  have size : (slice bits (8 * (len - 2)) 16).length = 16 := by
    simp only [slice, List.length_take, List.length_drop]
    omega
  have value : airToHost (slice bits (8 * (len - 2)) 16) 16 = airValue (slice bits (8 * (len - 2)) 16) := by
    rw [airToHost, List.take_of_length_le (Nat.le_of_eq size)]
  have small := airValue_lt (slice bits (8 * (len - 2)) 16)
  rw [size] at small
  have residue : crcGen bits (8 * len) uap =
      (slice bits (8 * (len - 2)) 16).foldl crcStep (crcGen bits (8 * (len - 2)) uap) := by
    rw [crcGen, split, List.foldl_append]
    rfl
  rw [Bool.eq_iff_iff, residueZero, crcOk, beq_iff_eq, beq_iff_eq, residue,
    foldl_crcStep_eq_zero_iff _ _ (Nat.le_of_eq size), value, ← BitVec.toNat_inj, BitVec.toNat_ofNat,
    Nat.mod_eq_of_lt small]

/-! ## The two ends of a payload stage, in the words of the packet statements -/

/-- The state a payload handler starts from (rule R170). -/
def State.payloadStart (s : State) : State := (s.setPhase .payloadPending).clearPayload

theorem payloadStage_eq (s : State) (h : Handler) :
    s.payloadStage h = (h s.payloadStart).1.endPayload (h s.payloadStart).2 := rfl

/-- A stage of result 0 leaves the registers of `payloadFailed`, whatever the handler had written to them. -/
theorem payloadStage_failed {s u : State} {h : Handler} {o : PayloadOutcome} (run : h s.payloadStart = (u, o))
    (frame : PayloadFrame s.payloadStart u) (hz : o.result = .zero) (hn : o ≠ .noHandler) :
    s.payloadStage h = s.payloadFailed o.cause u.mem := by
  rw [payloadStage_eq, run]
  rcases endPayload_cases u o with ⟨e, -⟩ | ⟨-, -, e⟩ | ⟨e, -⟩
  · exact absurd e hn
  · dsimp only
    rw [e, frame.registers]
    rfl
  · exact absurd hz e

/-- A stage that wrote `bits` to `PAY` and reported `p` with a result of 1 or 10. -/
theorem payloadStage_accepted {s u : State} {h : Handler} {o : PayloadOutcome} {p : PayloadReport} {bits : Bits}
    (run : h s.payloadStart = (u, o)) (hr : o.result ≠ .zero) (hlen : p.len < 512) (hbits : bits.length ≤ 2744)
    (written : u = { (s.payloadStart.writeBuf .pay 0 bits) with
      prog := { s.prog with
        payloadHeader := p.header
        payloadLength := BitVec.ofNat 9 p.len
        payloadInfo := p.info
        fhsClk := BitVec.ofNat 6 (p.fhsClock.getD 0)
        fhsClkValid := p.fhsClock.isSome } }) :
    AcceptedWith s (s.payloadStage h) p o.result o.cause bits := by
  have stage : s.payloadStage h = s.payloadAccepted p o.result o.cause (s.payloadStart.writeBuf .pay 0 bits).mem := by
    rw [payloadStage_eq, run]
    rcases endPayload_cases u o with ⟨rfl, -⟩ | ⟨-, e, -⟩ | ⟨-, e⟩
    · exact absurd rfl hr
    · exact absurd e hr
    · have count : (BitVec.ofNat 9 p.len).setWidth 32 = BitVec.ofNat 32 p.len := by
        apply BitVec.eq_of_toNat_eq
        simp only [BitVec.toNat_setWidth, BitVec.toNat_ofNat]
        omega
      dsimp only
      rw [e, written, State.payloadAccepted, ← count]
      rfl
  rw [stage]
  refine ⟨rfl, fun k hk => ?_, fun a ha => get_writeBuf_outside s.payloadStart .pay 0 bits a ha⟩
  have inside := get_writeBuf_inside s.payloadStart .pay 0 bits k hk (by simp only [Region.size, hw_payBits]; omega)
  rw [List.getD_eq_getElem?_getD, List.getElem?_eq_getElem hk, Option.getD_some]
  exact inside

/-! ## FHS -/

/-- The reading of an FHS field under a clock (rule R176). -/
def fhsReading (s : State) (t : Bits) (c : Nat) : Bits := dewhiten t c 160 18 s.ctx.whitened

/-- The clock under which an FHS field validates (rule R176). -/
def fhsValidClock (s : State) (t : Bits) : Option Nat :=
  (fhsClocks s.clock6).find? fun c => crcOk (fhsReading s t c) 20 s.ctx.uap

theorem undoFec_block_error {t : Bits} {n : Nat} (h : unfec23 t n = none) :
    undoFec .block t n = .error .fecUncorrectable := by
  simp [undoFec, h]

theorem undoFec_block_ok {t : Bits} {n : Nat} {r : Bits × Nat} (h : unfec23 t n = some r) :
    undoFec .block t n = .ok r.1 := by
  simp [undoFec, h]

theorem fecSymbols_fhs : fecSymbols (row .fhs).fec (8 * (row .fhs).fixedBytes) = 240 := by decide

theorem handleFhs_short {s : State} (h : s.length - 126 < 240) : handleFhs s = (s, .shortBuffer) := by
  show plFhs (row .fhs) s = _
  unfold plFhs
  extract_lets n m
  have hm : m = 240 := fecSymbols_fhs
  rw [hm, if_pos (show s.symbolsFrom hw.payloadPos < 240 from h)]

theorem handleFhs_uncorrectable {s : State} (h : 240 ≤ s.length - 126) (hu : unfec23 (s.symbols 126 240) 160 = none) :
    handleFhs s = (s, .fecUncorrectable) := by
  show plFhs (row .fhs) s = _
  unfold plFhs
  extract_lets n m
  have hm : m = 240 := fecSymbols_fhs
  have undone : undoFec (row .fhs).fec (s.symbols hw.payloadPos 240) n = .error .fecUncorrectable :=
    undoFec_block_error hu
  rw [hm, if_neg (show ¬ s.symbolsFrom hw.payloadPos < 240 from Nat.not_lt.2 h), undone]

/-- A field that is there and decodes is written to `PAY` under the first clock that validates it, or under the nominal
one (rule R176). -/
theorem handleFhs_decoded {s : State} {r : Bits × Nat} (h : 240 ≤ s.length - 126)
    (hu : unfec23 (s.symbols 126 240) 160 = some r) :
    handleFhs s = (fhsValidClock s r.1).elim
      ((s.setPayloadLength 20).writeBuf .pay 0 (fhsReading s r.1 s.clock6), .crcMismatched)
      fun c => (((s.setPayloadLength 20).writeBuf .pay 0 (fhsReading s r.1 c)).setFhsClock c, .crcMatched) := by
  show plFhs (row .fhs) s = _
  unfold plFhs
  extract_lets n m
  have hm : m = 240 := fecSymbols_fhs
  have undone : undoFec (row .fhs).fec (s.symbols hw.payloadPos 240) n = .ok r.1 := undoFec_block_ok hu
  rw [hm, if_neg (show ¬ s.symbolsFrom hw.payloadPos < 240 from Nat.not_lt.2 h), undone]
  dsimp only
  split
  · rename_i c hc
    rw [show fhsValidClock s r.1 = some c from hc]
    rfl
  · rename_i hc
    rw [show fhsValidClock s r.1 = none from hc]
    rfl

/-- The clocks of rule R176 after the nominal one are 32 to 63 in order. -/
theorem fhsClocks_eq (c0 : Nat) : fhsClocks c0 = c0 :: List.range' 32 32 := rfl

/-- The test of rule R161 on a reading of a decoded field. -/
theorem crcOk_fhsReading {s : State} {r : Bits × Nat} (hu : unfec23 (s.symbols 126 240) 160 = some r) (c : Nat) :
    crcOk (fhsReading s r.1 c) 20 s.ctx.uap = residueZero (fhsReading s r.1 c) 20 s.ctx.uap := by
  have size : 160 ≤ r.1.length := unfec23_length (n := 160) (m := r.2) (symbols_length _ _ _) hu
  exact crcOk_eq_residueZero _ (by decide) (by rw [fhsReading, dewhiten_length]; omega)

section
variable {s : State} {r : Bits × Nat} (hu : unfec23 (s.symbols 126 240) 160 = some r)
include hu

/-- The nominal clock comes first. -/
theorem fhsValidClock_nominal (h : residueZero (fhsReading s r.1 s.clock6) 20 s.ctx.uap = true) :
    fhsValidClock s r.1 = some s.clock6 := by
  rw [fhsValidClock, fhsClocks_eq, List.find?_cons_of_pos]
  rwa [crcOk_fhsReading hu]

/-- Where the nominal clock fails, the least retry clock that validates is found. -/
theorem fhsValidClock_retry (h0 : residueZero (fhsReading s r.1 s.clock6) 20 s.ctx.uap = false) {c : Nat}
    (hlo : 32 ≤ c) (hhi : c ≤ 63) (hc : residueZero (fhsReading s r.1 c) 20 s.ctx.uap = true)
    (hleast : ∀ d, 32 ≤ d → d < c → residueZero (fhsReading s r.1 d) 20 s.ctx.uap = false) :
    fhsValidClock s r.1 = some c := by
  rw [fhsValidClock, fhsClocks_eq, List.find?_cons_of_neg (by rw [crcOk_fhsReading hu, h0]; decide),
    List.find?_range'_eq_some]
  refine ⟨by rwa [crcOk_fhsReading hu], by rw [List.mem_range'_1]; omega, fun d hd hdc => ?_⟩
  rw [crcOk_fhsReading hu, hleast d hd hdc]
  rfl

/-- Where no clock validates, none is found. -/
theorem fhsValidClock_none (h0 : residueZero (fhsReading s r.1 s.clock6) 20 s.ctx.uap = false)
    (h : ∀ c, 32 ≤ c → c ≤ 63 → residueZero (fhsReading s r.1 c) 20 s.ctx.uap = false) :
    fhsValidClock s r.1 = none := by
  rw [fhsValidClock, fhsClocks_eq, List.find?_cons_of_neg (by rw [crcOk_fhsReading hu, h0]; decide),
    List.find?_range'_eq_none]
  intro c hlo hhi
  rw [crcOk_fhsReading hu, h c hlo (by omega)]
  rfl

end

/-- The FHS stage with a clock that validates: rule R176 reports it in `FHS_CLK`. -/
theorem payloadStage_fhs_validated {s : State} {r : Bits × Nat} {c : Nat} (h : 240 ≤ s.length - 126)
    (hu : unfec23 (s.symbols 126 240) 160 = some r) (hc : fhsValidClock s r.1 = some c) :
    AcceptedWith s (s.payloadStage handleFhs) ⟨20, 0, 0, some c⟩ .ten .ok (fhsReading s r.1 c) := by
  refine payloadStage_accepted (o := .crcMatched) (p := ⟨20, 0, 0, some c⟩)
    ((handleFhs_decoded (s := s.payloadStart) h hu).trans ?_) (by decide) (show 20 < 512 by decide) ?_ rfl
  · rw [show fhsValidClock s.payloadStart r.1 = some c from hc]
    rfl
  · rw [fhsReading, dewhiten_length]; omega

/-- The FHS stage where no clock validates: the nominal reading stands. -/
theorem payloadStage_fhs_mismatched {s : State} {r : Bits × Nat} (h : 240 ≤ s.length - 126)
    (hu : unfec23 (s.symbols 126 240) 160 = some r) (hc : fhsValidClock s r.1 = none) :
    AcceptedWith s (s.payloadStage handleFhs) (.plain 20) .one .crcMismatch (fhsReading s r.1 s.clock6) := by
  refine payloadStage_accepted (o := .crcMismatched) (p := .plain 20)
    ((handleFhs_decoded (s := s.payloadStart) h hu).trans ?_) (by decide) (by decide) ?_ rfl
  · rw [show fhsValidClock s.payloadStart r.1 = none from hc]
    rfl
  · rw [fhsReading, dewhiten_length]; omega

/-- The whitening key is the low six bits of `CLOCK` (rule R19). -/
theorem clock6_eq (s : State) : s.clock6 = s.ctx.clock.toNat % 64 := by
  simp [State.clock6, BitVec.toNat_setWidth]

/-- Settles O54, clause by clause from the two ends of the FHS stage and its two failures. -/
theorem fhsPacket : Obligations.FhsPacket := by
  intro s f hp
  have run : exec (.pktFhs f) s = .next (s.payloadStage handleFhs) := exec_packetInstr_pending .fhs f hp
  dsimp only
  rw [run, ← clock6_eq]
  refine ⟨fun r hu hsize => ⟨fun h0 => ?_, fun c h0 hlo hhi hc hleast => ?_, fun h0 hnone => ?_⟩, fun hsize hu => ?_,
    fun hsize => ?_⟩
  · exact ⟨_, rfl, payloadStage_fhs_validated hsize hu (fhsValidClock_nominal hu h0)⟩
  · exact ⟨_, rfl, payloadStage_fhs_validated hsize hu (fhsValidClock_retry hu h0 hlo hhi hc hleast)⟩
  · exact ⟨_, rfl, payloadStage_fhs_mismatched hsize hu (fhsValidClock_none hu h0 hnone)⟩
  · rw [payloadStage_failed (handleFhs_uncorrectable (s := s.payloadStart) hsize hu) (.refl _) rfl (by decide)]
    rfl
  · rw [payloadStage_failed (handleFhs_short (s := s.payloadStart) hsize) (.refl _) rfl (by decide)]
    rfl

end Sys2Proof.Machine

/-! # The bit address space: which ranges a command may read

The regions of rule R41 do not overlap, so `regionOf` names the one region that holds an address. With that, rule R45 is
said once as a choice of a region (`rangeOk_iff_exists_region`), and each region's clause is its own arithmetic. -/

namespace Sys2Proof.Machine

/-! ## Regions and addresses -/

theorem Region.holds_iff (r : Region) (a : Nat) : r.holds a = true ↔ r.base ≤ a ∧ a < r.base + r.size := by
  simp [Region.holds]

theorem mem_regions (r : Region) : r ∈ regions := by cases r <;> decide

/-- A claim about some region is a choice among the seven, in the order of the map. -/
theorem Region.exists_iff {P : Region → Prop} : (∃ r, P r) ↔
    P .sym ∨ P .wb ∨ P .pay ∨ P .packetHeader ∨ P .payloadHeader ∨ P .voice ∨ P .record := by
  constructor
  · rintro ⟨r, h⟩
    cases r <;> simp [h]
  · rintro (h | h | h | h | h | h | h) <;> exact ⟨_, h⟩

/-- Of two regions of the map (rule R41) one ends before the other begins. -/
theorem regions_apart : ∀ r ∈ regions, ∀ q ∈ regions, r ≠ q →
    r.base + r.size ≤ q.base ∨ q.base + q.size ≤ r.base := by decide

/-- No address lies in two regions. -/
theorem Region.holds_unique {r q : Region} {a : Nat} (hr : r.holds a = true) (hq : q.holds a = true) : r = q := by
  by_cases same : r = q
  · exact same
  · have apart := regions_apart r (mem_regions r) q (mem_regions q) same
    rw [Region.holds_iff] at hr hq
    omega

theorem holds_of_regionOf {a : Nat} {r : Region} (h : regionOf a = some r) : r.holds a = true :=
  List.find?_some (p := fun q : Region => q.holds a) h

/-- `regionOf` finds exactly the region that holds the address. -/
theorem regionOf_eq_some_iff {a : Nat} {r : Region} : regionOf a = some r ↔ r.holds a = true := by
  refine ⟨holds_of_regionOf, fun hr => ?_⟩
  obtain ⟨q, hq⟩ : ∃ q, regionOf a = some q :=
    Option.isSome_iff_exists.1 (List.find?_isSome.2 ⟨r, mem_regions r, hr⟩)
  rw [hq, Region.holds_unique (holds_of_regionOf hq) hr]

/-! ## Readable ranges -/

/-- Rule R45 as a choice of a region: a readable range is empty, or begins in a region and ends within its extent. -/
theorem rangeOk_iff_exists_region (s : State) (a n : Nat) : s.rangeOk a n = true ↔
    n = 0 ∨ ∃ r : Region, r.holds a = true ∧ a - r.base + n ≤ s.extent r := by
  simp only [State.rangeOk, Bool.or_eq_true, beq_iff_eq, ← regionOf_eq_some_iff]
  cases regionOf a <;> simp

/-- In `SYM` a range ends at `WLEN`, wherever the region itself ends. -/
theorem sym_holds_and_fits_iff (s : State) (a n : Nat) :
    (Region.sym.holds a = true ∧ a - Region.sym.base + n ≤ s.extent .sym) ↔ (a < 0x0C35 ∧ a + n ≤ s.wlen) := by
  simp [Region.holds_iff, Region.base, Region.size, State.extent]

/-- In a region read to its end, a range that is not empty begins inside whenever it ends inside. -/
theorem holds_and_fits_iff {r : Region} {a n : Nat} (hn : n ≠ 0) :
    (r.holds a = true ∧ a - r.base + n ≤ r.size) ↔ (r.base ≤ a ∧ a + n ≤ r.base + r.size) := by
  rw [Region.holds_iff]
  omega

/-- Settles O33: the choice of a region, written out over the seven of the map. -/
theorem rangeOkIsTheMap : Obligations.RangeOkIsTheMap := by
  intro s a n
  rw [rangeOk_iff_exists_region]
  by_cases hn : n = 0
  · exact iff_of_true (.inl hn) (.inl hn)
  · have fits (r : Region) := holds_and_fits_iff (r := r) (a := a) hn
    rw [Region.exists_iff, sym_holds_and_fits_iff]
    exact or_congr_right <| or_congr_right <| or_congr (fits .wb) <| or_congr (fits .pay) <|
      or_congr (fits .packetHeader) <| or_congr (fits .payloadHeader) <| or_congr (fits .voice) (fits .record)

end Sys2Proof.Machine

/-! # The encoding

The decoder and the encoder agree. A packet header is its `TYPE` and its other fields in both directions
(`headerType_headerWord`, `headerFields_headerWord`, `headerWord_headerType`), and the packet type table is a bijection
between types and codes. A command word is its operation code, and over the 256 bytes the two tables are inverse. -/

namespace Sys2Proof.Machine

/-! ## Packet headers -/

/-- The bits of a header word, field by field (rule R66). -/
theorem headerWord_getLsbD (t : BitVec 4) (f : HeaderFields) (i : Nat) : (headerWord t f).getLsbD i =
    if i < 3 then f.ltAddr.getLsbD i
    else if i < 7 then t.getLsbD (i - 3)
    else if i < 10 then [f.flow, f.arqn, f.seqn].getD (i - 7) false
    else f.hec.getLsbD (i - 10) := by
  simp only [headerWord, BitVec.getLsbD_append, BitVec.getLsbD_ofBool]
  grind

theorem headerType_headerWord (t : BitVec 4) (f : HeaderFields) : headerType (headerWord t f) = t := by
  apply BitVec.eq_of_getLsbD_eq
  intro i hi
  rw [headerType, BitVec.getLsbD_extractLsb', headerWord_getLsbD, if_neg (by omega), if_pos (by omega),
    Nat.add_sub_cancel_left, decide_eq_true hi, Bool.true_and]

theorem headerFields_headerWord (t : BitVec 4) (f : HeaderFields) : headerFields (headerWord t f) = f := by
  have ltAddr : (headerWord t f).extractLsb' 0 3 = f.ltAddr := by
    apply BitVec.eq_of_getLsbD_eq
    intro i hi
    rw [BitVec.getLsbD_extractLsb', headerWord_getLsbD, if_pos (by omega), Nat.zero_add, decide_eq_true hi,
      Bool.true_and]
  have hec : (headerWord t f).extractLsb' 10 8 = f.hec := by
    apply BitVec.eq_of_getLsbD_eq
    intro i hi
    rw [BitVec.getLsbD_extractLsb', headerWord_getLsbD, if_neg (by omega), if_neg (by omega), if_neg (by omega),
      Nat.add_sub_cancel_left, decide_eq_true hi, Bool.true_and]
  simp only [headerFields, ltAddr, hec, headerWord_getLsbD]
  rfl

/-- The word of a packet row carries the code of its type (rules R66, R72). -/
theorem encode_packetInstr (p : PacketType) (f : HeaderFields) :
    encode (packetInstr p f) = .header (headerWord (hw.packetRow p).code f) := by
  cases p <;> rfl

theorem decode_encode_packetInstr (p : PacketType) (f : HeaderFields) :
    decode (encode (packetInstr p f)) = .ok (packetInstr p f) := by
  rw [encode_packetInstr, decode_header_ok, decodeHeaderWord, headerType_headerWord, headerFields_headerWord,
    packetTypeOf_code]

/-- Settles O1: a packet row by the lemma above, a command by running both tables on its one word. -/
theorem decodeEncodeRoundTrip : Obligations.DecodeEncodeRoundTrip := by
  intro i
  cases i with
  | pktNull f => exact decode_encode_packetInstr .null f
  | pktPoll f => exact decode_encode_packetInstr .poll f
  | pktFhs f => exact decode_encode_packetInstr .fhs f
  | pktDm1 f => exact decode_encode_packetInstr .dm1 f
  | pktDh1 f => exact decode_encode_packetInstr .dh1 f
  | pktHv1 f => exact decode_encode_packetInstr .hv1 f
  | pktHv2 f => exact decode_encode_packetInstr .hv2 f
  | pktHv3Ev3 f => exact decode_encode_packetInstr .hv3Ev3 f
  | pktDv f => exact decode_encode_packetInstr .dv f
  | pktAux1 f => exact decode_encode_packetInstr .aux1 f
  | pktDm3 f => exact decode_encode_packetInstr .dm3 f
  | pktDh3 f => exact decode_encode_packetInstr .dh3 f
  | pktEv4 f => exact decode_encode_packetInstr .ev4 f
  | pktEv5 f => exact decode_encode_packetInstr .ev5 f
  | pktDm5 f => exact decode_encode_packetInstr .dm5 f
  | pktDh5 f => exact decode_encode_packetInstr .dh5 f
  | _ => rfl

/-! ## Command words -/

/-- A code that decodes is the code the encoder writes, over all 256 bytes (rule R61). -/
theorem encode_of_decodeOp : ∀ op : BitVec 8, ∀ i ∈ decodeOp op.toNat, encode i = .command (op.setWidth 32) := by
  decide +kernel

/-- The decoder reads exactly the listed codes, over all 256 bytes (rules R61, R62). -/
theorem decodeOp_isSome : ∀ op : BitVec 8, (decodeOp op.toNat).isSome = operationCodes.contains op := by
  decide +kernel

/-- The reserved bits of a command word are 0 exactly where the word is its operation code (rule R60). -/
theorem reserved_eq_zero_iff (w : Word) : w.extractLsb' 8 24 = 0 ↔ (w.extractLsb' 0 8).setWidth 32 = w := by
  have size := w.isLt
  simp only [← BitVec.toNat_inj, BitVec.extractLsb'_toNat, BitVec.toNat_setWidth, BitVec.ofNat_eq_ofNat,
    BitVec.toNat_ofNat, Nat.shiftRight_eq_div_pow]
  omega

/-- A command word decodes where its reserved bits are 0 and its code is listed (rules R60 to R62). -/
theorem decodeCommand_eq_ok_iff {w : Word} {i : Instr} :
    decodeCommand w = .ok i ↔ w.extractLsb' 8 24 = 0 ∧ decodeOp (w.extractLsb' 0 8).toNat = some i := by
  unfold decodeCommand
  split
  · rename_i reserved
    cases decodeOp (w.extractLsb' 0 8).toNat <;> simp [reserved]
  · rename_i reserved
    exact iff_of_false nofun fun h => reserved h.1

/-- Only the word of an instruction decodes to it. -/
theorem encode_of_decode {w : InstrWord} {i : Instr} (h : decode w = .ok i) : encode i = w := by
  cases w with
  | command w =>
    obtain ⟨reserved, op⟩ := decodeCommand_eq_ok_iff.1 h
    rw [encode_of_decodeOp _ i op, (reserved_eq_zero_iff w).1 reserved]
  | header w =>
    obtain rfl := Except.ok.inj h
    rw [decodeHeaderWord, encode_packetInstr, code_packetTypeOf, headerWord_headerType]

/-- The well-formed words are those that decode (rules R60 to R62, R73). -/
theorem wf_iff_decode (w : InstrWord) : w.wf = true ↔ ∃ i, decode w = .ok i := by
  cases w with
  | command w =>
    simp only [InstrWord.wf, reservedZero, opListed, decode, decodeCommand_eq_ok_iff, ← decodeOp_isSome,
      exists_and_left, Option.isSome_iff_exists, Bool.and_eq_true, beq_iff_eq]
  | header w => exact iff_of_true rfl ⟨_, decode_header_ok w⟩

/-- Settles O2 from the two lemmas on `decode`. -/
theorem decodeIsUnambiguous : Obligations.DecodeIsUnambiguous := ⟨fun _ _ => encode_of_decode, wf_iff_decode⟩

/-! ## Illegal words -/

/-- A command word that is ill formed uses up the host's move and raises `IllegalCommand` (rule R62). -/
theorem step_illegal {s : State} {w : Word} {q : List HostAction} (hf : s.phase ≠ .fault)
    (hp : s.phase ≠ .payloadPending) (hq : s.queue = .write 0 w :: q) (hw : (InstrWord.command w).wf = false) :
    step s = .next { s with queue := q, res := ⟨0, 0, .illegalCommand⟩ } := by
  have word := (nextWord_command_iff s w).2 ⟨hp, hf, q, hq⟩
  have popped : s.fetched = { s with queue := q } := by
    rw [State.fetched, if_neg hp, State.popMove, hq]
    rfl
  unfold step
  rw [word]
  dsimp only
  cases hd : decode (.command w) with
  | ok i =>
    rw [(wf_iff_decode _).2 ⟨i, hd⟩] at hw
    cases hw
  | error e =>
    rw [popped]
    rfl

/-- A command word is well formed exactly where it is one of the 27 operation codes (rules R60, R61). -/
theorem wf_command_iff (w : Word) :
    (InstrWord.command w).wf = true ↔ ∃ op ∈ operationCodes, w = op.setWidth 32 := by
  simp only [InstrWord.wf, reservedZero, opListed, Bool.and_eq_true, beq_iff_eq, List.contains_iff_mem,
    reserved_eq_zero_iff]
  constructor
  · rintro ⟨reserved, listed⟩
    exact ⟨_, listed, reserved.symm⟩
  · rintro ⟨op, listed, rfl⟩
    have code : (op.setWidth 32).extractLsb' 0 8 = op := by
      rw [← BitVec.setWidth_eq_extractLsb' (by decide), BitVec.setWidth_setWidth_of_le _ (by decide),
        BitVec.setWidth_eq]
    rw [code]
    exact ⟨rfl, listed⟩

/-- Settles O4: a word outside the list is ill formed, so the step raises. -/
theorem illegalWordRaises : Obligations.IllegalWordRaises := by
  intro s w q hf hp hq unlisted
  refine step_illegal hf hp hq (Bool.eq_false_iff.2 fun h => ?_)
  obtain ⟨op, listed, e⟩ := (wf_command_iff w).1 h
  exact unlisted op listed e

/-- Settles O3 by running the decoder on each word. -/
theorem sampleWordsDecode : Obligations.SampleWordsDecode :=
  ⟨rfl, rfl, rfl, rfl, rfl, rfl, rfl, rfl, rfl, rfl, rfl⟩

end Sys2Proof.Machine

/-! # Slices of bit sequences and buffers

A field of a sequence is a slice of the part it lies in, and a slice of a number's bits is again a number's bits. A
buffer holds the slices of what was written to it. -/

namespace Sys2Proof.Machine

theorem hostToAir_getD (v n i : Nat) : (hostToAir v n).getD i false = (decide (i < n) && v.testBit i) := by
  rw [List.getD_eq_getElem?_getD]
  by_cases hi : i < n <;> simp [hostToAir, hi]

theorem airValue_hostToAir (v n : Nat) : airValue (hostToAir v n) = v % 2 ^ n := by
  apply Nat.eq_of_testBit_eq
  intro i
  rw [airValue_testBit, Nat.testBit_mod_two_pow, hostToAir_getD]

/-- A slice in the first part of a sequence. -/
theorem slice_append_left {s t : Bits} {a n : Nat} (h : a + n ≤ s.length) : slice (s ++ t) a n = slice s a n := by
  rw [slice, List.drop_append_of_le_length (by omega),
    List.take_append_of_le_length (by rw [List.length_drop]; omega), slice]

/-- A slice in the second part of a sequence. -/
theorem slice_append_right {s t : Bits} {a n : Nat} (h : s.length ≤ a) :
    slice (s ++ t) a n = slice t (a - s.length) n := by
  rw [slice, List.drop_append, List.drop_eq_nil_of_le h, List.nil_append, slice]

/-- A slice of a number's bits holds the bits of the number shifted. -/
theorem slice_hostToAir {v m a n : Nat} (h : a + n ≤ m) : slice (hostToAir v m) a n = hostToAir (v >>> a) n := by
  apply List.ext_getElem
  · simp only [slice_length, hostToAir_length]; omega
  · intro i h1 h2
    simp [slice, Nat.testBit_shiftRight]

/-- The bits of a number, split at bit `m`. -/
theorem hostToAir_add (v m n : Nat) : hostToAir v (m + n) = hostToAir v m ++ hostToAir (v >>> m) n := by
  simp only [hostToAir, List.range_add, List.map_append, List.map_map]
  congr 2
  funext i
  exact (Nat.testBit_shiftRight v).symm

/-- A field of a word, read as `m` bits, is the word from the field's place up, where the field covers what is read. -/
theorem hostToAir_extract {w : Nat} (x : BitVec w) {a n m : Nat} (h : m ≤ n ∨ w ≤ a + n) :
    hostToAir (x.extractLsb' a n).toNat m = hostToAir (x.toNat >>> a) m := by
  refine List.map_congr_left fun i hi => ?_
  have bit : i < m := List.mem_range.1 hi
  rw [BitVec.testBit_toNat, BitVec.getLsbD_extractLsb', Nat.testBit_shiftRight, BitVec.testBit_toNat]
  by_cases inside : i < n
  · rw [decide_eq_true inside, Bool.true_and]
  · rw [decide_eq_false inside, Bool.false_and, BitVec.getLsbD_of_ge x _ (by omega)]

theorem airToHost_hostToAir {v n : Nat} (h : v < 2 ^ n) : airToHost (hostToAir v n) n = v := by
  rw [airToHost, List.take_of_length_le (Nat.le_of_eq (hostToAir_length _ _)), airValue_hostToAir, Nat.mod_eq_of_lt h]

/-- Bytes laid out one after the other are read back by their number. -/
theorem slice_flatMap_bytes (l : List Nat) {k : Nat} (hk : k < l.length) :
    slice (l.flatMap (hostToAir · 8)) (8 * k) 8 = hostToAir l[k] 8 := by
  induction l generalizing k with
  | nil => simp at hk
  | cons v l ih =>
    rw [List.flatMap_cons]
    cases k with
    | zero =>
      rw [Nat.mul_zero, slice_append_left (Nat.le_of_eq (by rw [hostToAir_length]))]
      exact List.take_of_length_le (Nat.le_of_eq (hostToAir_length _ _))
    | succ k =>
      rw [slice_append_right (by rw [hostToAir_length]; omega), hostToAir_length, show 8 * (k + 1) - 8 = 8 * k by omega,
        ih (by simpa using hk), List.getElem_cons_succ]

/-- What stands in a buffer after a write that fits it: the slices of what was written. -/
theorem readBuf_writeBuf (s : State) (r : Region) {bits : Bits} {a n : Nat} (h : a + n ≤ bits.length)
    (hr : bits.length ≤ r.size) : (s.writeBuf r 0 bits).readBuf r a n = slice bits a n := by
  apply List.ext_getElem
  · simp only [readBuf_length, slice_length]; omega
  · intro i h1 h2
    have hi : i < n := by simpa using h1
    have inside := get_writeBuf_inside s r 0 bits (a + i) (by omega) (by omega)
    rw [readBuf_getElem, show r.base + a + i = r.base + 0 + (a + i) by omega, inside]
    simp [slice]

theorem slice_readBuf (s : State) (r : Region) {a n m : Nat} (h : a + n ≤ m) :
    slice (s.readBuf r 0 m) a n = s.readBuf r a n := by
  apply List.ext_getElem
  · simp only [readBuf_length, slice_length]; omega
  · intro i h1 h2
    simp [slice, State.readBuf, Nat.add_assoc]

end Sys2Proof.Machine

/-! # The output record

The record is its nine fixed bytes and the payload bytes (rule R75), so its byte `k` is a byte of one of the two
(`recordByte_fixed`, `recordByte_payload`), and `EMIT` lays it out in `REC` as it stands. -/

namespace Sys2Proof.Machine

@[simp] theorem recordHead_length (s : State) : s.recordHead.length = 72 := by simp [State.recordHead]

@[simp] theorem recordBits_length (s : State) : s.recordBits.length = 8 * (9 + s.payloadBytes) := by
  simp only [State.recordBits, List.length_append, recordHead_length, readBuf_length]
  omega

/-- Byte `k` of the record (rule R75). -/
def State.recordByte (s : State) (k : Nat) : Nat := airToHost (slice s.recordBits (8 * k) 8) 8

theorem recordByte_payload (s : State) {j : Nat} (h : j < s.payloadBytes) :
    s.recordByte (j + 9) = airToHost (s.readBuf .pay (8 * j) 8) 8 := by
  rw [State.recordByte, State.recordBits, slice_append_right (by rw [recordHead_length]; omega), recordHead_length,
    slice_readBuf _ _ (by omega), show 8 * (j + 9) - 72 = 8 * j by omega]

/-- The nine fixed bytes of the record (rule R75). -/
def State.recordFixed (s : State) : List Nat :=
  [(s.ctx.clock.extractLsb' 0 8).toNat, (s.ctx.clock.extractLsb' 8 8).toNat, (s.ctx.clock.extractLsb' 16 8).toNat,
    (s.ctx.clock.extractLsb' 24 3).toNat, s.ctx.channel.toNat, s.ctx.haveFullClock.toNat + 2 * s.ctx.haveNap.toNat,
    (s.prog.packetHeader.extractLsb' 0 7).toNat, (s.prog.packetHeader.extractLsb' 7 3).toNat,
    (s.prog.packetHeader.extractLsb' 10 8).toNat]

/-- The four bytes of the clock, of whose 27 bits the last holds three (rules R19, R75). -/
theorem hostToAir_clock (c : BitVec 27) : hostToAir c.toNat 32 =
    hostToAir (c.extractLsb' 0 8).toNat 8 ++ (hostToAir (c.extractLsb' 8 8).toNat 8 ++
      (hostToAir (c.extractLsb' 16 8).toNat 8 ++ hostToAir (c.extractLsb' 24 3).toNat 8)) := by
  rw [hostToAir_extract c (by decide), hostToAir_extract c (by decide), hostToAir_extract c (by decide),
    hostToAir_extract c (by decide), hostToAir_add _ 8 24, hostToAir_add _ 8 16, hostToAir_add _ 8 8,
    ← Nat.shiftRight_add, ← Nat.shiftRight_add, Nat.shiftRight_zero]

theorem recordHead_eq (s : State) : s.recordHead = s.recordFixed.flatMap (hostToAir · 8) := by
  rw [State.recordHead, hostToAir_clock]
  simp [State.recordFixed]

theorem recordFixed_lt (s : State) : ∀ v ∈ s.recordFixed, v < 2 ^ 8 := by
  have flags : s.ctx.haveFullClock.toNat + 2 * s.ctx.haveNap.toNat < 2 ^ 8 := by
    have := s.ctx.haveFullClock.toNat_lt
    have := s.ctx.haveNap.toNat_lt
    omega
  have below {n : Nat} (x : BitVec n) (h : n ≤ 8) : x.toNat < 2 ^ 8 :=
    Nat.lt_of_lt_of_le x.isLt (Nat.pow_le_pow_right (by decide) h)
  simp only [State.recordFixed, List.forall_mem_cons, flags, true_and]
  exact ⟨below _ (by decide), below _ (by decide), below _ (by decide), below _ (by decide), below _ (by decide),
    below _ (by decide), below _ (by decide), below _ (by decide), nofun⟩

theorem recordByte_fixed (s : State) {k : Nat} (hk : k < 9) : s.recordByte k = s.recordFixed[k]'hk := by
  rw [State.recordByte, State.recordBits, slice_append_left (by rw [recordHead_length]; omega), recordHead_eq,
    slice_flatMap_bytes _ hk, airToHost_hostToAir (recordFixed_lt s _ (List.getElem_mem hk))]

/-! ## `EMIT` -/

/-- What `EMIT` leaves in `PayloadDecoded` (rule R224). -/
def State.emitted (s : State) : State :=
  ({ s.writeBuf .record 0 s.recordBits with
    prog := { s.prog with recLen := BitVec.ofNat 9 (9 + s.payloadBytes) } } : State).finish (9 + s.payloadBytes) 0 .ok

theorem exec_emit {s : State} (h : s.phase = .payloadDecoded) : exec .emit s = .next s.emitted := by
  rw [exec, execEmit, command_run _ (by simp [h]), if_neg (not_not_intro h)]
  rfl

theorem exec_emit_refused {s : State} (h : s.phase ≠ .payloadDecoded) (hf : s.phase ≠ .fault) :
    exec .emit s = .next (s.raise .badState) := by
  rw [exec, execEmit, command_run _ hf, if_pos h]

/-- `REC` holds the record, whose 352 bytes at most it has room for (rules R25, R28). -/
theorem readBuf_emitted {s : State} (h : s.payloadBytes ≤ 343) {k : Nat} (hk : k < 9 + s.payloadBytes) :
    airToHost (s.emitted.readBuf .record (8 * k) 8) 8 = s.recordByte k := by
  have size : s.recordBits.length = 8 * (9 + s.payloadBytes) := recordBits_length s
  have fits : s.recordBits.length ≤ Region.record.size := by
    rw [size, Region.size, hw_recBytes]
    omega
  exact congrArg (airToHost · 8) (readBuf_writeBuf s .record (by omega) fits)

/-- `EMIT` changes no bit outside the record. -/
theorem sameCellsOutside_emitted (s : State) : SameCellsOutside 0x4000 (8 * (9 + s.payloadBytes)) s s.emitted := by
  intro a ha
  exact get_writeBuf_outside s .record 0 s.recordBits a (by rw [recordBits_length]; exact ha)

/-- Settles O32, byte by byte: the fixed ones by their number, the others from `PAY`. -/
theorem emitBuildsRecord : Obligations.EmitBuildsRecord := by
  refine ⟨fun s hp hlen => ⟨s.emitted, exec_emit hp, rfl, fun k hk => ?_, sameCellsOutside_emitted s⟩,
    fun s hp hf => exec_emit_refused hp hf⟩
  rw [readBuf_emitted hlen hk]
  match k with
  | 0 => exact recordByte_fixed s (k := 0) (by omega)
  | 1 => exact recordByte_fixed s (k := 1) (by omega)
  | 2 => exact recordByte_fixed s (k := 2) (by omega)
  | 3 => exact recordByte_fixed s (k := 3) (by omega)
  | 4 => exact recordByte_fixed s (k := 4) (by omega)
  | 5 => exact recordByte_fixed s (k := 5) (by omega)
  | 6 => exact recordByte_fixed s (k := 6) (by omega)
  | 7 => exact recordByte_fixed s (k := 7) (by omega)
  | 8 => exact recordByte_fixed s (k := 8) (by omega)
  | j + 9 => exact recordByte_payload s (by omega)

end Sys2Proof.Machine

/-! # The access code

Its fields are those of the sync word and of the two ends that continue its outer bits (rules R126, R127). The sync word
is a codeword because the check part is a remainder: each step of the long division of rule R125 subtracts a multiple of
the generator, so the dividend and the remainder differ by a product (`syncDivide_spec`). -/

namespace Sys2Proof.Machine

/-! ## Carry-less products -/

/-- The product over the low `n` coefficients of `q`; `carrylessProduct` is that over 64. -/
def carrylessSum (n q g : Nat) : Nat :=
  (List.range n).foldl (fun acc j => if q.testBit j then acc ^^^ (g <<< j) else acc) 0

theorem carrylessProduct_eq_sum (q g : Nat) : carrylessProduct q g = carrylessSum 64 q g := rfl

theorem carrylessSum_succ (n q g : Nat) :
    carrylessSum (n + 1) q g = carrylessSum n q g ^^^ (if q.testBit n then g <<< n else 0) := by
  rw [carrylessSum, List.range_succ, List.foldl_append]
  by_cases h : q.testBit n <;> simp [carrylessSum, h]

theorem carrylessSum_xor (n p q g : Nat) : carrylessSum n (p ^^^ q) g = carrylessSum n p g ^^^ carrylessSum n q g := by
  induction n with
  | zero => exact (Nat.xor_self 0).symm
  | succ n ih =>
    have term : (if (p ^^^ q).testBit n then g <<< n else 0) =
        (if p.testBit n then g <<< n else 0) ^^^ (if q.testBit n then g <<< n else 0) := by
      rw [Nat.testBit_xor]
      cases p.testBit n <;> cases q.testBit n <;> simp
    rw [carrylessSum_succ, carrylessSum_succ, carrylessSum_succ, ih, term]
    ac_rfl

theorem carrylessSum_two_pow (n k g : Nat) : carrylessSum n (2 ^ k) g = if k < n then g <<< k else 0 := by
  induction n with
  | zero => rfl
  | succ n ih =>
    rw [carrylessSum_succ, ih, Nat.testBit_two_pow]
    grind

/-- The product is linear, so a term more in the first factor adds the second one shifted. -/
theorem carrylessProduct_xor_two_pow {k : Nat} (q g : Nat) (hk : k < 64) :
    carrylessProduct (q ^^^ 2 ^ k) g = carrylessProduct q g ^^^ (g <<< k) := by
  rw [carrylessProduct_eq_sum, carrylessSum_xor, carrylessSum_two_pow, if_pos hk, carrylessProduct_eq_sum]

/-! ## The long division of rule R125 -/

/-- The dividend after the first `n` steps of the division. -/
def syncDivide (n x : Nat) : Nat :=
  (List.range n).foldl (fun r j => if r.testBit (63 - j) then r ^^^ (hw.syncG <<< (29 - j)) else r) x

theorem syncRemainder_eq (x : Nat) : syncRemainder x = syncDivide 30 x := rfl

theorem syncDivide_succ (n x : Nat) : syncDivide (n + 1) x =
    if (syncDivide n x).testBit (63 - n) then syncDivide n x ^^^ (hw.syncG <<< (29 - n)) else syncDivide n x := by
  rw [syncDivide, List.range_succ, List.foldl_append]
  rfl

/-- A number loses its top bit where that is 0. -/
theorem lt_two_pow_of_top_false {r m : Nat} (h : r < 2 ^ (m + 1)) (top : r.testBit m = false) : r < 2 ^ m := by
  refine Nat.lt_pow_two_of_testBit r fun i hi => ?_
  rcases Nat.eq_or_lt_of_le hi with rfl | hi
  · exact top
  · exact Nat.testBit_lt_two_pow (Nat.lt_of_lt_of_le h (Nat.pow_le_pow_right (by decide) hi))

/-- The generator, of degree 34, at the place of step `n`: its top bit is the one the step clears. -/
theorem syncG_shifted {n : Nat} (hn : n < 30) :
    hw.syncG <<< (29 - n) < 2 ^ (63 - n + 1) ∧ (hw.syncG <<< (29 - n)).testBit (63 - n) = true := by
  have degree : hw.syncG < 2 ^ 35 := by decide
  constructor
  · rw [Nat.shiftLeft_eq, show 63 - n + 1 = 35 + (29 - n) by omega, Nat.pow_add]
    exact Nat.mul_lt_mul_of_pos_right degree (Nat.two_pow_pos _)
  · rw [Nat.testBit_shiftLeft, decide_eq_true (by omega), show 63 - n - (29 - n) = 34 by omega]
    decide

/-- Each step clears the top bit and keeps the difference to the dividend a multiple of the generator. -/
theorem syncDivide_spec {x n : Nat} (hx : x < 2 ^ 64) (hn : n ≤ 30) : syncDivide n x < 2 ^ (64 - n) ∧
    ∃ q, q < 2 ^ 30 ∧ x ^^^ syncDivide n x = carrylessProduct q hw.syncG := by
  induction n with
  | zero => exact ⟨hx, 0, by decide, Nat.xor_self x⟩
  | succ n ih =>
    obtain ⟨size, q, hq, quotient⟩ := ih (by omega)
    rw [show 64 - n = 63 - n + 1 by omega] at size
    rw [syncDivide_succ, show 64 - (n + 1) = 63 - n by omega]
    split
    · rename_i top
      obtain ⟨low, high⟩ := syncG_shifted (n := n) (by omega)
      refine ⟨lt_two_pow_of_top_false (Nat.xor_lt_two_pow size low) (by rw [Nat.testBit_xor, top, high]; rfl),
        q ^^^ 2 ^ (29 - n), Nat.xor_lt_two_pow hq (Nat.pow_lt_pow_right (by decide) (by omega)), ?_⟩
      rw [carrylessProduct_xor_two_pow _ _ (by omega), ← Nat.xor_assoc, quotient]
    · rename_i top
      exact ⟨lt_two_pow_of_top_false size (Bool.eq_false_iff.2 top), q, hq, quotient⟩

/-! ## The bits of the access code -/

theorem accessCode_getLsbD (lap : BitVec 24) (i : Nat) : (accessCode lap).getLsbD i =
    if i < 4 then (preamble (syncWord lap)).getLsbD i
    else if i < 68 then (syncWord lap).getLsbD (i - 4)
    else (trailer (syncWord lap)).getLsbD (i - 68) := by
  simp only [accessCode, BitVec.getLsbD_append]
  grind

theorem acGen_getD (lap : BitVec 24) (i : Nat) : (acGen lap).getD i false = (accessCode lap).getLsbD i := by
  rw [acGen, hw_acLen, hostToAir_getD, BitVec.testBit_toNat]
  by_cases hi : i < 72
  · rw [decide_eq_true hi, Bool.true_and]
  · rw [decide_eq_false hi, Bool.false_and, BitVec.getLsbD_of_ge _ i (by omega)]

/-- A field of the access code, as a sequence. -/
theorem slice_acGen (lap : BitVec 24) {a n : Nat} (h : a + n ≤ 72) :
    slice (acGen lap) a n = hostToAir ((accessCode lap).extractLsb' a n).toNat n := by
  rw [acGen, hw_acLen, slice_hostToAir h, hostToAir_extract _ (.inl (Nat.le_refl n))]

theorem extract_syncWord (lap : BitVec 24) : (accessCode lap).extractLsb' 4 64 = syncWord lap := by
  apply BitVec.eq_of_getLsbD_eq
  intro i hi
  rw [BitVec.getLsbD_extractLsb', accessCode_getLsbD, if_neg (by omega), if_pos (by omega), decide_eq_true hi,
    Bool.true_and, Nat.add_sub_cancel_left]

/-- The upper part of the sync word is the information itself, the scrambling having cancelled (rule R125). -/
theorem syncWord_getLsbD_high (lap : BitVec 24) {i : Nat} (h1 : 34 ≤ i) (h2 : i < 64) :
    (syncWord lap).getLsbD i = (syncExtension lap ++ lap).getLsbD (i - 34) := by
  simp only [syncWord, BitVec.getLsbD_xor, BitVec.getLsbD_append, BitVec.getLsbD_extractLsb']
  rw [if_neg (by omega), decide_eq_true (show i - 34 < 30 by omega), Bool.true_and, Nat.add_sub_cancel' h1,
    Bool.xor_assoc, Bool.xor_self, Bool.xor_false]

theorem accessCode_lap (lap : BitVec 24) {i : Nat} (hi : i < 24) :
    (accessCode lap).getLsbD (38 + i) = lap.getLsbD i := by
  rw [accessCode_getLsbD, if_neg (by omega), if_pos (by omega), syncWord_getLsbD_high _ (by omega) (by omega),
    BitVec.getLsbD_append, show 38 + i - 4 - 34 = i by omega, if_pos hi]

theorem accessCode_extension (lap : BitVec 24) {i : Nat} (hi : i < 6) :
    (accessCode lap).getLsbD (62 + i) = (syncExtension lap).getLsbD i := by
  rw [accessCode_getLsbD, if_neg (by omega), if_pos (by omega), syncWord_getLsbD_high _ (by omega) (by omega),
    BitVec.getLsbD_append, if_neg (by omega), show 62 + i - 4 - 34 - 24 = i by omega]

theorem extract_extension (lap : BitVec 24) : (accessCode lap).extractLsb' 62 6 = syncExtension lap := by
  apply BitVec.eq_of_getLsbD_eq
  intro i hi
  rw [BitVec.getLsbD_extractLsb', accessCode_extension lap hi, decide_eq_true hi, Bool.true_and]

/-! ## The alternating ends -/

/-- The extension continues to the trailer: its upper half alternates (rule R125, step 1). -/
theorem syncExtension_alternates (lap : BitVec 24) {i : Nat} (hi : i < 3) :
    (syncExtension lap).getLsbD (3 + i) = (!lap.getLsbD 23 ^^ i % 2 == 1) := by
  unfold syncExtension
  cases lap.getLsbD 23 <;> revert i <;> decide

theorem preamble_alternates (sw : BitVec 64) {i : Nat} (hi : i < 4) :
    (preamble sw).getLsbD i = (sw.getLsbD 0 ^^ i % 2 == 1) := by
  unfold preamble
  cases sw.getLsbD 0 <;> revert i <;> decide

theorem trailer_alternates (sw : BitVec 64) {i : Nat} (hi : i < 4) :
    (trailer sw).getLsbD i = (!sw.getLsbD 63 ^^ i % 2 == 1) := by
  unfold trailer
  cases sw.getLsbD 63 <;> revert i <;> decide

/-- The head alternates from the preamble into the sync word (rule R126). -/
theorem accessCode_head (lap : BitVec 24) {i : Nat} (hi : i < 5) :
    (accessCode lap).getLsbD i = ((syncWord lap).getLsbD 0 ^^ i % 2 == 1) := by
  rw [accessCode_getLsbD]
  split
  · exact preamble_alternates _ ‹_›
  · obtain rfl : i = 4 := by omega
    exact (Bool.xor_false _).symm

/-- The tail alternates from the extension, the end of the sync word, into the trailer (rules R125, R126). -/
theorem accessCode_tail (lap : BitVec 24) {i : Nat} (hi : i < 7) :
    (accessCode lap).getLsbD (65 + i) = (!lap.getLsbD 23 ^^ i % 2 == 1) := by
  by_cases inside : i < 3
  · rw [show 65 + i = 62 + (3 + i) by omega, accessCode_extension lap (by omega), syncExtension_alternates lap inside]
  · have last : (syncWord lap).getLsbD 63 = !lap.getLsbD 23 := by
      have := accessCode_extension lap (i := 5) (by decide)
      rw [accessCode_getLsbD, syncExtension_alternates lap (i := 2) (by decide)] at this
      simpa using this
    rw [accessCode_getLsbD, if_neg (by omega), if_neg (by omega), trailer_alternates _ (by omega), last]
    grind

/-- Neighbours in an alternating run differ. -/
theorem xor_odd_succ (b : Bool) (i : Nat) : (b ^^ i % 2 == 1) = !(b ^^ (i + 1) % 2 == 1) := by
  have parity : ((i + 1) % 2 == 1) = !(i % 2 == 1) := by
    rcases Nat.mod_two_eq_zero_or_one i with h | h <;> simp [Nat.add_mod, h]
  rw [parity, Bool.xor_not, Bool.not_not]

/-! ## The sync word is a codeword -/

/-- Two numbers without a common place: their union is their difference. -/
theorem shiftLeft_or_eq_xor (x : Nat) {c k : Nat} (hc : c < 2 ^ k) : x <<< k ||| c = x <<< k ^^^ c := by
  apply Nat.eq_of_testBit_eq
  intro i
  rw [Nat.testBit_or, Nat.testBit_xor, Nat.testBit_shiftLeft]
  by_cases hi : k ≤ i
  · rw [Nat.testBit_lt_two_pow (Nat.lt_of_lt_of_le hc (Nat.pow_le_pow_right (by decide) hi)), Bool.or_false,
      Bool.xor_false]
  · rw [decide_eq_false hi, Bool.false_and, Bool.false_or, Bool.false_xor]

/-- Unscrambled, the sync word is the information followed by the remainder of its division (rule R125). -/
theorem syncWord_xor_pn (lap : BitVec 24) : ∃ x : BitVec 30, syncWord lap ^^^ hw.syncPn =
    x ++ BitVec.ofNat 34 (syncRemainder (x.toNat <<< 34)) := by
  refine ⟨(syncExtension lap ++ lap) ^^^ hw.syncPn.extractLsb' 34 30, ?_⟩
  rw [syncWord, BitVec.xor_assoc, BitVec.xor_self, BitVec.xor_zero]

/-- The unscrambled sync word is a multiple of the generator. -/
theorem syncWord_multiple (lap : BitVec 24) :
    ∃ q, q < 2 ^ 30 ∧ (syncWord lap).toNat ^^^ hw.syncPn.toNat = carrylessProduct q hw.syncG := by
  obtain ⟨x, unscrambled⟩ := syncWord_xor_pn lap
  have size : x.toNat <<< 34 < 2 ^ 64 := by
    rw [Nat.shiftLeft_eq]
    omega
  obtain ⟨small, q, hq, quotient⟩ := syncDivide_spec size (Nat.le_refl 30)
  rw [← syncRemainder_eq] at small quotient
  refine ⟨q, hq, ?_⟩
  calc (syncWord lap).toNat ^^^ hw.syncPn.toNat
      = x.toNat <<< 34 ||| syncRemainder (x.toNat <<< 34) := by
        rw [← BitVec.toNat_xor, unscrambled, BitVec.toNat_append, BitVec.toNat_ofNat, Nat.mod_eq_of_lt small]
    _ = x.toNat <<< 34 ^^^ syncRemainder (x.toNat <<< 34) := shiftLeft_or_eq_xor _ small
    _ = carrylessProduct q hw.syncG := quotient

/-- Settles O43, field by field. -/
theorem accessCodeShape : Obligations.AccessCodeShape := by
  intro lap
  refine ⟨acGen_length lap, fun i hi => ?_, ?_, fun i hi => ?_, fun i hi => ?_, ?_⟩
  · rw [acGen_getD, accessCode_lap lap hi]
  · rw [slice_acGen lap (by decide), extract_extension, syncExtension]
    split <;> rfl
  · rw [acGen_getD, acGen_getD, accessCode_head lap (by omega), accessCode_head lap (by omega), xor_odd_succ]
  · rw [acGen_getD, acGen_getD, show 66 + i = 65 + (i + 1) by omega, accessCode_tail lap (by omega),
      accessCode_tail lap (by omega), xor_odd_succ]
  · rw [slice_acGen lap (by decide), extract_syncWord, airValue_hostToAir, Nat.mod_eq_of_lt (syncWord lap).isLt]
    exact syncWord_multiple lap

end Sys2Proof.Machine

/-! # EV3, EV5 and HV3: the length found by discovery

The lengths of rule R178 are tried on one reading, of which the reading of a length is the first part
(`plainRead_take`), so the length found is the least that validates (`evLength_eq_some`, `evLength_eq_none`). HV3 reads
the same symbols again, so its write puts the first bytes of the EV3 attempt back where they stand
(`writeBuf_take_again`). -/

namespace Sys2Proof.Machine

/-! ## Readings of uncoded symbols -/

theorem whitenFrom_take (j m : Nat) (t : Bits) : (whitenFrom j t).take m = whitenFrom j (t.take m) := by
  induction t generalizing j m with
  | nil => simp [whitenFrom]
  | cons b t ih =>
    cases m with
    | zero => rfl
    | succ m => rw [whitenFrom, List.take_succ_cons, List.take_succ_cons, whitenFrom, ih]

theorem dewhiten_take (t : Bits) (clock skip : Nat) (w : Bool) {m n : Nat} (h : m ≤ n) :
    (dewhiten t clock n skip w).take m = dewhiten (t.take m) clock m skip w := by
  unfold dewhiten
  rw [List.take_take, Nat.min_self]
  split
  · rw [whitenFrom_take, List.take_take, Nat.min_eq_left h]
  · rw [List.take_take, Nat.min_eq_left h]

theorem symbols_take (s : State) (a : Nat) {m n : Nat} (h : m ≤ n) : (s.symbols a n).take m = s.symbols a m := by
  rw [State.symbols, State.readBuf, ← List.map_take, List.take_range, Nat.min_eq_left h]
  rfl

/-- The reading of fewer bits is the first part of the reading of more. -/
theorem plainRead_take (s : State) (base skip : Nat) {m n : Nat} (h : m ≤ n) :
    (s.plainRead base skip n).take m = s.plainRead base skip m := by
  rw [State.plainRead, dewhiten_take _ _ _ _ h, symbols_take s base h, State.plainRead]

@[simp] theorem plainRead_length (s : State) (base skip n : Nat) : (s.plainRead base skip n).length = n := by
  simp [State.plainRead]

/-! ## Length discovery -/

/-- The whole bytes of payload that a search of at most `maxtot` bytes can read (rule R178). -/
def State.evBytes (s : State) (maxtot : Nat) : Nat := min maxtot ((s.length - 126) / 8)

/-- Whether the first `len` bytes of the payload validate (rules R161, R178). -/
def State.evValid (s : State) (len : Nat) : Bool := residueZero (s.plainRead 126 18 (8 * len)) len s.ctx.uap

/-- The length that the search of rule R178 finds. -/
def State.evLength (s : State) (maxtot : Nat) : Option Nat :=
  discover (s.plainRead 126 18 (8 * s.evBytes maxtot)) 3 (s.evBytes maxtot) s.ctx.uap

theorem crcOk_plainRead (s : State) {len n : Nat} (h3 : 3 ≤ len) (hn : len ≤ n) :
    crcOk (s.plainRead 126 18 (8 * n)) len s.ctx.uap = s.evValid len := by
  rw [← crcOk_take _ _ _ (by omega), plainRead_take _ _ _ (by omega),
    crcOk_eq_residueZero _ (by omega) (Nat.le_of_eq (plainRead_length _ _ _ _).symm), State.evValid]

theorem evLength_eq_some {s : State} {maxtot len : Nat} (h3 : 3 ≤ len) (hn : len ≤ s.evBytes maxtot)
    (valid : s.evValid len = true) (least : ∀ l, 3 ≤ l → l < len → s.evValid l = false) :
    s.evLength maxtot = some len := by
  rw [State.evLength, discover, List.find?_range'_eq_some]
  refine ⟨by rwa [crcOk_plainRead s h3 hn], by rw [List.mem_range'_1]; omega, fun l hl hlt => ?_⟩
  rw [crcOk_plainRead s hl (by omega), least l hl hlt]
  rfl

theorem evLength_eq_none {s : State} {maxtot : Nat}
    (h : ∀ l, 3 ≤ l → l ≤ s.evBytes maxtot → s.evValid l = false) :
    s.evLength maxtot = none := by
  rw [State.evLength, discover, List.find?_range'_eq_none]
  intro l hl hlt
  rw [crcOk_plainRead s hl (by omega), h l hl (by omega)]
  rfl

/-- The first `len` bytes of the payload in `PAY` and reported. -/
def State.evWritten (s : State) (len : Nat) : State :=
  (s.writeBuf .pay 0 (s.plainRead 126 18 (8 * len))).setPayloadLength len

/-- What the handler of rule R178 does: too few bytes, the length found, or every byte with a mismatch. -/
theorem plEvUncoded_eq (maxtot : Nat) (s : State) : plEvUncoded maxtot s =
    if s.evBytes maxtot < 3 then (s, .shortBuffer)
    else (s.evLength maxtot).elim (s.evWritten (s.evBytes maxtot), .crcMismatched) (s.evWritten ·, .crcMatched) := by
  unfold plEvUncoded
  extract_lets n bits
  by_cases few : s.evBytes maxtot < 3
  · rw [if_pos few]
    exact if_pos few
  rw [if_neg few]
  refine (if_neg few).trans ?_
  split
  · rename_i len found
    have head : bits.take (8 * len) = s.plainRead 126 18 (8 * len) :=
      plainRead_take s 126 18 (Nat.mul_le_mul_left 8 (discover_some found).2.2)
    rw [show s.evLength maxtot = some len from found, head]
    rfl
  · rename_i found
    rw [show s.evLength maxtot = none from found]
    rfl

theorem plEvUncoded_short {maxtot : Nat} {s : State} (h : s.evBytes maxtot < 3) :
    plEvUncoded maxtot s = (s, .shortBuffer) := by
  rw [plEvUncoded_eq, if_pos h]

theorem plEvUncoded_found {maxtot len : Nat} {s : State} (h : 3 ≤ s.evBytes maxtot)
    (found : s.evLength maxtot = some len) : plEvUncoded maxtot s = (s.evWritten len, .crcMatched) := by
  rw [plEvUncoded_eq, if_neg (Nat.not_lt.2 h), found]
  rfl

theorem plEvUncoded_none {maxtot : Nat} {s : State} (h : 3 ≤ s.evBytes maxtot) (found : s.evLength maxtot = none) :
    plEvUncoded maxtot s = (s.evWritten (s.evBytes maxtot), .crcMismatched) := by
  rw [plEvUncoded_eq, if_neg (Nat.not_lt.2 h), found]
  rfl

/-- A stage that ends with `len` bytes written to `PAY` and reported. -/
theorem payloadStage_evWritten {s : State} {h : Handler} {len : Nat} {o : PayloadOutcome}
    (run : h s.payloadStart = (s.payloadStart.evWritten len, o)) (hr : o.result ≠ .zero) (hlen : len ≤ 182) :
    AcceptedWith s (s.payloadStage h) (.plain len) o.result o.cause (s.plainRead 126 18 (8 * len)) :=
  payloadStage_accepted (p := .plain len) run hr (show len < 512 by omega) (by rw [plainRead_length]; omega) rfl

/-! ## EV5 -/

/-- Settles O59: a length found, none found, and too few bytes. -/
theorem ev5Packet : Obligations.Ev5Packet := by
  intro s f hp
  have run : exec (.pktEv5 f) s = .next (s.payloadStage handleEv5) := exec_packetInstr_pending .ev5 f hp
  have few : s.evBytes 182 ≤ 182 := Nat.min_le_left _ _
  dsimp only
  rw [run]
  refine ⟨fun len h3 hn valid least => ⟨_, rfl, ?_⟩, fun h3 hnone => ⟨_, rfl, ?_⟩, fun hshort => ?_⟩
  · have fits : len ≤ s.evBytes 182 := hn
    have found := evLength_eq_some (s := s) h3 fits valid least
    exact payloadStage_evWritten (h := handleEv5) (o := .crcMatched)
      (plEvUncoded_found (s := s.payloadStart) (Nat.le_trans h3 fits) found) (by decide) (Nat.le_trans fits few)
  · exact payloadStage_evWritten (h := handleEv5) (o := .crcMismatched)
      (plEvUncoded_none (s := s.payloadStart) h3 (evLength_eq_none (s := s) hnone)) (by decide) few
  · have short := plEvUncoded_short (maxtot := 182) (s := s.payloadStart) hshort
    rw [payloadStage_failed (h := handleEv5) short (.refl _) rfl (by decide)]
    rfl

/-! ## Writing a second time what stands there -/

theorem cellsAt_append (a : Nat) (s t : Bits) : cellsAt a (s ++ t) = cellsAt a s ++ cellsAt (a + s.length) t := by
  induction s generalizing a with
  | nil => rfl
  | cons b s ih =>
    rw [List.cons_append, cellsAt, cellsAt, ih, List.length_cons, show a + 1 + s.length = a + (s.length + 1) by omega]
    cases b <;> rfl

/-- No listed cell passes a test that fails at every address the list covers. -/
theorem filter_cellsAt_none {a : Nat} {s : Bits} {p : Host.Cell → Bool}
    (h : ∀ c : Host.Cell, a ≤ c.1 → c.1 < a + s.length → p c = false) : (cellsAt a s).filter p = [] := by
  rw [List.filter_eq_nil_iff]
  intro c hc
  obtain ⟨lo, hi⟩ := cellsAt_range s a c hc
  rw [h c lo hi]
  exact Bool.false_ne_true

/-- Below its start a write leaves the cells that stood there. -/
theorem Memory.filter_below_put (m : Memory) (a : Nat) (s : Bits) :
    (m.put a s).filter (fun c => c.1 < a) = m.filter (fun c => c.1 < a) := by
  have written : (cellsAt a s).filter (fun c => c.1 < a) = [] :=
    filter_cellsAt_none fun c lo _ => decide_eq_false (by omega)
  have rest : (m.filter (fun c => a + s.length ≤ c.1)).filter (fun c => c.1 < a) = [] := by
    simp only [List.filter_filter, List.filter_eq_nil_iff, Bool.and_eq_true, decide_eq_true_eq]
    omega
  rw [Memory.put, List.filter_append, List.filter_append, written, rest, List.filter_filter, List.append_nil,
    List.append_nil]
  simp only [Bool.and_self]

/-- Past the first part of a written sequence stand the cells of the rest of it, and those above it. -/
theorem Memory.filter_above_put (m : Memory) (a : Nat) (s t : Bits) :
    (m.put a (s ++ t)).filter (fun c => a + s.length ≤ c.1) =
      cellsAt (a + s.length) t ++ m.filter (fun c => a + (s ++ t).length ≤ c.1) := by
  have size : (s ++ t).length = s.length + t.length := List.length_append
  have low : (m.filter (fun c => c.1 < a)).filter (fun c => a + s.length ≤ c.1) = [] := by
    simp only [List.filter_filter, List.filter_eq_nil_iff, Bool.and_eq_true, decide_eq_true_eq]
    omega
  have first : (cellsAt a s).filter (fun c => a + s.length ≤ c.1) = [] :=
    filter_cellsAt_none fun c _ hi => decide_eq_false (by omega)
  have second : (cellsAt (a + s.length) t).filter (fun c => a + s.length ≤ c.1) = cellsAt (a + s.length) t :=
    List.filter_eq_self.2 fun c hc => decide_eq_true (cellsAt_range t _ c hc).1
  have rest : (m.filter (fun c => a + (s ++ t).length ≤ c.1)).filter (fun c => a + s.length ≤ c.1) =
      m.filter (fun c => a + (s ++ t).length ≤ c.1) :=
    List.filter_eq_self.2 fun c hc => by
      have := (List.mem_filter.1 hc).2
      simp only [decide_eq_true_eq] at this ⊢
      omega
  rw [Memory.put, List.filter_append, List.filter_append, low, cellsAt_append, List.filter_append, first, second,
    rest, List.nil_append, List.nil_append]

/-- Writing the first part of a sequence over the sequence changes nothing. -/
theorem Memory.put_put_append (m : Memory) (a : Nat) (s t : Bits) :
    (m.put a (s ++ t)).put a s = m.put a (s ++ t) := by
  rw [Memory.put, Memory.filter_below_put, Memory.filter_above_put, Memory.put, cellsAt_append, List.append_assoc]

/-- The same of a buffer. -/
theorem writeBuf_take_again (s : State) (r : Region) (off k : Nat) (bits : Bits) :
    (s.writeBuf r off bits).writeBuf r off (bits.take k) = s.writeBuf r off bits := by
  have again := Memory.put_put_append s.mem (r.base + off) ((bits.take (r.size - off)).take k)
    ((bits.take (r.size - off)).drop k)
  rw [List.take_append_drop, List.take_take, Nat.min_comm, ← List.take_take] at again
  unfold State.writeBuf
  rw [again]

/-- The payload symbols, which lie below `PAY`, read the same after a write of `PAY`. -/
theorem plainRead_writePay (s : State) (bits : Bits) {base n : Nat} (skip : Nat) (h : base + n ≤ 4096) :
    (s.writeBuf .pay 0 bits).plainRead base skip n = s.plainRead base skip n := by
  have start : s.pktBase < 4096 := s.range.base.isLt
  have same : (s.writeBuf .pay 0 bits).symbols base n = s.symbols base n :=
    List.map_congr_left fun i hi => get_writeBuf_outside s .pay 0 bits _ <| .inl <| by
      have : i < n := List.mem_range.1 hi
      show 0 + (s.pktBase + base) + i < 0x2000 + 0
      omega
  rw [State.plainRead, same]
  rfl

/-! ## HV3 -/

/-- HV3 takes 240 uncoded symbols (rules R72, R177). -/
theorem plHv_hv3 (s : State) : plHv (row .hv3Ev3) s =
    if s.length - 126 < 240 then (s, .shortBuffer)
    else ((s.writeBuf .pay 0 (s.plainRead 126 18 240)).setPayloadLength 30, .unvalidated) := rfl

theorem plHv_hv3_short {s : State} (h : s.length - 126 < 240) : plHv (row .hv3Ev3) s = (s, .shortBuffer) := by
  rw [plHv_hv3, if_pos h]

theorem plHv_hv3_read {s : State} (h : 240 ≤ s.length - 126) : plHv (row .hv3Ev3) s =
    ((s.writeBuf .pay 0 (s.plainRead 126 18 240)).setPayloadLength 30, .unvalidated) := by
  rw [plHv_hv3, if_neg (Nat.not_lt.2 h)]

/-! ## Type 7 -/

theorem handleHv3Ev3_ev3 {s u : State} (h : plEvUncoded 32 s = (u, .crcMatched)) :
    handleHv3Ev3 s = (u, .crcMatched) := by
  show plType7 (row .hv3Ev3) s = _
  unfold plType7
  rw [show plEvUncoded (row .hv3Ev3).maxBytes s = _ from h]

theorem handleHv3Ev3_hv3 {s u : State} {o : PayloadOutcome} (h : plEvUncoded 32 s = (u, o)) (ho : o ≠ .crcMatched) :
    handleHv3Ev3 s = plHv (row .hv3Ev3) (u.setPayloadLength 0) := by
  show plType7 (row .hv3Ev3) s = _
  unfold plType7
  rw [show plEvUncoded (row .hv3Ev3).maxBytes s = _ from h]
  split
  · rename_i e
    exact absurd (Prod.mk.inj e).2 ho
  · rename_i e
    rw [(Prod.mk.inj e).1]

/-- The HV3 reading after an EV3 attempt that did not validate: its 30 bytes are the first of those in `PAY`. -/
theorem plHv_after_ev3 {s : State} (h : 240 ≤ s.length - 126) :
    plHv (row .hv3Ev3) ((s.evWritten (s.evBytes 32)).setPayloadLength 0) =
      ((s.writeBuf .pay 0 (s.plainRead 126 18 (8 * s.evBytes 32))).setPayloadLength 30, .unvalidated) := by
  have enough : 30 ≤ s.evBytes 32 := Nat.le_min.2 ⟨by decide, by omega⟩
  have fits : s.evBytes 32 ≤ 32 := Nat.min_le_left _ _
  have reading : ((s.evWritten (s.evBytes 32)).setPayloadLength 0).plainRead 126 18 240 =
      (s.plainRead 126 18 (8 * s.evBytes 32)).take 240 := by
    rw [plainRead_take s 126 18 (by omega)]
    exact plainRead_writePay s _ 18 (by decide)
  rw [plHv_hv3_read (s := (s.evWritten (s.evBytes 32)).setPayloadLength 0) h, reading]
  have again := congrArg (fun u : State => (u.setPayloadLength 30, PayloadOutcome.unvalidated))
    (writeBuf_take_again s .pay 0 240 (s.plainRead 126 18 (8 * s.evBytes 32)))
  exact again

/-- What a write of `PAY` leaves there, in the words of the packet statements. -/
theorem holdsBits_writePay (s : State) {bits : Bits} (h : bits.length ≤ 2744) :
    HoldsBits (s.writeBuf .pay 0 bits) 0x2000 bits := by
  intro k hk
  have inside := get_writeBuf_inside s .pay 0 bits k hk (by rw [Region.size, hw_payBits]; omega)
  rw [List.getD_eq_getElem?_getD, List.getElem?_eq_getElem hk, Option.getD_some]
  exact inside

/-- Settles O56, clause by clause: EV3 found, HV3 over its attempt, HV3 cut off after an attempt, and no attempt. -/
theorem hv3Ev3Packet : Obligations.Hv3Ev3Packet := by
  intro s f hp
  have run : exec (.pktHv3Ev3 f) s = .next (s.payloadStage handleHv3Ev3) := exec_packetInstr_pending .hv3Ev3 f hp
  have few : s.evBytes 32 ≤ 32 := Nat.min_le_left _ _
  have fits : (s.plainRead 126 18 (8 * s.evBytes 32)).length ≤ 2744 := by
    rw [plainRead_length]
    omega
  dsimp only
  rw [run]
  refine ⟨fun len h3 hn valid least => ⟨_, rfl, ?_⟩, fun hnone hsize => ⟨_, rfl, ?_⟩,
    fun hnone h3 hsize => ⟨_, rfl, ?_⟩, fun hshort => ?_⟩
  · have hlen : len ≤ s.evBytes 32 := hn
    have attempt := plEvUncoded_found (s := s.payloadStart) (Nat.le_trans h3 hlen)
      (evLength_eq_some (s := s) h3 hlen valid least)
    exact payloadStage_evWritten (o := .crcMatched) (handleHv3Ev3_ev3 attempt) (by decide) (by omega)
  · have h3 : 3 ≤ s.evBytes 32 := Nat.le_min.2 ⟨by decide, by omega⟩
    have attempt := plEvUncoded_none (s := s.payloadStart) h3 (evLength_eq_none (s := s) hnone)
    have fallback := (handleHv3Ev3_hv3 attempt (by decide)).trans (plHv_after_ev3 (s := s.payloadStart) hsize)
    obtain ⟨registers, written, outside⟩ := payloadStage_accepted (o := .unvalidated) (p := .plain 30) fallback
      (by decide) (by decide) fits rfl
    rw [plainRead_length] at outside
    exact ⟨registers, written, outside⟩
  · have attempt := plEvUncoded_none (s := s.payloadStart) h3 (evLength_eq_none (s := s) hnone)
    have fallback := (handleHv3Ev3_hv3 attempt (by decide)).trans
      (plHv_hv3_short (s := (s.payloadStart.evWritten _).setPayloadLength 0) hsize)
    rw [payloadStage_failed fallback ((PayloadFrame.writePay _ _).trans (.setPayloadLength _ _)) rfl (by decide)]
    exact ⟨rfl, holdsBits_writePay s.payloadStart fits, get_writeBuf_outside s.payloadStart .pay 0 _⟩
  · have attempt := plEvUncoded_short (s := s.payloadStart) hshort
    have fallback := (handleHv3Ev3_hv3 attempt (by decide)).trans
      (plHv_hv3_short (s := s.payloadStart.setPayloadLength 0) (show s.length - 126 < 240 by omega))
    rw [payloadStage_failed fallback (.setPayloadLength _ _) rfl (by decide)]
    rfl

end Sys2Proof.Machine

/-! # The bit codec

Each command ends in one of two states, which its `exec_` lemmas name, and the rest is which bit stands where. Whitening
sees a position only modulo the period (`whitenFrom_congr_mod`), undoes itself (`whitenFrom_whitenFrom`) and carries on
over a second part (`whitenFrom_append`): these are the laws of rule R94. -/

namespace Sys2Proof.Machine

/-! ## Operands -/

theorem bitAddress_eq (a : Word) : bitAddress a = a.toNat % 65536 := BitVec.toNat_setWidth 16 a

theorem clockOperand_eq (a : Word) : clockOperand a = a.toNat % 64 := BitVec.toNat_setWidth 6 a

/-- When a command refuses the count or the source range it is given (rules R45, R96, R99). -/
theorem count_or_range_refused_iff (s : State) (a n most : Nat) :
    (decide (n > most) || !s.rangeOk a n) = true ↔ most < n ∨ s.rangeOk a n = false := by
  rw [Bool.or_eq_true, decide_eq_true_eq, Bool.not_eq_true']

theorem count_and_range_accepted {s : State} {a n most : Nat} (hn : n ≤ most) (hr : s.rangeOk a n = true) :
    ¬ (decide (n > most) || !s.rangeOk a n) = true := by
  rw [count_or_range_refused_iff, not_or, Bool.not_eq_false]
  exact ⟨Nat.not_lt.2 hn, hr⟩

/-! ## Bits of readings and of their values -/

theorem bitsAt_getD (s : State) (a n i : Nat) :
    (s.bitsAt a n).getD i false = (decide (i < n) && s.bitRead (a + i)) := by
  rw [List.getD_eq_getElem?_getD]
  by_cases hi : i < n
  · rw [State.bitsAt, List.getElem?_map, List.getElem?_range hi, decide_eq_true hi, Bool.true_and, Option.map_some,
      Option.getD_some]
  · rw [List.getElem?_eq_none (by rw [bitsAt_length]; omega), decide_eq_false hi, Bool.false_and, Option.getD_none]

theorem airToHost_testBit (s : Bits) (n i : Nat) : (airToHost s n).testBit i = (decide (i < n) && s.getD i false) := by
  rw [airToHost, airValue_testBit, List.getD_eq_getElem?_getD, List.getD_eq_getElem?_getD, List.getElem?_take]
  by_cases hi : i < n
  · rw [if_pos hi, decide_eq_true hi, Bool.true_and]
  · rw [if_neg hi, decide_eq_false hi, Bool.false_and, Option.getD_none]

/-! ## What a command that ends in `finish` leaves alone -/

theorem sameButResults_finish (s : State) (r0 r1 : Nat) (c : Cause) : SameButResults s (s.finish r0 r1 c) :=
  ⟨rfl, fun _ => bitRead_congr rfl rfl rfl⟩

theorem sameButBits_writeBuf_finish (s : State) (r : Region) (off : Nat) {bits : Bits} {n : Nat}
    (hn : bits.length = n) (r0 r1 : Nat) (c : Cause) :
    SameButBits (r.base + off) n s ((s.writeBuf r off bits).finish r0 r1 c) :=
  ⟨rfl, fun a ha => bitRead_writeBuf_outside s r off bits a (by rwa [hn])⟩

/-- A bit that a command wrote to `WB` reads as the bit written. -/
theorem bitRead_writeBuf_wb_finish (s : State) {off i : Nat} {bits : Bits} (hi : i < bits.length)
    (hfit : off + i < 3125) (r0 r1 : Nat) (c : Cause) :
    ((s.writeBuf .wb off bits).finish r0 r1 c).bitRead (0x1000 + off + i) = bits[i] := by
  have region : regionOf (0x1000 + off + i) = some .wb := by
    rw [regionOf_eq_some_iff, Region.holds_iff, Region.base, Region.size, hw_maxSymbols]
    omega
  rw [bitRead_buffer _ region rfl]
  exact get_writeBuf_inside s .wb off bits i hi hfit

/-! ## `AIR2HOST` -/

theorem exec_air2host {s : State} (hf : s.phase ≠ .fault) (hn : s.ops.a1.toNat ≤ 32)
    (hr : s.rangeOk (bitAddress s.ops.a0) s.ops.a1.toNat = true) : exec .air2host s =
      .next (s.finish (airToHost (s.bitsAt (bitAddress s.ops.a0) s.ops.a1.toNat) s.ops.a1.toNat) 0 .ok) := by
  rw [exec, execAir2host, command_run _ hf]
  exact congrArg _ (if_neg (count_and_range_accepted hn hr))

theorem exec_air2host_refused {s : State} (hf : s.phase ≠ .fault)
    (h : 32 < s.ops.a1.toNat ∨ s.rangeOk (bitAddress s.ops.a0) s.ops.a1.toNat = false) :
    exec .air2host s = .next (s.raise .badOperand) := by
  rw [exec, execAir2host, command_run _ hf]
  exact congrArg _ (if_pos ((count_or_range_refused_iff _ _ _ _).2 h))

/-- Settles O34: the bits of the value are those of the reading, and the reading's those at the addresses. -/
theorem air2HostReadsBits : Obligations.Air2HostReadsBits := by
  intro s hf
  dsimp only
  rw [← bitAddress_eq]
  refine ⟨fun hn hr => ⟨_, exec_air2host hf hn hr, fun i hi => ?_, rfl, rfl, sameButResults_finish s _ _ _⟩,
    exec_air2host_refused hf⟩
  rw [State.finish_res, BitVec.getLsbD_ofNat, airToHost_testBit, bitsAt_getD, decide_eq_true hi, Bool.true_and,
    ← Bool.and_assoc, Bool.and_self]

/-! ## `HOST2AIR` -/

theorem exec_host2air {s : State} (hf : s.phase ≠ .fault) (hn : s.ops.a1.toNat ≤ 32)
    (hd : s.ops.a2.toNat + s.ops.a1.toNat ≤ 3125) : exec .host2air s = .next
      ((s.writeBuf .wb s.ops.a2.toNat (hostToAir s.ops.a0.toNat s.ops.a1.toNat)).finish s.ops.a1.toNat 0 .ok) := by
  rw [exec, execHost2air, command_run _ hf]
  refine congrArg _ (if_neg ?_)
  simp only [countOperand, gt_iff_lt, Bool.or_eq_true, decide_eq_true_eq]
  omega

theorem exec_host2air_refused {s : State} (hf : s.phase ≠ .fault)
    (h : 32 < s.ops.a1.toNat ∨ 3125 < s.ops.a2.toNat + s.ops.a1.toNat) :
    exec .host2air s = .next (s.raise .badOperand) := by
  rw [exec, execHost2air, command_run _ hf]
  refine congrArg _ (if_pos ?_)
  simp only [countOperand, gt_iff_lt, Bool.or_eq_true, decide_eq_true_eq]
  omega

/-- Settles O35: the sequence written holds bit `i` of `A0` at place `i`, and ends inside `WB`. -/
theorem host2AirWritesBits : Obligations.Host2AirWritesBits := by
  intro s hf
  refine ⟨fun hn hd => ⟨_, exec_host2air hf hn hd, ?_, fun i hi => ?_, ?_⟩, exec_host2air_refused hf⟩
  · rw [State.finish_res, BitVec.ofNat_toNat, BitVec.setWidth_eq]
    rfl
  · rw [bitRead_writeBuf_wb_finish s (by rwa [hostToAir_length]) (by omega), hostToAir_getElem, BitVec.testBit_toNat]
  · exact sameButBits_writeBuf_finish s .wb s.ops.a2.toNat (hostToAir_length _ _) _ _ _

/-! ## `REV8` -/

theorem rev8_getLsbD (b : Byte) {i : Nat} (hi : i < 8) : (rev8 b).getLsbD i = b.getLsbD (7 - i) := by
  rw [rev8, BitVec.getLsbD_reverse, BitVec.getMsbD, decide_eq_true hi, Bool.true_and]

theorem exec_rev8 {s : State} (hf : s.phase ≠ .fault) :
    exec .rev8 s = .next (s.finish (rev8 (byteOperand s.ops.a0)).toNat 0 .ok) := by
  rw [exec, execRev8, command_run _ hf]

/-- Settles O36: the operand byte is the low byte of `A0`, and its reversal the low byte of `R0`. -/
theorem rev8ReversesByte : Obligations.Rev8ReversesByte := by
  intro s hf
  have byte : (rev8 (byteOperand s.ops.a0)).toNat < 256 := (rev8 (byteOperand s.ops.a0)).isLt
  refine ⟨_, exec_rev8 hf, fun i hi => ?_, ?_, rfl, rfl, sameButResults_finish s _ _ _⟩
  · rw [State.finish_res, BitVec.getLsbD_ofNat, BitVec.testBit_toNat, rev8_getLsbD _ hi, byteOperand,
      BitVec.getLsbD_setWidth, decide_eq_true (show i < 32 by omega), decide_eq_true (show 7 - i < 8 by omega),
      Bool.true_and, Bool.true_and]
  · rw [State.finish_res, BitVec.toNat_ofNat]
    exact Nat.lt_of_le_of_lt (Nat.mod_le _ _) byte

/-! ## The laws of whitening (rule R94) -/

theorem whitenBit_congr_mod {i j : Nat} (h : i % 127 = j % 127) : whitenBit i = whitenBit j := by
  rw [whitenBit, whitenBit, hw_whitenPeriod, h]

/-- Whitening sees its start position only modulo the period. -/
theorem whitenFrom_congr_mod {i j : Nat} (h : i % 127 = j % 127) (s : Bits) : whitenFrom i s = whitenFrom j s := by
  induction s generalizing i j with
  | nil => rfl
  | cons b s ih => rw [whitenFrom, whitenFrom, whitenBit_congr_mod h, ih (show (i + 1) % 127 = (j + 1) % 127 by omega)]

/-- Whitening twice from one position gives the sequence back. -/
theorem whitenFrom_whitenFrom (j : Nat) (s : Bits) : whitenFrom j (whitenFrom j s) = s := by
  induction s generalizing j with
  | nil => rfl
  | cons b s ih => rw [whitenFrom, whitenFrom, ih, Bool.xor_assoc, Bool.xor_self, Bool.xor_false]

/-- The second part of a sequence is whitened from where the first part ends. -/
theorem whitenFrom_append (j : Nat) (s t : Bits) :
    whitenFrom j (s ++ t) = whitenFrom j s ++ whitenFrom (j + s.length) t := by
  induction s generalizing j with
  | nil => rfl
  | cons b s ih =>
    rw [List.cons_append, whitenFrom, whitenFrom, ih, List.cons_append, List.length_cons, Nat.add_right_comm,
      Nat.add_assoc]

theorem whitenStart_eq (clock skip : Nat) :
    whitenStart clock skip = (hw.whitenIdx.getD (clock % 64) 0 + skip) % 127 := by
  rw [whitenStart, hw_whitenPeriod, Nat.add_mod_mod]

theorem dewhiten_dewhiten (s : Bits) (clock n skip : Nat) (w : Bool) :
    dewhiten (dewhiten s clock n skip w) clock n skip w = s.take n := by
  cases w with
  | false =>
    show (s.take n).take n = s.take n
    rw [List.take_take, Nat.min_self]
  | true =>
    show whitenFrom _ ((whitenFrom _ (s.take n)).take n) = s.take n
    rw [whitenFrom_take, List.take_take, Nat.min_self, whitenFrom_whitenFrom]

theorem dewhiten_skip_period (s : Bits) (clock n skip : Nat) (w : Bool) :
    dewhiten s clock n (skip + 127) w = dewhiten s clock n skip w := by
  rw [dewhiten, dewhiten, whitenStart_eq, whitenStart_eq, ← Nat.add_assoc, Nat.add_mod_right]

/-- A sequence too short for its first part has nothing left for the second. -/
theorem dewhiten_parts (s : Bits) (clock n m skip : Nat) (w : Bool) : dewhiten s clock (n + m) skip w =
    dewhiten s clock n skip w ++ dewhiten (s.drop n) clock m (skip + n) w := by
  cases w with
  | false => exact List.take_add
  | true =>
    show whitenFrom _ (s.take (n + m)) = whitenFrom _ (s.take n) ++ whitenFrom _ ((s.drop n).take m)
    rw [List.take_add, whitenFrom_append]
    by_cases hn : n ≤ s.length
    · have start : (whitenStart clock skip + n) % 127 = whitenStart clock (skip + n) % 127 := by
        rw [whitenStart_eq, whitenStart_eq]
        omega
      rw [List.length_take_of_le hn, whitenFrom_congr_mod start]
    · rw [List.drop_eq_nil_of_le (by omega), List.take_nil, whitenFrom, whitenFrom]

/-- Settles O38, one law after the other. -/
theorem dewhitenLaws : Obligations.DewhitenLaws := fun s clock n m skip w =>
  ⟨dewhiten_dewhiten s clock n skip w, dewhiten_skip_period s clock n skip w, dewhiten_parts s clock n m skip w⟩

/-! ## `DEWHITEN` -/

theorem dewhiten_getElem (s : Bits) (clock n skip : Nat) (w : Bool) {i : Nat}
    (hi : i < (dewhiten s clock n skip w).length) : (dewhiten s clock n skip w)[i] =
      (s[i]'(by rw [dewhiten_length] at hi; omega) ^^ (w && whitenBit (whitenStart clock skip + i))) := by
  cases w with
  | false =>
    rw [Bool.false_and, Bool.xor_false]
    exact List.getElem_take
  | true =>
    refine (whitenFrom_getElem _ _ i hi).trans ?_
    rw [List.getElem_take, Bool.true_and]

/-- The bits that `DEWHITEN` writes (rule R99). -/
def State.dewhitenedSource (s : State) : Bits :=
  dewhiten (s.bitsAt (bitAddress s.ops.a0) s.ops.a2.toNat) (clockOperand s.ops.a1) s.ops.a2.toNat s.ops.a3.toNat
    s.ctx.whitened

theorem dewhitenedSource_length (s : State) : s.dewhitenedSource.length = s.ops.a2.toNat := by
  rw [State.dewhitenedSource, dewhiten_length, bitsAt_length, Nat.min_self]

theorem dewhitenedSource_getElem (s : State) {k : Nat} (hk : k < s.dewhitenedSource.length) :
    s.dewhitenedSource[k] = (s.bitRead (bitAddress s.ops.a0 + k) ^^
      (s.ctx.whitened && whitenBit (whitenStart (clockOperand s.ops.a1) s.ops.a3.toNat + k))) := by
  simp only [State.dewhitenedSource, dewhiten_getElem, bitsAt_getElem]

theorem exec_dewhiten {s : State} (hf : s.phase ≠ .fault) (hn : s.ops.a2.toNat ≤ 3125)
    (hr : s.rangeOk (bitAddress s.ops.a0) s.ops.a2.toNat = true) : exec .dewhiten s =
      .next ((s.writeBuf .wb 0 s.dewhitenedSource).finish s.ops.a2.toNat
        (whitenStart (clockOperand s.ops.a1) s.ops.a3.toNat) .ok) := by
  rw [exec, execDewhiten, command_run _ hf]
  exact congrArg _ (if_neg (count_and_range_accepted hn hr))

theorem exec_dewhiten_refused {s : State} (hf : s.phase ≠ .fault)
    (h : 3125 < s.ops.a2.toNat ∨ s.rangeOk (bitAddress s.ops.a0) s.ops.a2.toNat = false) :
    exec .dewhiten s = .next (s.raise .badOperand) := by
  rw [exec, execDewhiten, command_run _ hf]
  exact congrArg _ (if_pos ((count_or_range_refused_iff _ _ _ _).2 h))

/-- Settles O37: the source is read before `WB` is written, so each bit is whitened as it stood. -/
theorem dewhitenWritesBits : Obligations.DewhitenWritesBits := by
  intro s hf
  have start : whitenStart (clockOperand s.ops.a1) s.ops.a3.toNat =
      (hw.whitenIdx.getD (s.ops.a1.toNat % 64) 0 + s.ops.a3.toNat) % 127 := by
    rw [whitenStart_eq, clockOperand_eq, Nat.mod_mod]
  dsimp only
  rw [← bitAddress_eq, ← start]
  refine ⟨fun hn hr => ⟨_, exec_dewhiten hf hn hr, fun k hk => ?_, ?_, ?_⟩, exec_dewhiten_refused hf⟩
  · rw [bitRead_writeBuf_wb_finish s (off := 0) (by rwa [dewhitenedSource_length]) (by omega),
      dewhitenedSource_getElem]
    rfl
  · rw [State.finish_res, BitVec.ofNat_toNat, BitVec.setWidth_eq]
  · exact sameButBits_writeBuf_finish s .wb 0 (dewhitenedSource_length s) _ _ _

end Sys2Proof.Machine

/-! # The block code

A codeword goes through `unfec23Block` by its syndrome alone (`unfec23Block_eq`), and the syndrome is linear: inverting
symbol `j` adds column `j` of the code's check matrix (`syndrome_flipAt`). What the code corrects and what it detects
is then a matter of its fifteen columns (`dataColumn`, `checkBitColumn`, `columnPair`). -/

namespace Sys2Proof.Machine

/-! ## Sums of selected columns -/

/-- `x` and the columns at the places where the sequence holds a 1, added up by exclusive or. -/
def addSelected (x : BitVec 5) (s : Bits) (cols : List (BitVec 5)) : BitVec 5 :=
  (s.zip cols).foldl (fun acc p => if p.1 then acc ^^^ p.2 else acc) x

theorem parity_eq_addSelected (d : Bits) : parity d = addSelected 0#5 d hw.fec23Gen := rfl

theorem addSelected_nil (x : BitVec 5) (s : Bits) : addSelected x s [] = x := by rw [addSelected, List.zip_nil_right]; rfl

theorem addSelected_cons (x y : BitVec 5) (b : Bool) (s : Bits) (cols : List (BitVec 5)) :
    addSelected x (b :: s) (y :: cols) = addSelected (if b then x ^^^ y else x) s cols := rfl

/-- What is added to the start is added to the sum. -/
theorem addSelected_xor (x y : BitVec 5) (s : Bits) (cols : List (BitVec 5)) :
    addSelected (x ^^^ y) s cols = addSelected x s cols ^^^ y := by
  induction s generalizing x cols with
  | nil => rfl
  | cons b s ih =>
    cases cols with
    | nil => rw [addSelected_nil, addSelected_nil]
    | cons c cols =>
      rw [addSelected_cons, addSelected_cons, ← ih]
      cases b
      · rfl
      · have swap : x ^^^ y ^^^ c = x ^^^ c ^^^ y := by ac_rfl
        exact congrArg (addSelected · s cols) swap

theorem addSelected_append {s t : Bits} {cols more : List (BitVec 5)} (h : s.length = cols.length) (x : BitVec 5) :
    addSelected x (s ++ t) (cols ++ more) = addSelected (addSelected x s cols) t more := by
  rw [addSelected, List.zip_append h, List.foldl_append, addSelected, addSelected]

/-- The sum is linear: an entry inverted adds its column. -/
theorem addSelected_flipAt {s : Bits} {j : Nat} (hs : j < s.length) (x : BitVec 5) (cols : List (BitVec 5)) :
    addSelected x (flipAt s j) cols = addSelected x s cols ^^^ cols.getD j 0#5 := by
  induction s generalizing x cols j with
  | nil => exact absurd hs (Nat.not_lt_zero j)
  | cons b s ih =>
    cases cols with
    | nil => rw [addSelected_nil, addSelected_nil, List.getD_nil, BitVec.xor_zero]
    | cons c cols =>
      cases j with
      | zero =>
        rw [flipAt, List.modify_zero_cons, addSelected_cons, addSelected_cons, List.getD_cons_zero, ← addSelected_xor]
        cases b
        · rfl
        · have cancel : x = x ^^^ c ^^^ c := by rw [BitVec.xor_assoc, BitVec.xor_self, BitVec.xor_zero]
          exact congrArg (addSelected · s cols) cancel
      | succ j =>
        rw [flipAt, List.modify_succ_cons, addSelected_cons, addSelected_cons, List.getD_cons_succ]
        exact ih (Nat.lt_of_succ_lt_succ hs) _ cols

/-! ## The syndrome of a block -/

/-- The difference that rule R114 decodes by: received check bits against recomputed ones. -/
def syndrome (c : Bits) : BitVec 5 := checkBits c ^^^ parity (c.take 10)

/-- The columns of the check matrix: the rows of the generator, then the weights of the check bits (rule R113). -/
def checkColumns : List (BitVec 5) := hw.fec23Gen ++ [16, 8, 4, 2, 1]

/-- The column of symbol `j`. -/
def checkColumn (j : Nat) : BitVec 5 := checkColumns.getD j 0#5

theorem unfec23Block_eq (c : Bits) : unfec23Block c =
    if popcount (syndrome c) ≤ 1 then some (c.take 10, false)
    else if syndrome c ∈ hw.fec23Gen then some (flipAt (c.take 10) (hw.fec23Gen.idxOf (syndrome c)), true)
    else none := by
  simp only [← List.contains_iff_mem]
  rfl

/-- The received check bits weigh 16 down to 1 (rule R113). -/
theorem checkValue_eq_addSelected : ∀ e : Bits, e.length = 5 →
    BitVec.ofNat 5 (airValue e.reverse) = addSelected 0#5 e [16, 8, 4, 2, 1]
  | [v, w, x, y, z], _ => by
    revert v w x y z
    decide

theorem syndrome_eq_addSelected {c : Bits} (h : c.length = 15) : syndrome c = addSelected 0#5 c checkColumns := by
  have data : (c.take 10).length = hw.fec23Gen.length := by rw [List.length_take, h]; rfl
  have checks : (c.drop 10).length = 5 := by rw [List.length_drop, h]
  calc syndrome c
    _ = addSelected 0#5 (c.drop 10) [16, 8, 4, 2, 1] ^^^ parity (c.take 10) := by
      rw [syndrome, checkBits, slice, List.take_of_length_le (Nat.le_of_eq checks), checkValue_eq_addSelected _ checks]
    _ = addSelected (parity (c.take 10)) (c.drop 10) [16, 8, 4, 2, 1] := by
      rw [← addSelected_xor, BitVec.zero_xor]
    _ = addSelected 0#5 c checkColumns := by
      rw [parity_eq_addSelected, ← addSelected_append data, List.take_append_drop, checkColumns]

@[simp] theorem flipAt_length (s : Bits) (j : Nat) : (flipAt s j).length = s.length := List.length_modify ..

theorem flipAt_flipAt (s : Bits) (j : Nat) : flipAt (flipAt s j) j = s := by
  have twice : not ∘ not = id := funext Bool.not_not
  rw [flipAt, flipAt, List.modify_modify_eq, twice, List.modify_id]

/-- An inverted symbol adds its column to the syndrome. -/
theorem syndrome_flipAt {c : Bits} (h : c.length = 15) {j : Nat} (hj : j < 15) :
    syndrome (flipAt c j) = syndrome c ^^^ checkColumn j := by
  rw [syndrome_eq_addSelected (by rw [flipAt_length, h]), syndrome_eq_addSelected h, addSelected_flipAt (by rwa [h]),
    checkColumn]

/-! ## Codewords -/

/-- The check bits that a transmitter sends are read back as the number they spell. -/
theorem checkValue_sent : ∀ p : BitVec 5,
    BitVec.ofNat 5 (airValue ((List.range 5).map fun j => p.getLsbD (4 - j)).reverse) = p := by decide

section
variable {d : Bits} (h : d.length = 10)
include h

theorem codeword_length : (codeword d).length = 15 := by
  rw [codeword, List.length_append, List.length_map, List.length_range, h]

theorem codeword_take : (codeword d).take 10 = d := by rw [codeword, ← h, List.take_left]

theorem syndrome_codeword : syndrome (codeword d) = 0#5 := by
  have checks : slice (codeword d) 10 5 = (List.range 5).map fun j => (parity d).getLsbD (4 - j) := by
    rw [slice, codeword, ← h, List.drop_left, List.take_of_length_le (by simp)]
  rw [syndrome, codeword_take h, checkBits, checks, checkValue_sent, BitVec.xor_self]

theorem syndrome_one_flipped {j : Nat} (hj : j < 15) : syndrome (flipAt (codeword d) j) = checkColumn j := by
  rw [syndrome_flipAt (codeword_length h) hj, syndrome_codeword h, BitVec.zero_xor]

theorem syndrome_two_flipped {j k : Nat} (hj : j < 15) (hk : k < 15) :
    syndrome (flipAt (flipAt (codeword d) j) k) = checkColumn j ^^^ checkColumn k := by
  rw [syndrome_flipAt (by rw [flipAt_length, codeword_length h]) hk, syndrome_one_flipped h hj]

end

/-! ## The fifteen columns -/

/-- A column of a data bit is told apart from every other one, and from those of the check bits by its weight. -/
theorem dataColumn : ∀ j, j < 10 → ¬ popcount (checkColumn j) ≤ 1 ∧ checkColumn j ∈ hw.fec23Gen ∧
    hw.fec23Gen.idxOf (checkColumn j) = j := by decide

/-- A column of a check bit has one bit. -/
theorem checkBitColumn : ∀ j, j < 15 → 10 ≤ j → popcount (checkColumn j) ≤ 1 := by decide

/-- The sum of two columns is neither a single bit nor a column of a data bit. -/
theorem columnPair : ∀ k, k < 15 → ∀ j, j < k → ¬ popcount (checkColumn j ^^^ checkColumn k) ≤ 1 ∧
    checkColumn j ^^^ checkColumn k ∉ hw.fec23Gen := by decide

/-! ## What the code corrects and detects -/

section
variable {d : Bits} (h : d.length = 10)
include h

theorem unfec23Block_codeword : unfec23Block (codeword d) = some (d, false) := by
  rw [unfec23Block_eq, syndrome_codeword h, if_pos (by decide), codeword_take h]

theorem unfec23Block_dataSymbol_flipped {j : Nat} (hj : j < 10) :
    unfec23Block (flipAt (codeword d) j) = some (d, true) := by
  obtain ⟨heavy, listed, place⟩ := dataColumn j hj
  have data : (flipAt (codeword d) j).take 10 = flipAt d j := by rw [flipAt, List.take_modify, codeword_take h, flipAt]
  rw [unfec23Block_eq, syndrome_one_flipped h (by omega), if_neg heavy, if_pos listed, place, data,
    flipAt_flipAt]

theorem unfec23Block_checkSymbol_flipped {j : Nat} (hlo : 10 ≤ j) (hj : j < 15) :
    unfec23Block (flipAt (codeword d) j) = some (d, false) := by
  have data : (flipAt (codeword d) j).take 10 = d := by
    rw [flipAt, List.take_modify, codeword_take h, List.modify_eq_self (by omega)]
  rw [unfec23Block_eq, syndrome_one_flipped h hj, if_pos (checkBitColumn j hj hlo), data]

theorem unfec23Block_two_flipped {j k : Nat} (hjk : j < k) (hk : k < 15) :
    unfec23Block (flipAt (flipAt (codeword d) j) k) = none := by
  obtain ⟨heavy, unlisted⟩ := columnPair k hk j hjk
  rw [unfec23Block_eq, syndrome_two_flipped h (by omega) hk, if_neg heavy, if_neg unlisted]

end

/-- Settles O41: no symbol inverted, a data symbol, a check symbol, and two. -/
theorem blockCodeCorrectsOneError : Obligations.BlockCodeCorrectsOneError := by
  refine fun d h => ⟨unfec23Block_codeword h, fun j hj => ?_, fun j k => unfec23Block_two_flipped h⟩
  by_cases data : j < 10
  · rw [unfec23Block_dataSymbol_flipped h data, decide_eq_true data]
  · rw [unfec23Block_checkSymbol_flipped h (Nat.not_lt.1 data) hj, decide_eq_false data]

end Sys2Proof.Machine

/-! # The two FEC commands

Each command reads its source in full and writes `WB` once, so what it leaves is which bit of the decode stands where. The
decode of whole blocks is the decode of each in turn (`unfec23Blocks_eq_some`, `unfec23Blocks_eq_none`). -/

namespace Sys2Proof.Machine

/-! ## Operands -/

/-- The checks of a command whose source of `m` bits is not as long as its count of `n` (rules R112, R116). -/
theorem count_and_source_accepted {s : State} {a n m most : Nat} (hn : n ≤ most) (hr : s.rangeOk a m = true) :
    ¬ (decide (n > most) || !s.rangeOk a m) = true := by
  rw [hr, Bool.not_true, Bool.or_false, decide_eq_true_eq]
  exact Nat.not_lt.2 hn

theorem count_or_source_refused {s : State} {a n m most : Nat} (h : most < n ∨ s.rangeOk a m = false) :
    (decide (n > most) || !s.rangeOk a m) = true := by
  rwa [Bool.or_eq_true, decide_eq_true_eq, Bool.not_eq_true']

/-! ## `UNFEC13` -/

theorem majority_eq (a b c : Bool) : majority (a, b, c) = ((a && b) || (b && c) || (c && a)) := rfl

theorem disagrees_eq (a b c : Bool) : disagrees (a, b, c) = !(a == b && b == c) := by
  rw [disagrees, bne, bne, Bool.not_and]

/-- The triplets of a reading are the bits at three addresses in a row (rule R110). -/
theorem triplets_bitsAt (s : State) (a n : Nat) : triplets (s.bitsAt a (3 * n)) n = (List.range n).map fun i =>
    (s.bitRead (a + 3 * i + 0), s.bitRead (a + 3 * i + 1), s.bitRead (a + 3 * i + 2)) := by
  refine List.map_congr_left fun i hi => ?_
  have bound : i < n := List.mem_range.1 hi
  have bit : ∀ j, j < 3 → (s.bitsAt a (3 * n)).getD (3 * i + j) false = s.bitRead (a + 3 * i + j) := fun j hj => by
    rw [bitsAt_getD, decide_eq_true (by omega), Bool.true_and, Nat.add_assoc]
  rw [← bit 0 (by decide), ← bit 1 (by decide), ← bit 2 (by decide)]
  rfl

/-- The decode of the source range of `UNFEC13` (rule R112). -/
def State.unfec13Source (s : State) : Bits × Nat :=
  unfec13 (s.bitsAt (bitAddress s.ops.a0) (3 * s.ops.a1.toNat)) s.ops.a1.toNat

theorem unfec13Source_length (s : State) : s.unfec13Source.1.length = s.ops.a1.toNat := unfec13_length _ _

theorem unfec13Source_getElem (s : State) {i : Nat} (hi : i < s.unfec13Source.1.length) :
    s.unfec13Source.1[i] = majority (s.bitRead (bitAddress s.ops.a0 + 3 * i + 0),
      s.bitRead (bitAddress s.ops.a0 + 3 * i + 1), s.bitRead (bitAddress s.ops.a0 + 3 * i + 2)) := by
  simp only [State.unfec13Source, unfec13, triplets_bitsAt, List.getElem_map, List.getElem_range]

theorem unfec13Source_count (s : State) : s.unfec13Source.2 = (List.range s.ops.a1.toNat).countP fun i =>
    !(s.bitRead (bitAddress s.ops.a0 + 3 * i + 0) == s.bitRead (bitAddress s.ops.a0 + 3 * i + 1) &&
      s.bitRead (bitAddress s.ops.a0 + 3 * i + 1) == s.bitRead (bitAddress s.ops.a0 + 3 * i + 2)) := by
  rw [State.unfec13Source, unfec13, triplets_bitsAt, List.countP_map]
  exact congrArg (List.countP · _) (funext fun i => disagrees_eq _ _ _)

theorem rep13Ok_eq (n be : Nat) : rep13Ok n be = decide (be < n / 4) := by rw [rep13Ok, hw_repGate]

theorem exec_unfec13 {s : State} (hf : s.phase ≠ .fault) (hn : s.ops.a1.toNat ≤ 1041)
    (hr : s.rangeOk (bitAddress s.ops.a0) (3 * s.ops.a1.toNat) = true) : exec .unfec13 s = .next
      ((s.writeBuf .wb 0 s.unfec13Source.1).finish s.unfec13Source.2
        (rep13Ok s.ops.a1.toNat s.unfec13Source.2).toNat
        (if rep13Ok s.ops.a1.toNat s.unfec13Source.2 then .ok else .repetitionGate)) := by
  rw [exec, execUnfec13, command_run _ hf]
  exact congrArg _ (if_neg (count_and_source_accepted hn hr))

theorem exec_unfec13_refused {s : State} (hf : s.phase ≠ .fault)
    (h : 1041 < s.ops.a1.toNat ∨ s.rangeOk (bitAddress s.ops.a0) (3 * s.ops.a1.toNat) = false) :
    exec .unfec13 s = .next (s.raise .badOperand) := by
  rw [exec, execUnfec13, command_run _ hf]
  exact congrArg _ (if_pos (count_or_source_refused h))

/-- Settles O39: the triplets are read before `WB` is written, and the gate decides `R1` and `CAUSE` alone. -/
theorem unfec13DecodesTriplets : Obligations.Unfec13DecodesTriplets := by
  intro s hf
  dsimp only
  rw [← bitAddress_eq, ← unfec13Source_count]
  refine ⟨fun hn hr => ⟨_, exec_unfec13 hf hn hr, fun i hi => ?_, fun pass => ?_, fun fail => ?_, ?_⟩,
    exec_unfec13_refused hf⟩
  · rw [bitRead_writeBuf_wb_finish s (off := 0) (by rwa [unfec13Source_length]) (by omega), unfec13Source_getElem,
      majority_eq]
  · rw [State.finish_res, rep13Ok_eq, decide_eq_true pass]
    rfl
  · rw [State.finish_res, rep13Ok_eq, decide_eq_false (Nat.not_lt.2 fail)]
    rfl
  · exact sameButBits_writeBuf_finish s .wb 0 (unfec13Source_length s) _ _ _

/-! ## Decoding whole blocks -/

/-- The decode of block `k` of a sequence (rule R115). -/
def blockAt (s : Bits) (k : Nat) : Option (Bits × Bool) := unfec23Block (slice s (15 * k) 15)

/-- The data bits of a block that decodes. -/
def blockData (b : Option (Bits × Bool)) : Bits := b.elim [] Prod.fst

theorem unfec23Blocks_succ (n : Nat) (s : Bits) : unfec23Blocks (n + 1) s =
    (blockAt s 0).bind fun b => (unfec23Blocks n (s.drop 15)).map fun r => (b.1 ++ r.1, b.2.toNat + r.2) := by
  rw [unfec23Blocks, show blockAt s 0 = unfec23Block (s.take 15) from rfl]
  cases unfec23Block (s.take 15) <;> cases unfec23Blocks n (s.drop 15) <;> rfl

theorem blockAt_drop (s : Bits) (k : Nat) : blockAt (s.drop 15) k = blockAt s (k + 1) := by
  rw [blockAt, blockAt, slice, slice, List.drop_drop, Nat.mul_succ, Nat.add_comm]

/-- Where every block decodes, the decode is the data of all of them in order, and the count of those in which a bit was
inverted. -/
theorem unfec23Blocks_eq_some {n : Nat} {s : Bits} (h : ∀ k, k < n → (blockAt s k).isSome = true) :
    unfec23Blocks n s = some ((List.range n).flatMap fun k => blockData (blockAt s k),
      (List.range n).countP fun k => (blockAt s k).any Prod.snd) := by
  induction n generalizing s with
  | zero => rfl
  | succ n ih =>
    obtain ⟨b, first⟩ := Option.isSome_iff_exists.1 (h 0 (Nat.zero_lt_succ n))
    have rest := ih (s := s.drop 15) fun k hk => by
      rw [blockAt_drop]
      exact h (k + 1) (Nat.succ_lt_succ hk)
    simp only [blockAt_drop] at rest
    rw [unfec23Blocks_succ, rest, first, List.range_succ_eq_map, List.flatMap_cons, List.flatMap_map, List.countP_cons,
      List.countP_map, first]
    have count : ∀ m, b.2.toNat + m = m + if b.2 = true then 1 else 0 := fun m => by
      rw [Nat.add_comm, Bool.toNat, Bool.cond_eq_ite]
    exact congrArg (fun m => some (_, m)) (count _)

/-- One block that does not decode is enough for no data. -/
theorem unfec23Blocks_eq_none {n : Nat} {s : Bits} {k : Nat} (hk : k < n) (h : blockAt s k = none) :
    unfec23Blocks n s = none := by
  induction n generalizing s k with
  | zero => exact absurd hk (Nat.not_lt_zero k)
  | succ n ih =>
    rw [unfec23Blocks_succ]
    cases k with
    | zero => rw [h, Option.bind_none]
    | succ k =>
      rw [ih (Nat.lt_of_succ_lt_succ hk) ((blockAt_drop s k).trans h)]
      cases blockAt s 0 <;> rfl

section
variable {f : Nat → Bits} {w n : Nat} (h : ∀ k, k < n → (f k).length = w)
include h

theorem flatMap_range_length : ((List.range n).flatMap f).length = w * n := by
  have widths : (List.range n).map (fun k => (f k).length) = (List.range n).map fun _ => w :=
    List.map_congr_left fun k hk => h k (List.mem_range.1 hk)
  rw [List.length_flatMap, widths, List.map_const', List.length_range, List.sum_replicate_nat, Nat.mul_comm]

/-- Of parts of equal length put one after the other, part `k` stands at `k` times the length. -/
theorem flatMap_range_getD {k i : Nat} (hk : k < n) (hi : i < w) :
    ((List.range n).flatMap f).getD (w * k + i) false = (f k).getD i false := by
  induction n with
  | zero => exact absurd hk (Nat.not_lt_zero k)
  | succ n ih =>
    have before := flatMap_range_length fun k hk => h k (Nat.lt_succ_of_lt hk)
    rw [List.range_succ, List.flatMap_append, List.flatMap_singleton]
    rcases Nat.lt_succ_iff_lt_or_eq.1 hk with inside | rfl
    · have place : w * k + i < w * n := calc
        w * k + i < w * (k + 1) := by rw [Nat.mul_succ]; omega
        _ ≤ w * n := Nat.mul_le_mul_left w inside
      rw [List.getD_eq_getElem?_getD, List.getElem?_append_left (by rwa [before]), ← List.getD_eq_getElem?_getD,
        ih (fun k hk => h k (Nat.lt_succ_of_lt hk)) inside]
    · rw [List.getD_eq_getElem?_getD, List.getElem?_append_right (by omega), before, Nat.add_sub_cancel_left,
        ← List.getD_eq_getElem?_getD]

end

/-! ## `UNFEC23` -/

/-- The number of blocks that `UNFEC23` reads (rule R116). -/
def State.sourceBlocks (s : State) : Nat := ceilDiv s.ops.a1.toNat 10

/-- The decode of block `k` of the source range of `UNFEC23`. -/
def State.sourceBlock (s : State) (k : Nat) : Option (Bits × Bool) :=
  unfec23Block (s.bitsAt (bitAddress s.ops.a0 + 15 * k) 15)

/-- The symbols that `UNFEC23` reads. -/
def State.blockSource (s : State) : Bits := s.bitsAt (bitAddress s.ops.a0) (15 * s.sourceBlocks)

theorem slice_bitsAt (s : State) {a b n m : Nat} (h : b + n ≤ m) : slice (s.bitsAt a m) b n = s.bitsAt (a + b) n := by
  apply List.ext_getElem
  · rw [slice_length, bitsAt_length, bitsAt_length, Nat.min_eq_left (by omega)]
  · intro i _ _
    simp only [slice, List.getElem_take, List.getElem_drop, bitsAt_getElem, Nat.add_assoc]

theorem blockAt_blockSource (s : State) {k : Nat} (hk : k < s.sourceBlocks) :
    blockAt s.blockSource k = s.sourceBlock k := by
  rw [blockAt, State.blockSource, slice_bitsAt s (by omega), State.sourceBlock]

theorem sourceBlock_data_length (s : State) {k : Nat} (h : (s.sourceBlock k).isSome = true) :
    (blockData (s.sourceBlock k)).length = 10 := by
  obtain ⟨⟨d, f⟩, decoded⟩ := Option.isSome_iff_exists.1 h
  rw [decoded]
  exact unfec23Block_length (by rw [bitsAt_length]; decide) decoded

/-- What `UNFEC23` writes where every block decodes. -/
def State.blockDecode (s : State) : Bits :=
  (List.range s.sourceBlocks).flatMap fun k => blockData (s.sourceBlock k)

theorem unfec23_blockSource {s : State} (h : ∀ k, k < s.sourceBlocks → (s.sourceBlock k).isSome = true) :
    unfec23 s.blockSource s.ops.a1.toNat =
      some (s.blockDecode, (List.range s.sourceBlocks).countP fun k => (s.sourceBlock k).any Prod.snd) := by
  have same : ∀ k ∈ List.range s.sourceBlocks, blockAt s.blockSource k = s.sourceBlock k := fun k hk =>
    blockAt_blockSource s (List.mem_range.1 hk)
  have decode := unfec23Blocks_eq_some fun k hk => (congrArg _ (blockAt_blockSource s hk)).trans (h k hk)
  rw [unfec23, ← State.sourceBlocks, decode, State.blockDecode]
  refine congrArg some (Prod.ext ?_ ?_)
  · rw [List.flatMap_def, List.flatMap_def]
    exact congrArg List.flatten (List.map_congr_left fun k hk => congrArg blockData (same k hk))
  · exact List.countP_congr fun k hk => by rw [same k hk]

section
variable {s : State} (hf : s.phase ≠ .fault)
include hf

theorem exec_unfec23_refused
    (h : 2080 < s.ops.a1.toNat ∨ s.rangeOk (bitAddress s.ops.a0) (15 * s.sourceBlocks) = false) :
    exec .unfec23 s = .next (s.raise .badOperand) := by
  rw [exec, execUnfec23, command_run _ hf]
  exact congrArg _ (if_pos (count_or_source_refused h))

variable (hn : s.ops.a1.toNat ≤ 2080) (hr : s.rangeOk (bitAddress s.ops.a0) (15 * s.sourceBlocks) = true)
include hn hr

theorem exec_unfec23_decoded {bits : Bits} {flips : Nat}
    (hu : unfec23 s.blockSource s.ops.a1.toNat = some (bits, flips)) :
    exec .unfec23 s = .next ((s.writeBuf .wb 0 bits).finish (10 * s.sourceBlocks) flips .ok) := by
  rw [exec, execUnfec23, command_run _ hf]
  refine congrArg _ ((if_neg (count_and_source_accepted hn hr)).trans ?_)
  rw [countOperand, ← State.sourceBlocks, ← State.blockSource, hu]

theorem exec_unfec23_uncorrectable (hu : unfec23 s.blockSource s.ops.a1.toNat = none) :
    exec .unfec23 s = .next (s.raise .fecUncorrectable) := by
  rw [exec, execUnfec23, command_run _ hf]
  refine congrArg _ ((if_neg (count_and_source_accepted hn hr)).trans ?_)
  rw [countOperand, ← State.sourceBlocks, ← State.blockSource, hu]

end

/-- Settles O40: the blocks are read before `WB` is written, block `k` to the ten bits from `10 * k`. -/
theorem unfec23DecodesBlocks : Obligations.Unfec23DecodesBlocks := by
  intro s hf
  have blocks : (s.ops.a1.toNat + 9) / 10 = s.sourceBlocks := rfl
  dsimp only
  rw [← bitAddress_eq, blocks]
  refine ⟨fun hn hr => ⟨fun decoded => ?_, fun ⟨k, hk, failed⟩ => ?_⟩, exec_unfec23_refused hf⟩
  · have widths := fun k hk => sourceBlock_data_length s (decoded k hk)
    have size : s.blockDecode.length = 10 * s.sourceBlocks := flatMap_range_length widths
    have room : 10 * s.sourceBlocks ≤ 2080 := by rw [← blocks]; omega
    refine ⟨_, exec_unfec23_decoded hf hn hr (unfec23_blockSource decoded), fun k d f hk block i hi => ?_, rfl,
      sameButBits_writeBuf_finish s .wb 0 size _ _ _⟩
    have inside : 10 * k + i < s.blockDecode.length := by omega
    have place : s.blockDecode.getD (10 * k + i) false = (blockData (s.sourceBlock k)).getD i false :=
      flatMap_range_getD widths hk hi
    have data : s.blockDecode[10 * k + i] = d.getD i false := by
      rw [List.getD_eq_getElem?_getD, List.getElem?_eq_getElem inside, Option.getD_some,
        show s.sourceBlock k = some (d, f) from block] at place
      exact place
    rw [Nat.add_assoc, bitRead_writeBuf_wb_finish s (off := 0) inside (by omega), data]
  · exact exec_unfec23_uncorrectable hf hn hr
      (unfec23Blocks_eq_none hk ((blockAt_blockSource s hk).trans failed))

end Sys2Proof.Machine

/-! # HV1 and HV2

Both take 240 symbols and differ in the code alone (rules R72, R177), so the handler is described once for a row of that
size (`plHv_decoded`, `plHv_refused`, `plHv_short`). -/

namespace Sys2Proof.Machine

/-! ## The fixed-length voice handler -/

section
variable {r : PacketRow} (hm : fecSymbols r.fec (8 * r.fixedBytes) = 240)
include hm

theorem plHv_short {s : State} (h : s.length - 126 < 240) : plHv r s = (s, .shortBuffer) := by
  unfold plHv
  extract_lets n m
  have size : m = 240 := hm
  rw [size, if_pos (show s.symbolsFrom hw.payloadPos < 240 from h)]

theorem plHv_refused {s : State} {o : PayloadOutcome} (h : 240 ≤ s.length - 126)
    (hu : undoFec r.fec (s.symbols 126 240) (8 * r.fixedBytes) = .error o) : plHv r s = (s, o) := by
  unfold plHv
  extract_lets n m
  have size : m = 240 := hm
  rw [size, if_neg (show ¬ s.symbolsFrom hw.payloadPos < 240 from Nat.not_lt.2 h), hw_payloadPos, hu]

theorem plHv_decoded {s : State} {u : Bits} (h : 240 ≤ s.length - 126)
    (hu : undoFec r.fec (s.symbols 126 240) (8 * r.fixedBytes) = .ok u) : plHv r s =
      ((s.writeBuf .pay 0 (s.dewhitened u (8 * r.fixedBytes) 18)).setPayloadLength r.fixedBytes, .unvalidated) := by
  unfold plHv
  extract_lets n m
  have size : m = 240 := hm
  rw [size, if_neg (show ¬ s.symbolsFrom hw.payloadPos < 240 from Nat.not_lt.2 h), hw_payloadPos, hu]
  rfl

/-! ## Its payload stage -/

theorem payloadStage_plHv_short {s : State} (h : s.length - 126 < 240) :
    s.payloadStage (plHv r) = s.payloadFailed .shortBuffer s.mem := by
  rw [payloadStage_failed (plHv_short hm (s := s.payloadStart) h) (.refl _) rfl (by decide)]
  rfl

theorem payloadStage_plHv_refused {s : State} {o : PayloadOutcome} (h : 240 ≤ s.length - 126)
    (hu : undoFec r.fec (s.symbols 126 240) (8 * r.fixedBytes) = .error o) (hz : o.result = .zero)
    (hn : o ≠ .noHandler) : s.payloadStage (plHv r) = s.payloadFailed o.cause s.mem := by
  rw [payloadStage_failed (plHv_refused hm (s := s.payloadStart) h hu) (.refl _) hz hn]
  rfl

theorem payloadStage_plHv_decoded {s : State} {u : Bits} (h : 240 ≤ s.length - 126) (hb : r.fixedBytes ≤ 343)
    (hu : undoFec r.fec (s.symbols 126 240) (8 * r.fixedBytes) = .ok u) :
    AcceptedWith s (s.payloadStage (plHv r)) (.plain r.fixedBytes) .one .unvalidated
      (s.dewhitened u (8 * r.fixedBytes) 18) :=
  payloadStage_accepted (o := .unvalidated) (p := .plain r.fixedBytes) (plHv_decoded hm (s := s.payloadStart) h hu)
    (by decide) (show r.fixedBytes < 512 by omega) (by rw [dewhitened_length]; omega) rfl

end

/-! ## The two codes -/

theorem undoFec_repetition_ok {t : Bits} (h : (unfec13 t 80).2 < 20) :
    undoFec .repetition t 80 = .ok (unfec13 t 80).1 := by
  rw [undoFec, rep13Ok_eq, decide_eq_true h, if_pos rfl]

theorem undoFec_repetition_error {t : Bits} (h : 20 ≤ (unfec13 t 80).2) :
    undoFec .repetition t 80 = .error .repetitionGate := by
  rw [undoFec, rep13Ok_eq, decide_eq_false (Nat.not_lt.2 h), if_neg (by decide)]

theorem fecSymbols_hv1 : fecSymbols (row .hv1).fec (8 * (row .hv1).fixedBytes) = 240 := by decide

theorem fecSymbols_hv2 : fecSymbols (row .hv2).fec (8 * (row .hv2).fixedBytes) = 240 := by decide

/-- The block reading of 20 bytes is the decode of 240 symbols, dewhitened (rules R94, R115). -/
theorem blockRead_160 (s : State) : s.blockRead 126 18 160 =
    (unfec23 (s.symbols 126 240) 160).map fun r => s.dewhitened r.1 160 18 := rfl

/-- Settles O55: each packet by the ends of the voice stage under its own code. -/
theorem hv1AndHv2Packets : Obligations.Hv1AndHv2Packets := by
  intro s f hp
  have hv1 : exec (.pktHv1 f) s = .next (s.payloadStage (plHv (row .hv1))) := exec_packetInstr_pending .hv1 f hp
  have hv2 : exec (.pktHv2 f) s = .next (s.payloadStage (plHv (row .hv2))) := exec_packetInstr_pending .hv2 f hp
  dsimp only
  rw [hv1, hv2, blockRead_160]
  refine ⟨fun hsize pass => ⟨_, rfl, ?_⟩, fun hsize fail => ?_, fun bits hsize read => ⟨_, rfl, ?_⟩,
    fun hsize failed => ?_, fun hsize => ?_⟩
  · exact payloadStage_plHv_decoded fecSymbols_hv1 hsize (by decide) (undoFec_repetition_ok pass)
  · rw [payloadStage_plHv_refused fecSymbols_hv1 hsize (undoFec_repetition_error fail) rfl (by decide)]
    rfl
  · obtain ⟨r, decoded, rfl⟩ := Option.map_eq_some_iff.1 read
    exact payloadStage_plHv_decoded fecSymbols_hv2 hsize (by decide) (undoFec_block_ok decoded)
  · rw [payloadStage_plHv_refused fecSymbols_hv2 hsize (undoFec_block_error (Option.map_eq_none_iff.1 failed)) rfl
      (by decide)]
    rfl
  · rw [payloadStage_plHv_short fecSymbols_hv1 hsize, payloadStage_plHv_short fecSymbols_hv2 hsize]
    exact ⟨rfl, rfl⟩

end Sys2Proof.Machine

/-! # The access-code commands

`ACGEN` writes the sequence that `acGen_getD` describes. The errors of rule R129 are a count over positions
(`distance_eq_countP`). `SNIFF` searches the tails of one window (`sniffFrom_eq_find?`), and what it asks of a tail is a
question about the symbols from the tail's own address (`windowAccepts_readBuf_iff`), so the search finds the least
accepted address. -/

namespace Sys2Proof.Machine

/-! ## `ACGEN` -/

/-- A bit of a field of a sequence, read as a 32-bit word. -/
theorem getLsbD_airToHost_slice (s : Bits) (a : Nat) {i : Nat} (hi : i < 32) :
    (BitVec.ofNat 32 (airToHost (slice s a 32) 32)).getLsbD i = s.getD (a + i) false := by
  rw [BitVec.getLsbD_ofNat, airToHost_testBit, decide_eq_true hi, Bool.true_and, Bool.true_and, slice,
    List.getD_eq_getElem?_getD, List.getElem?_take_of_lt hi, List.getElem?_drop, ← List.getD_eq_getElem?_getD]

theorem exec_acgen {s : State} (hf : s.phase ≠ .fault) : exec .acgen s = .next
    ((s.writeBuf .wb 0 (acGen (lapOperand s.ops.a0))).finish
      (airToHost (slice (acGen (lapOperand s.ops.a0)) 4 32) 32)
      (airToHost (slice (acGen (lapOperand s.ops.a0)) 36 32) 32) .ok) := by
  rw [exec, execAcgen, command_run _ hf]

/-- Settles O42: `WB` reads as the sequence written, and the sync word is its field from bit 4 up. -/
theorem acgenWritesAccessCode : Obligations.AcgenWritesAccessCode := by
  intro s hf
  dsimp only
  rw [← lapOperand_eq]
  refine ⟨_, exec_acgen hf, fun i hi => ?_, fun i hi => ?_, rfl,
    sameButBits_writeBuf_finish s .wb 0 (acGen_length _) _ _ _⟩
  · have inside : i < (acGen (lapOperand s.ops.a0)).length := by rwa [acGen_length]
    rw [bitRead_writeBuf_wb_finish s (off := 0) inside (by omega), List.getElem_eq_getD false]
  · exact ⟨getLsbD_airToHost_slice _ 4 hi, getLsbD_airToHost_slice _ 36 hi⟩

/-! ## The distance of rule R129 -/

/-- The first part of a sequence, position by position. -/
theorem take_eq_map_getD {s : Bits} {n : Nat} (h : n ≤ s.length) :
    s.take n = (List.range n).map fun i => s.getD i false := by
  apply List.ext_getElem
  · rw [List.length_take_of_le h, List.length_map, List.length_range]
  · intro i _ _
    rw [List.getElem_take, List.getElem_map, List.getElem_range, List.getElem_eq_getD false]

/-- Over positions that both sequences have, the distance is a count over the positions. -/
theorem distance_eq_countP {s t : Bits} {n : Nat} (hs : n ≤ s.length) (ht : n ≤ t.length) :
    distance s t n = (List.range n).countP fun i => s.getD i false != t.getD i false := by
  rw [distance, take_eq_map_getD hs, take_eq_map_getD ht, List.zip_map', List.countP_map]
  rfl

theorem distance_self {s : Bits} {n : Nat} (h : n ≤ s.length) : distance s s n = 0 := by
  rw [distance_eq_countP h h, List.countP_eq_zero]
  intro i _
  rw [bne_self_eq_false]
  exact Bool.false_ne_true

/-- Positions from `n` on do not count. -/
theorem distance_take (s t : Bits) (n : Nat) : distance (s.take n) t n = distance s t n := by
  rw [distance, List.take_take, Nat.min_self, distance]

theorem verifyAccepts_eq (s : Bits) (lap : BitVec 24) : verifyAccepts s lap = decide (verifyErrors s lap < 7) := by
  rw [verifyAccepts, hw_acMaxErr]

theorem verifyErrors_acGen (lap : BitVec 24) : verifyErrors (acGen lap) lap = 0 :=
  distance_self (by rw [acGen_length]; decide)

theorem verifyErrors_take (w : Bits) (lap : BitVec 24) : verifyErrors (w.take 68) lap = verifyErrors w lap :=
  distance_take w (acGen lap) 68

theorem verifyErrors_bitsAt (s : State) (a : Nat) (lap : BitVec 24) : verifyErrors (s.bitsAt a 68) lap =
    (List.range 68).countP fun i => s.bitRead (a + i) != (acGen lap).getD i false := by
  rw [verifyErrors, hw_acCmpLen, distance_eq_countP (Nat.le_of_eq (bitsAt_length s a 68).symm)
    (by rw [acGen_length]; decide)]
  refine List.countP_congr fun i hi => ?_
  rw [bitsAt_getD, decide_eq_true (List.mem_range.1 hi), Bool.true_and]

/-! ## `VERIFY` -/

/-- The errors that `VERIFY` counts (rule R130). -/
def State.sourceErrors (s : State) : Nat :=
  verifyErrors (s.bitsAt (bitAddress s.ops.a0) 68) (lapOperand s.ops.a1)

theorem exec_verify {s : State} (hf : s.phase ≠ .fault) (hr : s.rangeOk (bitAddress s.ops.a0) 68 = true) :
    exec .verify s = .next (s.finish (decide (s.sourceErrors < 7)).toNat s.sourceErrors
      (if decide (s.sourceErrors < 7) then .ok else .notFound)) := by
  rw [exec, execVerify, command_run _ hf]
  refine congrArg _ (if_neg ?_)
  rw [hr]
  exact Bool.false_ne_true

theorem exec_verify_refused {s : State} (hf : s.phase ≠ .fault)
    (hr : s.rangeOk (bitAddress s.ops.a0) 68 = false) : exec .verify s = .next (s.raise .badOperand) := by
  rw [exec, execVerify, command_run _ hf]
  refine congrArg _ (if_pos ?_)
  rw [hr]
  rfl

/-- Settles O44: the count is `R1` whatever the verdict, which decides `R0` and `CAUSE` alone. -/
theorem verifyCountsErrors : Obligations.VerifyCountsErrors := by
  refine ⟨fun s hf => ?_, fun lap => ⟨verifyErrors_acGen lap, ?_⟩⟩
  · dsimp only
    rw [← bitAddress_eq, ← lapOperand_eq, ← verifyErrors_bitsAt, ← State.sourceErrors]
    refine ⟨fun hr => ⟨_, exec_verify hf hr, fun accepted => ?_, fun rejected => ?_, sameButResults_finish s _ _ _⟩,
      exec_verify_refused hf⟩
    · rw [State.finish_res, decide_eq_true accepted]
      rfl
    · rw [State.finish_res, decide_eq_false (Nat.not_lt.2 rejected)]
      rfl
  · rw [verifyAccepts_eq, verifyErrors_acGen]
    rfl

/-! ## The distances of rule R131 -/

/-- The places at which two words differ, counted. -/
theorem popcount_xor {w : Nat} (v m : BitVec w) :
    popcount (v ^^^ m) = (List.range w).countP fun i => v.getLsbD i != m.getLsbD i := by
  rw [popcount, hostToAir, List.count_eq_countP, List.countP_map]
  refine List.countP_congr fun i _ => ?_
  have differs : (v ^^^ m).toNat.testBit i = (v.getLsbD i != m.getLsbD i) :=
    (BitVec.testBit_toNat _).trans BitVec.getLsbD_xor
  rw [Function.comp_apply, beq_true, differs]

/-- The distance of a sequence to a pattern is that of the sequence's value to the pattern's. -/
theorem popcount_xor_airToHost {w : Nat} {s : Bits} (hs : s.length = w) {m : BitVec w} {pattern : Nat → Bool}
    (hm : ∀ i, i < w → m.getLsbD i = pattern i) : popcount (BitVec.ofNat w (airToHost s w) ^^^ m) =
      (List.range s.length).countP fun i => s.getD i false != pattern i := by
  rw [popcount_xor, hs]
  refine List.countP_congr fun i hi => ?_
  have bound : i < w := List.mem_range.1 hi
  rw [BitVec.getLsbD_ofNat, airToHost_testBit, decide_eq_true bound, Bool.true_and, Bool.true_and, hm i bound]

theorem preambleDist_airToHost {s : Bits} (hs : s.length = 5) :
    preambleDist (BitVec.ofNat 5 (airToHost s 5)) = alternatingDistance s := by
  rw [preambleDist_eq, Nat.min_comm, alternatingDistance,
    popcount_xor_airToHost hs (pattern := (· % 2 == 0)) (by decide),
    popcount_xor_airToHost hs (pattern := (· % 2 == 1)) (by decide)]

theorem trailerDist_airToHost {s : Bits} (hs : s.length = 7) :
    trailerDist (BitVec.ofNat 7 (airToHost s 7)) = alternatingDistance s := by
  rw [trailerDist_eq, alternatingDistance,
    popcount_xor_airToHost hs (pattern := (· % 2 == 0)) (by decide),
    popcount_xor_airToHost hs (pattern := (· % 2 == 1)) (by decide)]

/-! ## The search of rule R132 -/

/-- What the search asks of a window. -/
def windowAccepts (w : Bits) : Bool := sniffCandidate w && verifyAccepts w (sniffLap w)

/-- The search answers the first tail that is accepted, with its address and the LAP at its place. -/
theorem sniffFrom_eq_find? (k : Nat) (w : Bits) (o : Nat) : sniffFrom k w o =
    ((List.range k).find? fun j => windowAccepts (w.drop j)).map fun j => (o + j, sniffLap (w.drop j)) := by
  induction k generalizing w o with
  | zero => rfl
  | succ k ih =>
    rw [sniffFrom, ← windowAccepts, List.range_succ_eq_map, List.find?_cons, List.drop_zero]
    cases windowAccepts w with
    | true => rfl
    | false =>
      rw [ih, List.find?_map, Option.map_map, if_neg Bool.false_ne_true]
      simp only [Function.comp_def, List.drop_tail, Nat.add_assoc, Nat.add_comm 1]

/-! ## A window of symbols -/

theorem readBuf_take (s : State) (r : Region) (off : Nat) {n m : Nat} (h : n ≤ m) :
    (s.readBuf r off m).take n = s.readBuf r off n := by
  rw [State.readBuf, ← List.map_take, List.take_range, Nat.min_eq_left h, State.readBuf]

theorem readBuf_drop (s : State) (r : Region) (off m j : Nat) :
    (s.readBuf r off m).drop j = s.readBuf r (off + j) (m - j) := by
  apply List.ext_getElem
  · simp only [List.length_drop, readBuf_length]
  · intro i _ _
    simp only [List.getElem_drop, readBuf_getElem, Nat.add_assoc]

theorem slice_readBuf_from (s : State) (r : Region) (off : Nat) {a n m : Nat} (h : a + n ≤ m) :
    slice (s.readBuf r off m) a n = s.readBuf r (off + a) n := by
  rw [slice, readBuf_drop, readBuf_take s r _ (by omega)]

/-- The LAP of an access code whose first symbol is at address `o` (rule R132). -/
def State.lapFrom (s : State) (o : Nat) : BitVec 24 := BitVec.ofNat 24 (airToHost (s.readBuf .sym (o + 38) 24) 24)

/-- Whether rule R132 accepts the symbols from address `o` on, the distances counted position by position. -/
def State.AcceptsFrom (s : State) (o : Nat) : Prop :=
  alternatingDistance (s.readBuf .sym o 5) + alternatingDistance (s.readBuf .sym (o + 65) 7) ≤ 2 ∧
  verifyErrors (s.readBuf .sym o 68) (s.lapFrom o) < 7

section
variable (s : State) (o : Nat) {m : Nat} (hm : 72 ≤ m)
include hm

theorem sniffLap_readBuf : sniffLap (s.readBuf .sym o m) = s.lapFrom o :=
  congrArg (fun t => BitVec.ofNat 24 (airToHost t 24)) (slice_readBuf_from s .sym o (a := 38) (n := 24) (by omega))

theorem sniffCandidate_readBuf_iff : sniffCandidate (s.readBuf .sym o m) = true ↔
    alternatingDistance (s.readBuf .sym o 5) + alternatingDistance (s.readBuf .sym (o + 65) 7) ≤ 2 := by
  have head : slice (s.readBuf .sym o m) 0 5 = s.readBuf .sym o 5 := slice_readBuf_from s .sym o (by omega)
  have tail : slice (s.readBuf .sym o m) 65 7 = s.readBuf .sym (o + 65) 7 := slice_readBuf_from s .sym o (by omega)
  rw [← preambleDist_airToHost (readBuf_length s .sym o 5), ← trailerDist_airToHost (readBuf_length s .sym (o + 65) 7),
    ← head, ← tail]
  exact decide_eq_true_iff

theorem windowAccepts_readBuf_iff : windowAccepts (s.readBuf .sym o m) = true ↔ s.AcceptsFrom o := by
  rw [windowAccepts, Bool.and_eq_true, sniffCandidate_readBuf_iff s o hm, sniffLap_readBuf s o hm, verifyAccepts_eq,
    decide_eq_true_iff, ← verifyErrors_take, readBuf_take s .sym o (by omega), State.AcceptsFrom]

end

/-! ## `SNIFF` -/

/-- The tail of the window at an address whose access code ends inside it. -/
theorem windowAccepts_drop_iff (s : State) {start j : Nat} (h : start + j + 72 ≤ s.wlen) :
    windowAccepts ((s.readBuf .sym start (s.wlen - start)).drop j) = true ↔ s.AcceptsFrom (start + j) := by
  rw [readBuf_drop, windowAccepts_readBuf_iff s _ (by omega)]

theorem sniff_eq_some {s : State} {start o : Nat} (hlo : start ≤ o) (hhi : o + 72 ≤ s.wlen) (found : s.AcceptsFrom o)
    (least : ∀ p, start ≤ p → p < o → ¬ s.AcceptsFrom p) : s.sniff start = some (o, s.lapFrom o) := by
  obtain ⟨j, rfl⟩ := Nat.exists_eq_add_of_le hlo
  have search : (List.range (s.wlen + 1 - (start + 72))).find?
      (fun j => windowAccepts ((s.readBuf .sym start (s.wlen - start)).drop j)) = some j := by
    refine List.find?_range_eq_some.2 ⟨(windowAccepts_drop_iff s hhi).2 found, List.mem_range.2 (by omega),
      fun i hi => ?_⟩
    rw [Bool.not_eq_true', Bool.eq_false_iff, Ne, windowAccepts_drop_iff s (by omega)]
    exact least (start + i) (by omega) (by omega)
  rw [State.sniff, hw_acLen, sniffFrom_eq_find?, search, Option.map_some, readBuf_drop, sniffLap_readBuf s _ (by omega)]

theorem sniff_eq_none {s : State} {start : Nat} (missing : ∀ o, start ≤ o → o + 72 ≤ s.wlen → ¬ s.AcceptsFrom o) :
    s.sniff start = none := by
  rw [State.sniff, hw_acLen, sniffFrom_eq_find?, Option.map_eq_none_iff, List.find?_range_eq_none]
  intro j hj
  have inside : start + j + 72 ≤ s.wlen := by omega
  rw [Bool.not_eq_true', Bool.eq_false_iff, Ne, windowAccepts_drop_iff s inside]
  exact missing (start + j) (by omega) inside

section
variable {s : State} (hf : s.phase ≠ .fault)
include hf

theorem exec_sniff_refused (h : s.wlen < s.ops.a0.toNat) : exec .sniff s = .next (s.raise .badOperand) := by
  rw [exec, execSniff, command_run _ hf]
  exact congrArg _ (if_pos h)

variable (h : s.ops.a0.toNat ≤ s.wlen)
include h

theorem exec_sniff_found {o : Nat} {lap : BitVec 24} (found : s.sniff s.ops.a0.toNat = some (o, lap)) :
    exec .sniff s = .next (s.finish o lap.toNat .ok) := by
  rw [exec, execSniff, command_run _ hf]
  refine congrArg _ ((if_neg (Nat.not_lt.2 h)).trans ?_)
  rw [countOperand, found]

theorem exec_sniff_none (missing : s.sniff s.ops.a0.toNat = none) :
    exec .sniff s = .next (s.finish 0xFFFFFFFF 0 .notFound) := by
  rw [exec, execSniff, command_run _ hf]
  refine congrArg _ ((if_neg (Nat.not_lt.2 h)).trans ?_)
  rw [countOperand, missing]

end

/-- Settles O45: the three clauses are the three ends of the search. -/
theorem sniffFindsFirstOffset : Obligations.SniffFindsFirstOffset := fun s hf =>
  ⟨fun _ hlo hhi found least => exec_sniff_found hf (by omega) (sniff_eq_some hlo hhi found least),
    fun h missing => exec_sniff_none hf h (sniff_eq_none missing), exec_sniff_refused hf⟩

end Sys2Proof.Machine

/-! # The packet header

`HecToUap` runs the register of `HecGen` backwards, bit-reversed and over the data bits in reverse order: a round of the one
undoes a round of the other (`hecRound_hecGenRound`), and no round loses a bit (`hecRound_inj`), so the test of the UAP in
rule R150 is a test of the HEC (`hecToUap_eq_iff`). The two commands that read a header end by which of its three answers
`HeaderBits` gave (`State.probed`, `State.headerJudged`). -/

namespace Sys2Proof.Machine

/-! ## One round of the HEC register, forwards and backwards -/

/-- One round of `HecGen` (rule R148). -/
def hecGenRound (r : Byte) (d : Bool) : Byte := (r <<< 1) ^^^ (if d ^^ r.getLsbD 7 then 0b10100111#8 else 0#8)

theorem hecGenRound_getLsbD_zero (r : Byte) (d : Bool) : (hecGenRound r d).getLsbD 0 = (d ^^ r.getLsbD 7) := by
  rw [hecGenRound]
  cases d ^^ r.getLsbD 7 <;> simp

theorem hecGenRound_getLsbD_succ (r : Byte) (d : Bool) {i : Nat} (hi : i < 7) : (hecGenRound r d).getLsbD (i + 1) =
    (r.getLsbD i ^^ ((d ^^ r.getLsbD 7) && (0b10100111#8).getLsbD (i + 1))) := by
  rw [hecGenRound, BitVec.getLsbD_xor, BitVec.getLsbD_shiftLeft]
  cases d ^^ r.getLsbD 7 <;> simp <;> omega

theorem hecRound_getLsbD_zero (r : Byte) (d : Bool) : (hecRound r d).getLsbD 0 = (r.getLsbD 7 ^^ d) := by
  simp [hecRound]

theorem hecRound_getLsbD_succ (r : Byte) (d : Bool) {i : Nat} (hi : i < 7) : (hecRound r d).getLsbD (i + 1) =
    (r.getLsbD i ^^ (r.getLsbD 7 && hw.hecPoly.getLsbD i)) := by
  rw [hecRound]
  cases r.getLsbD 7 <;> simp <;> omega

/-- The polynomial of rule R146 is that of rule R148 read backwards. -/
theorem hecPoly_getLsbD : ∀ i, i < 7 → (0b10100111#8).getLsbD (7 - i) = hw.hecPoly.getLsbD i := by decide

/-- The bit that the forward round shifts in tells whether it added the polynomial, so the backward round can take both
back. -/
theorem hecRound_hecGenRound (r : Byte) (d : Bool) : hecRound (rev8 (hecGenRound r d)) d = rev8 r := by
  have top : (rev8 (hecGenRound r d)).getLsbD 7 = (d ^^ r.getLsbD 7) := by
    rw [rev8_getLsbD _ (by decide), hecGenRound_getLsbD_zero]
  apply BitVec.eq_of_getLsbD_eq
  intro i hi
  cases i with
  | zero => rw [hecRound_getLsbD_zero, top, rev8_getLsbD _ hi, Bool.xor_right_comm, Bool.xor_self, Bool.false_xor]
  | succ i =>
    have below : i < 7 := by omega
    have place : 7 - i = 7 - (i + 1) + 1 := by omega
    have bit : (rev8 (hecGenRound r d)).getLsbD i =
        (r.getLsbD (7 - (i + 1)) ^^ ((d ^^ r.getLsbD 7) && hw.hecPoly.getLsbD i)) := by
      rw [← hecPoly_getLsbD i below, rev8_getLsbD _ (by omega), place, hecGenRound_getLsbD_succ _ _ (by omega)]
    rw [hecRound_getLsbD_succ _ _ below, top, bit, rev8_getLsbD _ hi, Bool.xor_assoc, Bool.xor_self, Bool.xor_false]

/-- A backward round loses nothing: the top bit is the one that decided what it shifts in. -/
theorem hecRound_inj {r t : Byte} {d : Bool} (h : hecRound r d = hecRound t d) : r = t := by
  have same : ∀ i, (hecRound r d).getLsbD i = (hecRound t d).getLsbD i := fun i => by rw [h]
  have top : r.getLsbD 7 = t.getLsbD 7 := by
    have bit := same 0
    rwa [hecRound_getLsbD_zero, hecRound_getLsbD_zero, Bool.xor_left_inj] at bit
  apply BitVec.eq_of_getLsbD_eq
  intro i hi
  by_cases below : i < 7
  · have bit := same (i + 1)
    rwa [hecRound_getLsbD_succ _ _ below, hecRound_getLsbD_succ _ _ below, top, Bool.xor_left_inj] at bit
  · obtain rfl : i = 7 := by omega
    exact top

/-! ## All ten rounds -/

theorem foldl_hecRound_foldl_hecGenRound (ds : Bits) (r : Byte) :
    ds.reverse.foldl hecRound (rev8 (ds.foldl hecGenRound r)) = rev8 r := by
  induction ds generalizing r with
  | nil => rfl
  | cons d ds ih =>
    rw [List.reverse_cons, List.foldl_append, List.foldl_cons (f := hecGenRound), ih]
    exact hecRound_hecGenRound r d

theorem foldl_hecRound_inj {ds : Bits} {r t : Byte} (h : ds.foldl hecRound r = ds.foldl hecRound t) : r = t := by
  induction ds generalizing r t with
  | nil => exact h
  | cons d ds ih => exact hecRound_inj (ih h)

theorem rev8_rev8 (b : Byte) : rev8 (rev8 b) = b := BitVec.reverse_reverse_eq

theorem rev8_inj {a b : Byte} (h : rev8 a = rev8 b) : a = b := by
  rw [← rev8_rev8 a, h, rev8_rev8]

theorem hecGen_eq_foldl (data : BitVec 10) (uap : Byte) :
    hecGen data uap = rev8 ((hostToAir data.toNat 10).foldl hecGenRound uap) := by
  rw [hostToAir, List.foldl_map]
  rfl

theorem hecToUap_hecGen (data : BitVec 10) (uap : Byte) : hecToUap data (hecGen data uap) = uap := by
  rw [hecToUap, hecGen_eq_foldl, foldl_hecRound_foldl_hecGenRound, rev8_rev8]

/-- No two HEC values stand for one UAP (rule R146): a backward round keeps all eight bits of the register. -/
theorem hecToUap_inj {data : BitVec 10} {hec hec' : Byte} (h : hecToUap data hec = hecToUap data hec') : hec = hec' :=
  foldl_hecRound_inj (rev8_inj h)

theorem hecToUap_eq_iff (data : BitVec 10) (hec uap : Byte) : hecToUap data hec = uap ↔ hec = hecGen data uap :=
  ⟨fun h => hecToUap_inj (h.trans (hecToUap_hecGen data uap).symm), fun h => h ▸ hecToUap_hecGen data uap⟩

/-- Settles O47. -/
theorem hecToUapInvertsHecGen : Obligations.HecToUapInvertsHecGen := fun data uap =>
  ⟨hecToUap_hecGen data uap, fun hec => (hecToUap_eq_iff data hec uap).1⟩

/-! ## `HEC2UAP` -/

theorem headerDataOperand_eq (a : Word) : headerDataOperand a = a.extractLsb' 0 10 :=
  BitVec.setWidth_eq_extractLsb' (by decide)

/-- Settles O46: the operands are the fields the statement names. -/
theorem hec2UapReturnsUap : Obligations.Hec2UapReturnsUap := by
  intro s hf
  rw [exec, execHec2uap, command_run _ hf, headerDataOperand_eq, byteOperand_eq, State.finish, BitVec.ofNat_toNat]
  rfl

/-! ## The reading of a header (rule R145) -/

/-- The repetition decode of the header's symbols. -/
def State.headerTriplets (s : State) : Bits × Nat := unfec13 (s.symbols 72 54) 18

/-- The header bits under clock `c`, whatever the gate says. -/
def State.headerReading (s : State) (c : Nat) : Bits := dewhiten s.headerTriplets.1 c 18 0 s.ctx.whitened

section
variable {s : State} (c : Nat)

theorem headerBits_short (h : s.length < 126) : s.headerBits c = .shortBuffer := if_pos h

theorem headerBits_gate (h : 126 ≤ s.length) (gate : 4 ≤ s.headerTriplets.2) : s.headerBits c = .repetitionGate := by
  refine (if_neg (Nat.not_lt.2 h)).trans (if_neg ?_)
  rw [rep13Ok_eq, decide_eq_true_eq]
  exact Nat.not_lt.2 gate

theorem headerBits_read (h : 126 ≤ s.length) (gate : s.headerTriplets.2 < 4) :
    s.headerBits c = .bits (s.headerReading c) := by
  refine (if_neg (Nat.not_lt.2 h)).trans (if_pos ?_)
  rw [rep13Ok_eq, decide_eq_true_eq]
  exact gate

end

/-! ## The fields of a header -/

theorem headerData_eq (h : Bits) : headerData h = BitVec.ofNat 10 (airToHost (h.take 10) 10) := by
  rw [headerData, slice, List.drop_zero]

theorem headerHec_eq (h : Bits) : headerHec h = BitVec.ofNat 8 (airToHost (h.drop 10) 8) := by
  rw [headerHec, slice, airToHost, List.take_take, Nat.min_self, airToHost]

theorem headerValue_toNat (h : Bits) : (headerValue h).toNat = airToHost h 18 := by
  rw [headerValue, BitVec.toNat_ofNat, Nat.mod_eq_of_lt (airToHost_lt h 18)]

/-! ## `PROBE_UAP` -/

/-- What `PROBE_UAP` leaves, by what it read (rule R149). -/
def State.probed (s : State) : HeaderRead → State
  | .shortBuffer => s.raise .shortBuffer
  | .repetitionGate => s.raise .repetitionGate
  | .bits h => s.finish (headerUap h).toNat (headerValue h).toNat .ok

theorem exec_probeUap {s : State} (hp : s.phase = .created ∨ s.phase = .headerDecoded ∨ s.phase = .payloadDecoded) :
    exec .probeUap s = .next (s.probed (s.headerBits (clockOperand s.ops.a0))) := by
  have outside : s.phase ≠ .fault ∧ hasPacket s.phase = true := by
    rcases hp with hp | hp | hp <;> rw [hp] <;> decide
  obtain ⟨hf, packet⟩ := outside
  rw [exec, execProbeUap, command_run _ hf, packet]
  refine congrArg _ ((if_neg Bool.false_ne_true).trans ?_)
  cases s.headerBits (clockOperand s.ops.a0) <;> rfl

theorem exec_probeUap_idle {s : State} (hp : s.phase = .idle) : exec .probeUap s = .next (s.raise .badState) := by
  have hf : s.phase ≠ .fault := by rw [hp]; decide
  rw [exec, execProbeUap, command_run _ hf, hp]
  rfl

/-- Settles O48: each clause is an answer of `HeaderBits`. -/
theorem probeUapReturnsCandidate : Obligations.ProbeUapReturnsCandidate := by
  refine ⟨fun s hp => ?_, fun s => exec_probeUap_idle⟩
  rw [exec_probeUap hp]
  dsimp only
  rw [← clockOperand_eq, ← State.headerTriplets, ← State.headerReading, ← headerData_eq, ← headerHec_eq]
  refine ⟨fun size gate => ?_, fun size => ?_, fun size gate => ?_⟩
  · rw [headerBits_read _ size gate, State.probed, State.finish, BitVec.ofNat_toNat, headerValue_toNat]
    rfl
  · rw [headerBits_short _ size]
    rfl
  · rw [headerBits_gate _ size gate]
    rfl

/-! ## `DECODE_HEADER` -/

/-- What the header stage leaves of a packet in `Created`, by what it read (rule R150). -/
def State.headerJudged (s : State) : HeaderRead → State
  | .shortBuffer => s.raise .shortBuffer
  | .repetitionGate => s.raise .repetitionGate
  | .bits h =>
    if headerUap h = s.ctx.uap then ((s.setHeader h).setPhase .headerDecoded).finish 1 (headerUap h).toNat .ok
    else s.finish 0 (headerUap h).toNat .badHec

section
variable {s : State} {h : Bits}

theorem headerJudged_own (own : headerHec h = hecGen (headerData h) s.ctx.uap) : s.headerJudged (.bits h) =
    ((s.setHeader h).setPhase .headerDecoded).finish 1 s.ctx.uap.toNat .ok := by
  have uap : headerUap h = s.ctx.uap := (hecToUap_eq_iff _ _ _).2 own
  rw [State.headerJudged, if_pos uap, uap]

theorem headerJudged_other (other : headerHec h ≠ hecGen (headerData h) s.ctx.uap) : s.headerJudged (.bits h) =
    s.finish 0 (headerUap h).toNat .badHec :=
  if_neg (mt (hecToUap_eq_iff _ _ _).1 other)

end

theorem setPhase_self {s : State} {p : Phase} (hp : s.phase = p) : s.setPhase p = s := by
  subst hp
  rfl

/-- The header stage passes through `HeaderPending` unseen: it ends in `Created`, where it began, or in `HeaderDecoded`. -/
theorem headerStage_eq {s : State} (hp : s.phase = .created) :
    s.headerStage = s.headerJudged (s.headerBits s.clock6) := by
  have reading : (s.setPhase .headerPending).headerBits (s.setPhase .headerPending).clock6 = s.headerBits s.clock6 := rfl
  have back : (s.setPhase .headerPending).setPhase .created = s := setPhase_self hp
  simp only [State.headerStage]
  rw [reading, back]
  cases s.headerBits s.clock6 with
  | shortBuffer => rfl
  | repetitionGate => rfl
  | bits h => exact ite_not _ _ _

theorem exec_decodeHeader {s : State} (hp : s.phase = .created) (hu : s.ctx.haveUap = true) :
    exec .decodeHeader s = .next (s.headerJudged (s.headerBits s.clock6)) := by
  have hf : s.phase ≠ .fault := by rw [hp]; decide
  rw [exec, execDecodeHeader, command_run _ hf, if_neg (not_not_intro hp), hu, ← headerStage_eq hp]
  rfl

theorem exec_decodeHeader_badState {s : State} (hf : s.phase ≠ .fault) (hp : s.phase ≠ .created) :
    exec .decodeHeader s = .next (s.raise .badState) := by
  rw [exec, execDecodeHeader, command_run _ hf, if_pos hp]

theorem exec_decodeHeader_noUap {s : State} (hp : s.phase = .created) (hu : s.ctx.haveUap = false) :
    exec .decodeHeader s = .next (s.raise .noUap) := by
  have hf : s.phase ≠ .fault := by rw [hp]; decide
  rw [exec, execDecodeHeader, command_run _ hf, if_neg (not_not_intro hp), hu]
  rfl

/-- Settles O49: the test of the UAP is a test of the HEC (`headerJudged_own`, `headerJudged_other`). -/
theorem decodeHeaderAcceptsItsHec : Obligations.DecodeHeaderAcceptsItsHec := by
  refine ⟨fun s hp hu => ?_, fun s => exec_decodeHeader_badState, fun s => exec_decodeHeader_noUap⟩
  rw [exec_decodeHeader hp hu]
  dsimp only
  rw [← clock6_eq, ← State.headerTriplets, ← State.headerReading, ← headerData_eq, ← headerHec_eq]
  refine ⟨fun size gate own => ?_, fun size gate other => ?_, fun size => ?_, fun size gate => ?_⟩
  · rw [headerBits_read _ size gate, headerJudged_own own, State.finish, BitVec.ofNat_toNat]
    rfl
  · rw [headerBits_read _ size gate, headerJudged_other other, State.finish, BitVec.ofNat_toNat]
    rfl
  · rw [headerBits_short _ size]
    rfl
  · rw [headerBits_gate _ size gate]
    rfl

end Sys2Proof.Machine

/-! # The CRC

Confidence 10 is written in one place, the end of a payload stage whose handler answered `crcMatched`, and what a handler
then reports is a payload in `PAY` that passes the CRC test (`HandlerRun.matched`), which is the residue test
(`crcOk_eq_residueZero`). Every other step keeps the registers and cells that the claim reads, or ends with a lower
confidence.

The register itself is its seed and its step, put into the words of the pseudocode (`crcSeed_eq`, `crcStep_eq`); the two
commands are queries, each ending in one of two states, which its `exec_` lemmas name. -/

namespace Sys2Proof.Machine

/-! ## What the claim of confidence 10 reads -/

section
variable {s t : State}

theorem TenMeansCrc.of_result_ne (h : s.prog.result ≠ .ten) : TenMeansCrc s := fun ten => absurd ten h

/-- The claim reads `RESULT`, `PAYLOAD_LENGTH`, `UAP` and the cells of `PAY`. A length of nine bits could reach past `PAY`,
but not as far as the next buffer that a step may write. -/
theorem TenMeansCrc.frame (h : TenMeansCrc s) (result : t.prog.result = s.prog.result)
    (length : t.prog.payloadLength = s.prog.payloadLength) (uap : t.ctx.uap = s.ctx.uap)
    (cells : ∀ a, 0x2000 ≤ a → a < 0x3000 → t.mem.get a = s.mem.get a) : TenMeansCrc t := by
  have bytes : t.payloadBytes = s.payloadBytes := congrArg BitVec.toNat length
  have nineBits : s.payloadBytes < 512 := s.prog.payloadLength.isLt
  have payload : t.readBuf .pay 0 (8 * s.payloadBytes) = s.readBuf .pay 0 (8 * s.payloadBytes) := by
    refine List.map_congr_left fun i hi => ?_
    rw [List.mem_range] at hi
    exact cells _ (by simp only [Region.base]; omega) (by simp only [Region.base]; omega)
  intro ten
  rw [bytes, payload, uap]
  exact h (result.symm.trans ten)

/-- The results, the operands, the load port and the host's fields are no part of the claim. -/
theorem TenMeansCrc.of_registers (h : TenMeansCrc s) (prog : t.prog = s.prog) (ctx : t.ctx = s.ctx)
    (mem : t.mem = s.mem) : TenMeansCrc t :=
  h.frame (by rw [prog]) (by rw [prog]) (by rw [ctx]) fun _ _ _ => by rw [mem]

theorem TenMeansCrc.of_cleared (h : s.prog = Progress.cleared) : TenMeansCrc s :=
  .of_result_ne (by rw [h]; decide)

/-! ## The payload stage -/

theorem eq_crcMatched_of_result_ten {o : PayloadOutcome} (h : o.result = .ten) : o = .crcMatched := by
  cases o with
  | crcMatched => rfl
  | _ => cases h

/-- A payload stage ends with the claim true, whatever was true before it (rules R161, R170, R180). -/
theorem tenMeansCrc_payloadStage (p : PacketType) (s : State) : TenMeansCrc (s.payloadStage (handlerOf p)) := by
  have run : HandlerRun s.payloadStart (handlerOf p s.payloadStart) := handlerOf_run p (PayloadBounds.start s)
  rw [payloadStage_eq]
  generalize handlerOf p s.payloadStart = r at run ⊢
  rcases endPayload_cases r.1 r.2 with ⟨missing, -⟩ | ⟨-, -, failed⟩ | ⟨-, decoded⟩
  · exact absurd missing run.known
  · rw [failed]
    exact .of_result_ne nofun
  · rw [decoded]
    intro ten
    obtain ⟨crcBytes, crcMatches⟩ := run.matched (eq_crcMatched_of_result_ten ten)
    rw [crcOk_eq_residueZero _ crcBytes (Nat.le_of_eq (readBuf_length _ _ _ _).symm)] at crcMatches
    exact eq_of_beq crcMatches

/-- An instruction that runs the payload stage leaves what the stage leaves. -/
theorem RunsPayload.eq_payloadStage {i : Instr} {p : PacketType} (run : RunsPayload i p s)
    (h : exec i s = .next t) : t = s.payloadStage (handlerOf p) := by
  rcases run with ⟨rfl, phase, rfl⟩ | ⟨⟨f, rfl⟩, phase⟩
  · have hf : s.phase ≠ .fault := by rw [phase]; decide
    rw [exec, execDecodePayload, command_run _ hf, if_neg (not_not_intro phase)] at h
    cases h
    rfl
  · rw [exec_packetInstr_pending _ _ phase] at h
    cases h
    rfl

/-! ## Every step keeps the claim -/

theorem TenMeansCrc.endDecode (h : TenMeansCrc s) : TenMeansCrc s.endDecode := by
  unfold State.endDecode
  split
  · exact h
  · exact h.of_registers rfl rfl rfl

/-- `DECODE` ends in a refusal, with result 0, or with what its payload stage left (rule R222). -/
theorem TenMeansCrc.of_execDecode (hs : TenMeansCrc s) (h : execDecode s = .next t) : TenMeansCrc t := by
  rcases command_next h with ⟨-, rfl⟩ | ⟨-, rfl⟩
  · exact hs
  split
  · exact hs.of_registers rfl rfl rfl
  split
  · exact hs.of_registers rfl rfl rfl
  dsimp only
  split
  · exact .of_result_ne nofun
  · exact (tenMeansCrc_payloadStage _ _).endDecode

theorem TenMeansCrc.of_exec {i : Instr} (hs : TenMeansCrc s) (h : exec i s = .next t) : TenMeansCrc t := by
  cases exec_effect h with
  | results => exact hs.of_registers rfl rfl rfl
  | work i hi off bits r =>
    refine hs.frame rfl rfl rfl fun a above below => sameCellsOutside_writeBuf s .wb off bits a ?_
    simp only [Region.base, Region.size, hw_maxSymbols]
    omega
  | context => exact .of_cleared rfl
  | setChannel => exact hs.frame rfl rfl rfl fun _ _ _ => rfl
  | restart => exact .of_cleared rfl
  | create => exact .of_cleared rfl
  | decodeHeader t b ht =>
    exact hs.frame (by rw [ht.registers]; rfl) (by rw [ht.registers]; rfl) (by rw [ht.ctx]) fun _ _ _ => by rw [ht.mem]
  | decodeNoHeader => exact .of_result_ne nofun
  | decode => exact hs.of_execDecode h
  | payload i p t hi ht =>
    rw [hi.eq_payloadStage h]
    exact tenMeansCrc_payloadStage p s
  | emit hp bits r =>
    refine hs.frame rfl rfl rfl fun a above below => sameCellsOutside_writeBuf s .record 0 bits a ?_
    simp only [Region.base, Region.size]
    omega

theorem MoveEffect.tenMeansCrc (h : MoveEffect s t) (hs : TenMeansCrc s) : TenMeansCrc t := by
  cases h with
  | port => exact hs.of_registers rfl rfl rfl
  | loadSymbols => exact .of_cleared rfl
  | writeWlen => exact .of_cleared rfl
  | reset => exact .of_cleared rfl

theorem TenMeansCrc.fetched (h : TenMeansCrc s) : TenMeansCrc s.fetched := by
  unfold State.fetched
  split
  · exact h
  · exact h.of_registers rfl rfl rfl

end

/-- Settles O20: an instruction, a word that is none, or a move of the host. -/
theorem stepKeepsTenMeansCrc : Obligations.StepKeepsTenMeansCrc := by
  intro s t hs h
  rcases step_cases h with ⟨-, i, -, -, ran⟩ | ⟨-, -, -, -, rfl⟩ | ⟨idle, rfl⟩
  · exact hs.fetched.of_exec ran
  · exact hs.fetched.of_registers rfl rfl rfl
  · exact (hostStep_effect idle).tenMeansCrc hs

/-! ## The CRC register (rule R160) -/

/-- The seed is the reversed `UAP` above a byte of zeros. -/
theorem crcSeed_eq (uap : Byte) : crcSeed uap = (rev8 uap).setWidth 16 <<< 8 := by
  rw [crcSeed, BitVec.append_def, BitVec.shiftLeftZeroExtend_eq]
  exact BitVec.or_zero

theorem crcGen_zero (s : Bits) (uap : Byte) : crcGen s 0 uap = (rev8 uap).setWidth 16 <<< 8 := crcSeed_eq uap

theorem crcGen_concat (s : Bits) (b : Bool) (uap : Byte) :
    crcGen (s ++ [b]) (s.length + 1) uap = crcStep (crcGen s s.length uap) b := by
  have whole : (s ++ [b]).take (s.length + 1) = s ++ [b] :=
    List.take_of_length_le (Nat.le_of_eq List.length_append)
  rw [crcGen, crcGen, List.take_length, whole, List.foldl_append]
  exact List.foldl_cons

/-- Setting the bit that the shift left 0 is inverting it. -/
theorem ushiftRight_or_top (reg : BitVec 16) : (reg >>> 1) ||| 0x8000#16 = (reg >>> 1) ^^^ 0x8000#16 := by
  apply BitVec.eq_of_getLsbD_eq
  intro i hi
  rw [BitVec.getLsbD_or, BitVec.getLsbD_xor, BitVec.getLsbD_ushiftRight]
  by_cases top : i = 15
  · rw [top, BitVec.getLsbD_of_ge reg 16 (Nat.le_refl 16), Bool.false_or, Bool.false_xor]
  · have clear : (0x8000#16).getLsbD i = false := by
      revert i
      decide
    rw [clear, Bool.or_false, Bool.xor_false]

/-- `CRC_TAPS` is the bit shifted in, 15, and the two taps of the pseudocode's mask (rule R160). -/
theorem crcStep_eq (reg : BitVec 16) (b : Bool) : crcStep reg b =
    let fb := reg.getLsbD 0 ^^ b
    let shifted := (reg >>> 1) ||| ((BitVec.ofBool fb).setWidth 16 <<< 15)
    if fb then shifted ^^^ 0x0408 else shifted := by
  dsimp only
  rw [crcStep]
  cases reg.getLsbD 0 ^^ b with
  | false => exact BitVec.or_zero.symm
  | true =>
    have mask : hw.crcTaps = 0x8000#16 ^^^ 0x0408#16 := by decide
    calc (reg >>> 1) ^^^ hw.crcTaps
        _ = ((reg >>> 1) ^^^ 0x8000#16) ^^^ 0x0408#16 := by rw [mask, BitVec.xor_assoc]
        _ = ((reg >>> 1) ||| 0x8000#16) ^^^ 0x0408#16 := by rw [ushiftRight_or_top]

/-! ## `CRCGEN` and `CRCCHK` -/

section
variable {s : State} (hf : s.phase ≠ .fault)
include hf

theorem exec_crcgen (hn : s.ops.a1.toNat ≤ 3125)
    (hr : s.rangeOk (bitAddress s.ops.a0) s.ops.a1.toNat = true) : exec .crcgen s = .next
      (s.finish (crcGen (s.bitsAt (bitAddress s.ops.a0) s.ops.a1.toNat) s.ops.a1.toNat (byteOperand s.ops.a2)).toNat
        0 .ok) := by
  rw [exec, execCrcgen, command_run _ hf]
  exact congrArg _ (if_neg (count_and_range_accepted hn hr))

theorem exec_crcgen_refused (h : 3125 < s.ops.a1.toNat ∨ s.rangeOk (bitAddress s.ops.a0) s.ops.a1.toNat = false) :
    exec .crcgen s = .next (s.raise .badOperand) := by
  rw [exec, execCrcgen, command_run _ hf]
  exact congrArg _ (if_pos ((count_or_range_refused_iff _ _ _ _).2 h))

/-- `CRCCHK` answers by the residue of the whole payload, and reports the CRC of the part before its CRC bytes. -/
theorem exec_crcchk (h2 : 2 ≤ s.ops.a1.toNat) (hn : s.ops.a1.toNat ≤ 390)
    (hr : s.rangeOk (bitAddress s.ops.a0) (8 * s.ops.a1.toNat) = true) :
    let bits := s.bitsAt (bitAddress s.ops.a0) (8 * s.ops.a1.toNat)
    let ok := residueZero bits s.ops.a1.toNat (byteOperand s.ops.a2)
    exec .crcchk s = .next
      (s.finish ok.toNat (crcGen bits (8 * s.ops.a1.toNat - 16) (byteOperand s.ops.a2)).toNat (crcCause ok)) := by
  have accepted : ¬ (decide (s.ops.a1.toNat < 2) || decide (s.ops.a1.toNat > 390) ||
      !s.rangeOk (bitAddress s.ops.a0) (8 * s.ops.a1.toNat)) = true := by
    rw [Bool.or_assoc, decide_eq_false (Nat.not_lt.2 h2), Bool.false_or]
    exact count_and_source_accepted hn hr
  dsimp only
  rw [exec, execCrcchk, command_run _ hf]
  refine congrArg _ ((if_neg accepted).trans ?_)
  dsimp only
  rw [countOperand, crcOk_eq_residueZero _ h2 (Nat.le_of_eq (bitsAt_length _ _ _).symm), Nat.mul_sub]
  rfl

theorem exec_crcchk_refused (h : s.ops.a1.toNat < 2 ∨ 390 < s.ops.a1.toNat ∨
    s.rangeOk (bitAddress s.ops.a0) (8 * s.ops.a1.toNat) = false) : exec .crcchk s = .next (s.raise .badOperand) := by
  rw [exec, execCrcchk, command_run _ hf]
  refine congrArg _ (if_pos ?_)
  rw [Bool.or_assoc, Bool.or_eq_true, decide_eq_true_eq]
  exact h.imp_right count_or_source_refused

end

theorem ofNat_boolToNat (b : Bool) : BitVec.ofNat 32 b.toNat = if b then 1 else 0 := by cases b <;> rfl

/-- Settles O50: the register by its first and its next value, the residue test by `crcOk_eq_residueZero`, and each command
by the state it ends in. -/
theorem crcCommands : Obligations.CrcCommands := by
  refine ⟨crcGen_zero, fun s b uap => ?_, fun s len uap => crcOk_eq_residueZero uap, fun s hf => ?_⟩
  · rw [crcGen_concat, crcStep_eq]
  · dsimp only
    rw [← bitAddress_eq, ← byteOperand_eq]
    refine ⟨fun hn hr => ?_, fun h2 hn hr => ?_, exec_crcgen_refused hf, exec_crcchk_refused hf⟩
    · rw [exec_crcgen hf hn hr, State.finish, BitVec.ofNat_toNat]
      rfl
    · rw [exec_crcchk hf h2 hn hr, State.finish, BitVec.ofNat_toNat, ofNat_boolToNat]

end Sys2Proof.Machine

/-! # The payload stage as a command, and its packets without a payload

`DECODE_PAYLOAD` and the packet row of its type are one payload stage (`exec_decodePayload`, `exec_packetInstr_pending`),
of which `payloadStage_end` says what it may write and `payloadStage_results` what it answers. -/

namespace Sys2Proof.Machine

/-! ## `DECODE_PAYLOAD` -/

theorem exec_decodePayload {s : State} (h : s.phase = .headerDecoded) :
    exec .decodePayload s = .next (s.payloadStage (handlerOf (packetTypeOf s.prog.packetType))) := by
  rw [exec, execDecodePayload, command_run _ (by rw [h]; decide), if_neg (not_not_intro h)]

theorem exec_decodePayload_refused {s : State} (hf : s.phase ≠ .fault) (h : s.phase ≠ .headerDecoded) :
    exec .decodePayload s = .next (s.raise .badState) := by
  rw [exec, execDecodePayload, command_run _ hf, if_pos h]

theorem exec_packetInstr_refused (p : PacketType) (f : HeaderFields) {s : State} (hf : s.phase ≠ .fault)
    (h : s.phase ≠ .payloadPending) : exec (packetInstr p f) s = .next (s.raise .badState) := by
  rw [exec_packetInstr, packetStage, command_run _ hf, if_neg h]

/-- `R0` is the result code and `R1` the payload length (rule R170). -/
theorem payloadStage_results (p : PacketType) (s : State) :
    let t := s.payloadStage (handlerOf p)
    t.res.r0 = BitVec.ofNat 32 t.prog.result.code ∧ t.res.r1 = t.prog.payloadLength.setWidth 32 := by
  have known := (handlerOf_run p (PayloadBounds.start s)).known
  dsimp only
  rw [payloadStage_eq]
  rcases endPayload_cases (handlerOf p s.payloadStart).1 (handlerOf p s.payloadStart).2 with
    ⟨missing, -⟩ | ⟨-, -, failed⟩ | ⟨-, decoded⟩
  · exact absurd missing known
  · rw [failed]
    exact ⟨rfl, rfl⟩
  · rw [decoded]
    exact ⟨rfl, rfl⟩

/-- Settles O6: the command and the packet row run one stage, and `payloadStage_end` is its frame. -/
theorem decodePayloadRunsItsHandler : Obligations.DecodePayloadRunsItsHandler := by
  intro s f hp
  have stage := payloadStage_end (packetTypeOf s.prog.packetType) s
  obtain ⟨code, length⟩ := payloadStage_results (packetTypeOf s.prog.packetType) s
  have row : exec (packetInstr (packetTypeOf s.prog.packetType) f) { s with phase := .payloadPending } =
      .next (s.payloadStage (handlerOf (packetTypeOf s.prog.packetType))) := exec_packetInstr_pending _ f rfl
  refine ⟨_, exec_decodePayload hp, row, code, length, fun zero => ?_, fun nonzero => ?_, stage.registers, stage.cells,
    fun other => stage.onlyPay (mt packetTypeOf_eq_dv other)⟩
  · rcases stage.verdict with ⟨phase, -, cleared⟩ | ⟨-, nonzero, -⟩
    · exact ⟨phase, cleared⟩
    · exact absurd zero nonzero
  · rcases stage.verdict with ⟨-, zero, -⟩ | ⟨phase, -, present⟩
    · exact absurd zero nonzero
    · exact ⟨phase, present⟩

/-! ## Refusals and the missing handler -/

/-- Settles O25. -/
theorem outOfOrderIsRefused : Obligations.OutOfOrderIsRefused := fun _ hf =>
  ⟨exec_decodePayload_refused hf, fun h => exec_emit_refused h hf, fun h p f => exec_packetInstr_refused p f hf h⟩

/-- Settles O16: the handler that is missing leaves the state the stage began with, which `Fault` then takes. -/
theorem missingHandlerEntersFault : Obligations.MissingHandlerEntersFault := by
  intro s r _
  have missing : plAux1 .fault r s.payloadStart = (s.payloadStart, .noHandler) := rfl
  rw [payloadStage_eq, missing]
  rfl

/-! ## A stage that ends with a report -/

/-- What a handler leaves that has reported `p`, the buffers being `m`. -/
def State.reporting (s : State) (p : PayloadReport) (m : Memory) : State :=
  { s.payloadStart with
    mem := m
    prog := { s.prog with
      payloadHeader := p.header
      payloadLength := BitVec.ofNat 9 p.len
      payloadInfo := p.info
      fhsClk := BitVec.ofNat 6 (p.fhsClock.getD 0)
      fhsClkValid := p.fhsClock.isSome } }

/-- A stage whose handler reported `p` with a result of 1 or 10, whatever it wrote to the buffers. -/
theorem payloadStage_reported {s : State} {h : Handler} {o : PayloadOutcome} {p : PayloadReport} {m : Memory}
    (run : h s.payloadStart = (s.reporting p m, o)) (hr : o.result ≠ .zero) (hlen : p.len < 512) :
    s.payloadStage h = s.payloadAccepted p o.result o.cause m := by
  have count : (BitVec.ofNat 9 p.len).setWidth 32 = BitVec.ofNat 32 p.len := by
    apply BitVec.eq_of_toNat_eq
    simp only [BitVec.toNat_setWidth, BitVec.toNat_ofNat]
    omega
  rw [payloadStage_eq, run]
  rcases endPayload_cases (s.reporting p m) o with ⟨rfl, -⟩ | ⟨-, zero, -⟩ | ⟨-, decoded⟩
  · exact absurd rfl hr
  · exact absurd zero hr
  · rw [decoded, State.payloadAccepted, ← count]
    rfl

/-- `PlNone` reports no payload and writes no buffer (rule R172). -/
theorem payloadStage_plNone (s : State) :
    s.payloadStage plNone = s.payloadAccepted (.plain 0) .one .unvalidated s.mem :=
  payloadStage_reported (o := .unvalidated) (p := .plain 0) rfl (by decide) (by decide)

/-- Settles O51: both types run `PlNone`. -/
theorem nullAndPollPackets : Obligations.NullAndPollPackets := fun s f hp =>
  ⟨(exec_packetInstr_pending .null f hp).trans (congrArg _ (payloadStage_plNone s)),
    (exec_packetInstr_pending .poll f hp).trans (congrArg _ (payloadStage_plNone s))⟩

end Sys2Proof.Machine

/-! # Readings of a block-coded field

The blocks of a field decode one after the other, so the reading of one block more is that block's data after the reading
so far (`blockRead_add_block`), and the reading of fewer bits is the first part of the reading of more
(`blockRead_take`). -/

namespace Sys2Proof.Machine

/-! ## Whole blocks -/

theorem ceilDiv_ten_mul (b : Nat) : ceilDiv (10 * b) 10 = b := by unfold ceilDiv; omega

theorem le_ten_mul_ceilDiv (n : Nat) : n ≤ 10 * ceilDiv n 10 := by unfold ceilDiv; omega

theorem ceilDiv_ten_le_ceilDiv {m n : Nat} (h : m ≤ n) : ceilDiv m 10 ≤ ceilDiv n 10 := by unfold ceilDiv; omega

/-- The last of the blocks decodes after the others. -/
theorem unfec23Blocks_add_one (n : Nat) (s : Bits) : unfec23Blocks (n + 1) s =
    (unfec23Blocks n s).bind fun r => (blockAt s n).map fun b => (r.1 ++ b.1, r.2 + b.2.toNat) := by
  induction n generalizing s with
  | zero =>
    rw [unfec23Blocks_succ, unfec23Blocks, unfec23Blocks]
    cases blockAt s 0 <;> simp
  | succ n ih =>
    rw [unfec23Blocks_succ, ih, blockAt_drop, unfec23Blocks_succ n]
    cases blockAt s 0 <;> cases unfec23Blocks n (s.drop 15) <;> cases blockAt s (n + 1) <;> simp [Nat.add_assoc]

theorem blockAt_take (s : Bits) {k m : Nat} (h : 15 * (k + 1) ≤ m) : blockAt (s.take m) k = blockAt s k := by
  rw [blockAt, slice, List.drop_take, List.take_take, Nat.min_eq_left (by omega)]
  rfl

/-- A decode of `n` blocks does not see what follows them. -/
theorem unfec23Blocks_take (s : Bits) {n m : Nat} (h : 15 * n ≤ m) :
    unfec23Blocks n (s.take m) = unfec23Blocks n s := by
  induction n with
  | zero => rfl
  | succ n ih => rw [unfec23Blocks_add_one, unfec23Blocks_add_one, ih (by omega), blockAt_take s h]

theorem blockAt_symbols (s : State) (base : Nat) {k m : Nat} (h : 15 * (k + 1) ≤ m) :
    blockAt (s.symbols base m) k = unfec23Block (s.symbols (base + 15 * k) 15) := by
  rw [blockAt, State.symbols, slice_readBuf_from _ _ _ (by omega), Nat.add_assoc]
  rfl

/-! ## Dewhitening the parts of a sequence -/

theorem dewhiten_take_self (t : Bits) (clock n skip : Nat) (w : Bool) :
    dewhiten (t.take n) clock n skip w = dewhiten t clock n skip w := by
  rw [dewhiten, List.take_take, Nat.min_self]
  rfl

theorem dewhiten_append {t : Bits} {n : Nat} (h : t.length = n) (u : Bits) (clock m skip : Nat) (w : Bool) :
    dewhiten (t ++ u) clock (n + m) skip w = dewhiten t clock n skip w ++ dewhiten u clock m (skip + n) w := by
  subst h
  rw [dewhiten_parts, ← dewhiten_take_self (t ++ u), List.take_left, List.drop_left]

/-! ## The reading of a field -/

theorem blockRead_length {s : State} {base skip n : Nat} {bits : Bits} (h : s.blockRead base skip n = some bits) :
    bits.length = n := by
  obtain ⟨r, decoded, rfl⟩ := Option.map_eq_some_iff.1 h
  rw [dewhiten_length, Nat.min_eq_left (unfec23_length (m := r.2) (symbols_length _ _ _) decoded)]

/-- The reading of one block more. -/
theorem blockRead_add_block (s : State) (base skip b : Nat) : s.blockRead base skip (10 * (b + 1)) =
    (s.blockRead base skip (10 * b)).bind fun bits =>
      (unfec23Block (s.symbols (base + 15 * b) 15)).map fun u => bits ++ s.dewhitened u.1 10 (skip + 10 * b) := by
  have before : unfec23Blocks b (s.symbols base (15 * (b + 1))) = unfec23Blocks b (s.symbols base (15 * b)) := by
    rw [← unfec23Blocks_take _ (Nat.le_refl _), symbols_take s base (by omega)]
  rw [State.blockRead, State.blockRead, unfec23, unfec23, ceilDiv_ten_mul, ceilDiv_ten_mul, unfec23Blocks_add_one,
    before, blockAt_symbols s base (Nat.le_refl _)]
  cases decoded : unfec23Blocks b (s.symbols base (15 * b)) with
  | none => rfl
  | some r =>
    have size : r.1.length = 10 * b :=
      (unfec23Blocks_length (m := r.2) (Nat.le_of_eq (symbols_length _ _ _).symm) decoded).1
    cases unfec23Block (s.symbols (base + 15 * b) 15) with
    | none => rfl
    | some u => exact congrArg some (dewhiten_append size u.1 _ 10 skip _)

/-- The reading of a field is the head of the reading of its whole blocks. -/
theorem blockRead_eq_take (s : State) (base skip n : Nat) :
    s.blockRead base skip n = (s.blockRead base skip (10 * ceilDiv n 10)).map (List.take n) := by
  rw [State.blockRead, State.blockRead, unfec23, unfec23, ceilDiv_ten_mul, Option.map_map]
  congr 1
  funext r
  exact ((dewhiten_take _ _ _ _ (le_ten_mul_ceilDiv n)).trans (dewhiten_take_self _ _ _ _ _)).symm

/-- The reading of the first `b` blocks, out of that of `j` blocks more. -/
theorem blockRead_blocks_take {s : State} {base skip b j : Nat} {bits : Bits}
    (read : s.blockRead base skip (10 * (b + j)) = some bits) :
    s.blockRead base skip (10 * b) = some (bits.take (10 * b)) := by
  induction j generalizing bits with
  | zero =>
    rw [List.take_of_length_le (show bits.length ≤ 10 * b from Nat.le_of_eq (blockRead_length read))]
    exact read
  | succ j ih =>
    rw [← Nat.add_assoc, blockRead_add_block] at read
    obtain ⟨head, headRead, read⟩ := Option.bind_eq_some_iff.1 read
    obtain ⟨u, -, rfl⟩ := Option.map_eq_some_iff.1 read
    rw [ih headRead, List.take_append_of_le_length (by rw [blockRead_length headRead]; omega)]

/-- The reading of fewer bits is the first part of the reading of more. -/
theorem blockRead_take {s : State} {base skip m n : Nat} {bits : Bits} (h : m ≤ n)
    (read : s.blockRead base skip n = some bits) : s.blockRead base skip m = some (bits.take m) := by
  rw [blockRead_eq_take] at read
  obtain ⟨whole, wholeRead, rfl⟩ := Option.map_eq_some_iff.1 read
  rw [← Nat.add_sub_cancel' (ceilDiv_ten_le_ceilDiv h)] at wholeRead
  rw [blockRead_eq_take, blockRead_blocks_take wholeRead, Option.map_some, List.take_take, List.take_take,
    Nat.min_eq_left (le_ten_mul_ceilDiv m), Nat.min_eq_left h]

end Sys2Proof.Machine

/-! # Payloads with a payload header

`PlDm` and `PlDh` are one handler (`plHeaded`) that reads the head of its field, and where the header declares a plausible
length that is there, the whole of it. What it reads is `fieldRead` of the row's FEC, so each end of its payload stage is
said once for every such row, and the packets differ in what their reading is. -/

namespace Sys2Proof.Machine

/-! ## The reading of a field under a FEC policy -/

/-- The dewhitened reading of `n` bits from packet symbol `base`, or the outcome its code fails with. -/
def State.fieldRead (s : State) (f : Fec) (base skip n : Nat) : Except PayloadOutcome Bits :=
  (undoFec f (s.symbols base (fecSymbols f n)) n).map (s.dewhitened · n skip)

theorem fieldRead_none (s : State) (base skip n : Nat) :
    s.fieldRead .none base skip n = .ok (s.plainRead base skip n) := rfl

theorem fieldRead_blocks (s : State) {f : Fec} (hf : f = .block ∨ f = .voiceThenBlock) (base skip n : Nat) :
    s.fieldRead f base skip n = (s.blockRead base skip n).elim (.error .fecUncorrectable) .ok := by
  have block : s.fieldRead .block base skip n = (s.blockRead base skip n).elim (.error .fecUncorrectable) .ok := by
    rw [State.fieldRead, undoFec, State.blockRead, fecSymbols]
    cases unfec23 (s.symbols base (15 * ceilDiv n 10)) n <;> rfl
  rcases hf with rfl | rfl
  · exact block
  · exact block

/-- A reading that fails does so with result 0. -/
theorem fieldRead_error {s : State} {f : Fec} {base skip n : Nat} {o : PayloadOutcome}
    (h : s.fieldRead f base skip n = .error o) : o.result = .zero ∧ o ≠ .noHandler := by
  rw [State.fieldRead] at h
  rcases undoFec_cases (f := f) (n := n) (symbols_length s base _) with ⟨o', failed, zero, known⟩ | ⟨t, decoded, -⟩
  · rw [failed] at h
    cases h
    exact ⟨zero, known⟩
  · rw [decoded] at h
    cases h

theorem fieldRead_length {s : State} {f : Fec} {base skip n : Nat} {bits : Bits}
    (h : s.fieldRead f base skip n = .ok bits) : bits.length = n := by
  rw [State.fieldRead] at h
  rcases undoFec_cases (f := f) (n := n) (symbols_length s base _) with ⟨o, failed, -⟩ | ⟨t, decoded, size⟩
  · rw [failed] at h
    cases h
  · rw [decoded] at h
    cases h
    rw [dewhitened_length, Nat.min_eq_left size]

/-- A reading of fewer bits is the first part of one of more, the repetition code with its gate apart. -/
theorem fieldRead_take {s : State} {f : Fec} {base skip m n : Nat} {bits : Bits} (hf : f ≠ .repetition) (h : m ≤ n)
    (read : s.fieldRead f base skip n = .ok bits) : s.fieldRead f base skip m = .ok (bits.take m) := by
  have blocks : f = .block ∨ f = .voiceThenBlock → s.fieldRead f base skip m = .ok (bits.take m) := fun hb => by
    rw [fieldRead_blocks s hb] at read ⊢
    cases whole : s.blockRead base skip n with
    | none =>
      rw [whole] at read
      cases read
    | some t =>
      rw [whole] at read
      cases read
      rw [blockRead_take h whole]
      rfl
  cases f with
  | none =>
    cases read
    exact congrArg Except.ok (plainRead_take s base skip h).symm
  | repetition => exact absurd rfl hf
  | block => exact blocks (.inl rfl)
  | voiceThenBlock => exact blocks (.inr rfl)

/-- More bits take no fewer symbols. -/
theorem fecSymbols_mono (f : Fec) {m n : Nat} (h : m ≤ n) : fecSymbols f m ≤ fecSymbols f n := by
  have blocks := ceilDiv_ten_le_ceilDiv h
  cases f with
  | none => exact h
  | repetition => exact Nat.mul_le_mul_left 3 h
  | block => exact Nat.mul_le_mul_left 15 blocks
  | voiceThenBlock => exact Nat.mul_le_mul_left 15 blocks

/-! ## The payload header -/

/-- A row whose payload has a header of one or two bytes, is uncoded or block-coded, and fits `PAY`. -/
structure HeadedRow (r : PacketRow) : Prop where
  hdr : r.hdr = 1 ∨ r.hdr = 2
  fec : r.fec ≠ .repetition
  maxBytes : r.maxBytes ≤ 343

/-- The total length that the payload header at the head of `p` declares (rules R174, R175). -/
def declaredLength (r : PacketRow) (p : Bits) : Nat := r.hdr + lengthField p r.hdr + (if r.crc then 2 else 0)

theorem airToHost_take (p : Bits) {n m : Nat} (h : n ≤ m) : airToHost (p.take m) n = airToHost p n := by
  rw [airToHost, List.take_take, Nat.min_eq_left h, airToHost]

theorem slice_take (p : Bits) {a n m : Nat} (h : a + n ≤ m) : slice (p.take m) a n = slice p a n := by
  rw [slice, List.drop_take, List.take_take, Nat.min_eq_left (by omega), slice]

/-- The length field lies in the header. -/
theorem lengthField_take (p : Bits) {hlen : Nat} (h : hlen = 1 ∨ hlen = 2) :
    lengthField (p.take (8 * hlen)) hlen = lengthField p hlen := by
  rcases h with rfl | rfl
  · exact congrArg (airToHost · 5) (slice_take p (by decide))
  · exact congrArg (airToHost · 10) (slice_take p (by decide))

theorem declaredLength_take {r : PacketRow} (hr : HeadedRow r) (p : Bits) : 
    declaredLength r (p.take (8 * r.hdr)) = declaredLength r p := by
  rw [declaredLength, lengthField_take p hr.hdr, declaredLength]

theorem hdr_le_declaredLength (r : PacketRow) (p : Bits) : r.hdr ≤ declaredLength r p := by
  unfold declaredLength
  omega

/-- The fields that are reported lie in the header too. -/
theorem headed_take (len : Nat) (p : Bits) {hlen : Nat} (h : hlen = 1 ∨ hlen = 2) :
    PayloadReport.headed len (p.take (8 * hlen)) hlen = .headed len p hlen := by
  rw [PayloadReport.headed, airToHost_take p (Nat.le_refl _), airToHost_take p (by omega), PayloadReport.headed]

/-- `PAYLOAD_INFO` as a number (rule R26). -/
theorem payloadInfoOf_eq (p : Bits) {hlen : Nat} (h : hlen = 1 ∨ hlen = 2) :
    payloadInfoOf p hlen = BitVec.ofNat 6 (airToHost p 3 + 16 * hlen) := by
  have fields : ∀ v, v < 8 → BitVec.ofNat 2 1 ++ 0#1 ++ BitVec.ofNat 3 v = BitVec.ofNat 6 (v + 16 * 1) ∧
      BitVec.ofNat 2 2 ++ 0#1 ++ BitVec.ofNat 3 v = BitVec.ofNat 6 (v + 16 * 2) := by decide
  obtain ⟨one, two⟩ := fields (airToHost p 3) (airToHost_lt p 3)
  rcases h with rfl | rfl
  · exact one
  · exact two

/-- What `SetPlHeader` and a payload length leave is the report of a headed payload. -/
theorem setPlHeader_payloadStart (s : State) (len : Nat) (p : Bits) {hlen : Nat} (h : hlen = 1 ∨ hlen = 2) :
    (s.payloadStart.setPlHeader p hlen).setPayloadLength len = s.reporting (.headed len p hlen) s.mem := by
  rw [State.reporting, PayloadReport.headed, ← payloadInfoOf_eq p h]
  rfl

/-! ## The handler -/

/-- The payload header of a row is there and reads as `p`. -/
structure HeaderReads (s : State) (base skip : Nat) (r : PacketRow) (p : Bits) : Prop where
  room : fecSymbols r.fec (8 * r.hdr) ≤ s.length - base
  read : s.fieldRead r.fec base skip (8 * r.hdr) = .ok p

/-- The handler after `SetPlHeader`, the header reading `p`. -/
def headedBody (base skip : Nat) (r : PacketRow) (p : Bits) : Handler := fun s =>
  let tot := declaredLength r p
  if r.maxBytes < tot then (s.setPayloadLength 0, .implausibleLength)
  else if s.length - base < fecSymbols r.fec (8 * tot) then (s, .shortBuffer)
  else
    match s.fieldRead r.fec base skip (8 * tot) with
    | .error o => (s, o)
    | .ok bits => ((s.writeBuf .pay 0 bits).setPayloadLength tot,
        if r.crc then crcOutcome bits tot s.ctx.uap else .unvalidated)

/-- The body that `PlDm` and `PlDh` share, in terms of what it reads. -/
theorem plHeaded_eq (base skip : Nat) (r : PacketRow) (s : State) : plHeaded base skip r s =
    if s.length - base < fecSymbols r.fec (8 * r.hdr) then (s, .shortBuffer)
    else
      match s.fieldRead r.fec base skip (8 * r.hdr) with
      | .error o => (s, o)
      | .ok p => headedBody base skip r p (s.setPlHeader p r.hdr) := by
  refine ite_congr rfl (fun _ => rfl) fun _ => ?_
  rw [State.fieldRead]
  cases undoFec r.fec (s.symbols base (fecSymbols r.fec (8 * r.hdr))) (8 * r.hdr) with
  | error o => rfl
  | ok t =>
    dsimp only [Except.map]
    generalize s.dewhitened t (8 * r.hdr) skip = p
    rw [headedBody, show r.hdr + bodyLength p r.hdr + (if r.crc = true then 2 else 0) = declaredLength r p from rfl]
    refine ite_congr rfl (fun _ => rfl) fun _ => ite_congr rfl (fun _ => rfl) fun _ => ?_
    rw [State.fieldRead]
    cases undoFec r.fec ((s.setPlHeader p r.hdr).symbols base _) _ <;> rfl

section
variable {s : State} {base skip : Nat} {r : PacketRow}

theorem plHeaded_short (h : s.length - base < fecSymbols r.fec (8 * r.hdr)) :
    plHeaded base skip r s = (s, .shortBuffer) := if_pos h

theorem plHeaded_unread {o : PayloadOutcome} (room : fecSymbols r.fec (8 * r.hdr) ≤ s.length - base)
    (failed : s.fieldRead r.fec base skip (8 * r.hdr) = .error o) : plHeaded base skip r s = (s, o) := by
  rw [plHeaded_eq, if_neg (Nat.not_lt.2 room), failed]

theorem plHeaded_headed {p : Bits} (header : HeaderReads s base skip r p) :
    plHeaded base skip r s = headedBody base skip r p (s.setPlHeader p r.hdr) := by
  rw [plHeaded_eq, if_neg (Nat.not_lt.2 header.room), header.read]

end

/-! ## Its payload stage -/

theorem crcOutcome_result (bits : Bits) (len : Nat) (uap : Byte) :
    (crcOutcome bits len uap).result = crcResult (crcOk bits len uap) := by
  unfold crcOutcome crcResult
  cases crcOk bits len uap <;> rfl

theorem crcOutcome_cause (bits : Bits) (len : Nat) (uap : Byte) :
    (crcOutcome bits len uap).cause = crcCause (crcOk bits len uap) := by
  unfold crcOutcome crcCause
  cases crcOk bits len uap <;> rfl

section
variable {s : State} {base skip : Nat} {r : PacketRow}

theorem payloadStage_headed_short (h : s.length - base < fecSymbols r.fec (8 * r.hdr)) :
    s.payloadStage (plHeaded base skip r) = s.payloadFailed .shortBuffer s.mem := by
  rw [payloadStage_failed (plHeaded_short (s := s.payloadStart) h) (.refl _) rfl (by decide)]
  rfl

theorem payloadStage_headed_unread {o : PayloadOutcome} (room : fecSymbols r.fec (8 * r.hdr) ≤ s.length - base)
    (failed : s.fieldRead r.fec base skip (8 * r.hdr) = .error o) :
    s.payloadStage (plHeaded base skip r) = s.payloadFailed o.cause s.mem := by
  obtain ⟨zero, known⟩ := fieldRead_error failed
  rw [payloadStage_failed (plHeaded_unread (s := s.payloadStart) room failed) (.refl _) zero known]
  rfl

section
variable {p : Bits} (header : HeaderReads s base skip r p)
include header

/-- The handler reads the same header where it starts. -/
theorem plHeaded_start : plHeaded base skip r s.payloadStart =
    headedBody base skip r p (s.payloadStart.setPlHeader p r.hdr) :=
  plHeaded_headed (s := s.payloadStart) ⟨header.room, header.read⟩

theorem payloadStage_headed_implausible (hr : HeadedRow r) (tooLong : r.maxBytes < declaredLength r p) :
    s.payloadStage (plHeaded base skip r) =
      s.payloadAccepted (.headed 0 p r.hdr) .one .implausibleLength s.mem := by
  have run : plHeaded base skip r s.payloadStart =
      (s.reporting (.headed 0 p r.hdr) s.mem, .implausibleLength) := by
    rw [plHeaded_start header, ← setPlHeader_payloadStart s 0 p hr.hdr]
    exact if_pos tooLong
  exact payloadStage_reported run (by decide) (show 0 < 512 by decide)

theorem payloadStage_headed_cut (fits : declaredLength r p ≤ r.maxBytes)
    (short : s.length - base < fecSymbols r.fec (8 * declaredLength r p)) :
    s.payloadStage (plHeaded base skip r) = s.payloadFailed .shortBuffer s.mem := by
  have body : headedBody base skip r p (s.payloadStart.setPlHeader p r.hdr) =
      (s.payloadStart.setPlHeader p r.hdr, .shortBuffer) := (if_neg (Nat.not_lt.2 fits)).trans (if_pos short)
  rw [payloadStage_failed ((plHeaded_start header).trans body) (.setPlHeader _ _ _) rfl (by decide)]
  rfl

theorem payloadStage_headed_bodyUnread {o : PayloadOutcome} (fits : declaredLength r p ≤ r.maxBytes)
    (room : fecSymbols r.fec (8 * declaredLength r p) ≤ s.length - base)
    (failed : s.fieldRead r.fec base skip (8 * declaredLength r p) = .error o) :
    s.payloadStage (plHeaded base skip r) = s.payloadFailed o.cause s.mem := by
  obtain ⟨zero, known⟩ := fieldRead_error failed
  have body : headedBody base skip r p (s.payloadStart.setPlHeader p r.hdr) =
      (s.payloadStart.setPlHeader p r.hdr, o) := by
    refine (if_neg (Nat.not_lt.2 fits)).trans ((if_neg (Nat.not_lt.2 room)).trans ?_)
    rw [show (s.payloadStart.setPlHeader p r.hdr).fieldRead r.fec base skip (8 * declaredLength r p) = _ from failed]
  rw [payloadStage_failed ((plHeaded_start header).trans body) (.setPlHeader _ _ _) zero known]
  rfl

end

section
variable (hr : HeadedRow r) {tot : Nat} {bits : Bits} (read : s.fieldRead r.fec base skip (8 * tot) = .ok bits)
  (declared : declaredLength r bits = tot) (fits : tot ≤ r.maxBytes)
  (room : fecSymbols r.fec (8 * tot) ≤ s.length - base)
include hr read declared fits room

/-- A field read to its end: its own first bytes are the payload header. -/
theorem plHeaded_start_read : plHeaded base skip r s.payloadStart =
    (s.reporting (.headed tot bits r.hdr) (s.payloadStart.writeBuf .pay 0 bits).mem,
      if r.crc then crcOutcome bits tot s.ctx.uap else .unvalidated) := by
  have inside : 8 * r.hdr ≤ 8 * tot := Nat.mul_le_mul_left 8 (declared ▸ hdr_le_declaredLength r bits)
  have header : HeaderReads s base skip r (bits.take (8 * r.hdr)) :=
    ⟨Nat.le_trans (fecSymbols_mono r.fec inside) room, fieldRead_take hr.fec inside read⟩
  have again : (s.payloadStart.setPlHeader (bits.take (8 * r.hdr)) r.hdr).fieldRead r.fec base skip (8 * tot) =
      .ok bits := read
  rw [plHeaded_start header, headedBody, declaredLength_take hr, declared]
  refine (if_neg (Nat.not_lt.2 fits)).trans ((if_neg (Nat.not_lt.2 room)).trans ?_)
  rw [again, ← headed_take tot bits hr.hdr, State.reporting, PayloadReport.headed, ← payloadInfoOf_eq _ hr.hdr]
  rfl

theorem payloadStage_headed_read : AcceptedWith s (s.payloadStage (plHeaded base skip r)) (.headed tot bits r.hdr)
    (if r.crc then crcResult (residueZero bits tot s.ctx.uap) else .one)
    (if r.crc then crcCause (residueZero bits tot s.ctx.uap) else .unvalidated) bits := by
  have run := plHeaded_start_read hr read declared fits room
  have size : bits.length = 8 * tot := fieldRead_length read
  have most := hr.maxBytes
  have accepted : ∀ o : PayloadOutcome, o.result ≠ .zero → plHeaded base skip r s.payloadStart = (_, o) →
      AcceptedWith s (s.payloadStage (plHeaded base skip r)) (.headed tot bits r.hdr) o.result o.cause bits :=
    fun o ho ran => payloadStage_accepted ran ho (show tot < 512 by omega) (by omega) rfl
  cases crc : r.crc with
  | false =>
    rw [crc] at run
    exact accepted .unvalidated (by decide) run
  | true =>
    rw [crc] at run
    have two : 2 ≤ tot := by
      rw [← declared, declaredLength, crc]
      exact Nat.le_add_left 2 _
    have nonzero : (crcOutcome bits tot s.ctx.uap).result ≠ .zero := by
      rw [crcOutcome_result]
      cases crcOk bits tot s.ctx.uap <;> decide
    have ends := accepted (crcOutcome bits tot s.ctx.uap) nonzero run
    rwa [crcOutcome_result, crcOutcome_cause, crcOk_eq_residueZero _ two (Nat.le_of_eq size.symm)] at ends

end

end

end Sys2Proof.Machine

/-! # The packets with a payload header: DM, DH, AUX1 and DV

DM and the data field of DV are the headed payload under the block code (`CheckedBlocks`), at different symbols and
whitening positions; DH and AUX1 are the uncoded one. DV writes `VOICE` first, which lies above every symbol its data
field reads (`blockRead_writeVoice`), so its stage is that of the data field from the state with the voice bits. -/

namespace Sys2Proof.Machine

/-! ## Headed payloads under the block code -/

/-- A row of a block-coded payload with a payload header and a CRC (rules R174, R182). -/
structure CheckedBlocks (r : PacketRow) : Prop where
  headed : HeadedRow r
  blocks : r.fec = .block ∨ r.fec = .voiceThenBlock
  crc : r.crc = true

theorem fecSymbols_blocks {f : Fec} (hf : f = .block ∨ f = .voiceThenBlock) (n : Nat) :
    fecSymbols f n = 15 * ceilDiv n 10 := by
  rcases hf with rfl | rfl
  · rfl
  · rfl

section
variable {r : PacketRow} (hr : CheckedBlocks r) {s : State} {base skip : Nat}
include hr

theorem declaredLength_checked (p : Bits) : declaredLength r p = r.hdr + lengthField p r.hdr + 2 := by
  rw [declaredLength, if_pos hr.crc]

theorem fieldRead_of_blockRead {n : Nat} {bits : Bits} (read : s.blockRead base skip n = some bits) :
    s.fieldRead r.fec base skip n = .ok bits := by
  rw [fieldRead_blocks s hr.blocks, read]
  rfl

theorem fieldRead_of_blockRead_none {n : Nat} (failed : s.blockRead base skip n = none) :
    s.fieldRead r.fec base skip n = .error .fecUncorrectable := by
  rw [fieldRead_blocks s hr.blocks, failed]
  rfl

theorem headerReads_of_blockRead {p : Bits} (room : 15 * ceilDiv (8 * r.hdr) 10 ≤ s.length - base)
    (read : s.blockRead base skip (8 * r.hdr) = some p) : HeaderReads s base skip r p :=
  ⟨fecSymbols_blocks hr.blocks _ ▸ room, fieldRead_of_blockRead hr read⟩

theorem payloadStage_blocks_short (h : s.length - base < 15 * ceilDiv (8 * r.hdr) 10) :
    s.payloadStage (plHeaded base skip r) = s.payloadFailed .shortBuffer s.mem :=
  payloadStage_headed_short (fecSymbols_blocks hr.blocks _ ▸ h)

theorem payloadStage_blocks_unread (room : 15 * ceilDiv (8 * r.hdr) 10 ≤ s.length - base)
    (failed : s.blockRead base skip (8 * r.hdr) = none) :
    s.payloadStage (plHeaded base skip r) = s.payloadFailed .fecUncorrectable s.mem :=
  payloadStage_headed_unread (fecSymbols_blocks hr.blocks _ ▸ room) (fieldRead_of_blockRead_none hr failed)

theorem payloadStage_blocks_read {tot : Nat} {bits : Bits} (read : s.blockRead base skip (8 * tot) = some bits)
    (declared : r.hdr + lengthField bits r.hdr + 2 = tot) (fits : tot ≤ r.maxBytes)
    (room : 15 * ceilDiv (8 * tot) 10 ≤ s.length - base) :
    AcceptedWith s (s.payloadStage (plHeaded base skip r)) (.headed tot bits r.hdr)
      (crcResult (residueZero bits tot s.ctx.uap)) (crcCause (residueZero bits tot s.ctx.uap)) bits := by
  have accepted := payloadStage_headed_read hr.headed (fieldRead_of_blockRead hr read)
    ((declaredLength_checked hr bits).trans declared) fits (fecSymbols_blocks hr.blocks _ ▸ room)
  rwa [if_pos hr.crc, if_pos hr.crc] at accepted

section
variable {p : Bits} (room : 15 * ceilDiv (8 * r.hdr) 10 ≤ s.length - base)
  (read : s.blockRead base skip (8 * r.hdr) = some p)
include room read

theorem payloadStage_blocks_implausible (tooLong : r.maxBytes < r.hdr + lengthField p r.hdr + 2) :
    s.payloadStage (plHeaded base skip r) =
      s.payloadAccepted (.headed 0 p r.hdr) .one .implausibleLength s.mem :=
  payloadStage_headed_implausible (headerReads_of_blockRead hr room read) hr.headed
    (declaredLength_checked hr p ▸ tooLong)

theorem payloadStage_blocks_cut (fits : r.hdr + lengthField p r.hdr + 2 ≤ r.maxBytes)
    (short : s.length - base < 15 * ceilDiv (8 * (r.hdr + lengthField p r.hdr + 2)) 10) :
    s.payloadStage (plHeaded base skip r) = s.payloadFailed .shortBuffer s.mem := by
  rw [← declaredLength_checked hr] at fits short
  exact payloadStage_headed_cut (headerReads_of_blockRead hr room read) fits
    (fecSymbols_blocks hr.blocks _ ▸ short)

theorem payloadStage_blocks_bodyUnread (fits : r.hdr + lengthField p r.hdr + 2 ≤ r.maxBytes)
    (whole : 15 * ceilDiv (8 * (r.hdr + lengthField p r.hdr + 2)) 10 ≤ s.length - base)
    (failed : s.blockRead base skip (8 * (r.hdr + lengthField p r.hdr + 2)) = none) :
    s.payloadStage (plHeaded base skip r) = s.payloadFailed .fecUncorrectable s.mem := by
  rw [← declaredLength_checked hr] at fits whole failed
  exact payloadStage_headed_bodyUnread (headerReads_of_blockRead hr room read) fits
    (fecSymbols_blocks hr.blocks _ ▸ whole) (fieldRead_of_blockRead_none hr failed)

end

end

/-! ## DM1, DM3 and DM5 -/

/-- Each of the three is the checked block-coded payload of a packet type, with the numbers of its row (rule R72). -/
theorem dm_row (f : HeaderFields) : ∀ r ∈ [(Instr.pktDm1 f, 1, 20), (.pktDm3 f, 2, 125), (.pktDm5 f, 2, 228)],
    ∃ p, r = (packetInstr p f, (row p).hdr, (row p).maxBytes) ∧ handlerOf p = plHeaded 126 18 (row p) ∧
      CheckedBlocks (row p) := by
  have sound : ∀ p ∈ [PacketType.dm1, .dm3, .dm5], CheckedBlocks (row p) := fun p hp =>
    have numbers : ∀ p ∈ [PacketType.dm1, .dm3, .dm5], ((row p).hdr = 1 ∨ (row p).hdr = 2) ∧
      (row p).fec = .block ∧ (row p).crc = true ∧ (row p).maxBytes ≤ 343 := by decide
    have ⟨hdr, fec, crc, maxBytes⟩ := numbers p hp
    ⟨⟨hdr, by rw [fec]; decide, maxBytes⟩, .inl fec, crc⟩
  intro r hr
  simp only [List.mem_cons, List.not_mem_nil, or_false] at hr
  rcases hr with rfl | rfl | rfl
  · exact ⟨.dm1, rfl, rfl, sound _ (by decide)⟩
  · exact ⟨.dm3, rfl, rfl, sound _ (by decide)⟩
  · exact ⟨.dm5, rfl, rfl, sound _ (by decide)⟩

/-- Settles O52: the clauses are the ends of the checked block-coded payload at symbol 126. -/
theorem dmPackets : Obligations.DmPackets := by
  intro s f hp r hr
  obtain ⟨p, rfl, handler, sound⟩ := dm_row f r hr
  have run := exec_packetInstr_pending p f hp
  rw [handler] at run
  dsimp only
  rw [run]
  refine ⟨fun tot bits read declared fits room => ⟨_, rfl, payloadStage_blocks_read sound read declared fits room⟩,
    fun p read room => ⟨fun tooLong => ?_, fun fits short => ?_, fun fits whole failed => ?_⟩,
    fun room failed => ?_, fun short => ?_⟩
  · rw [payloadStage_blocks_implausible sound room read tooLong]
  · rw [payloadStage_blocks_cut sound room read fits short]
  · rw [payloadStage_blocks_bodyUnread sound room read fits whole failed]
  · rw [payloadStage_blocks_unread sound room failed]
  · rw [payloadStage_blocks_short sound short]

/-! ## DH1, DH3, DH5 and AUX1 -/

/-- Each of the four is the uncoded headed payload of a packet type, with the numbers of its row (rules R72, R183). -/
theorem dh_row (f : HeaderFields) : ∀ r ∈ [(Instr.pktDh1 f, 1, 30, true), (.pktDh3 f, 2, 187, true),
      (.pktDh5 f, 2, 343, true), (.pktAux1 f, 1, 30, false)],
    ∃ p, r = (packetInstr p f, (row p).hdr, (row p).maxBytes, (row p).crc) ∧
      handlerOf p = plHeaded 126 18 (row p) ∧ (row p).fec = .none ∧ HeadedRow (row p) := by
  have sound : ∀ p ∈ [PacketType.dh1, .dh3, .dh5, .aux1], (row p).fec = .none ∧ HeadedRow (row p) := fun p hp =>
    have numbers : ∀ p ∈ [PacketType.dh1, .dh3, .dh5, .aux1], ((row p).hdr = 1 ∨ (row p).hdr = 2) ∧
      (row p).fec = .none ∧ (row p).maxBytes ≤ 343 := by decide
    have ⟨hdr, fec, maxBytes⟩ := numbers p hp
    ⟨fec, hdr, by rw [fec]; decide, maxBytes⟩
  intro r hr
  simp only [List.mem_cons, List.not_mem_nil, or_false] at hr
  rcases hr with rfl | rfl | rfl | rfl
  · exact ⟨.dh1, rfl, rfl, sound _ (by decide)⟩
  · exact ⟨.dh3, rfl, rfl, sound _ (by decide)⟩
  · exact ⟨.dh5, rfl, rfl, sound _ (by decide)⟩
  · exact ⟨.aux1, rfl, rfl, sound _ (by decide)⟩

/-- Settles O53: the clauses are the ends of the uncoded headed payload. -/
theorem dhAndAux1Packets : Obligations.DhAndAux1Packets := by
  intro s f hp r hr
  obtain ⟨p, rfl, handler, uncoded, sound⟩ := dh_row f r hr
  have run := exec_packetInstr_pending p f hp
  rw [handler] at run
  have symbols : ∀ n, fecSymbols (row p).fec n = n := fun n => by rw [uncoded, fecSymbols]
  have reads : ∀ n, s.fieldRead (row p).fec 126 18 n = .ok (s.plainRead 126 18 n) := fun n => by
    rw [uncoded, fieldRead_none]
  have header : 8 * (row p).hdr ≤ s.length - 126 →
      HeaderReads s 126 18 (row p) (s.plainRead 126 18 (8 * (row p).hdr)) := fun room =>
    ⟨by rw [symbols]; exact room, reads _⟩
  have declared : ∀ tot, (row p).hdr ≤ tot → declaredLength (row p) (s.plainRead 126 18 (8 * tot)) =
      declaredLength (row p) (s.plainRead 126 18 (8 * (row p).hdr)) := fun tot h => by
    rw [← declaredLength_take sound, plainRead_take s 126 18 (Nat.mul_le_mul_left 8 h)]
  dsimp only
  rw [run]
  refine ⟨fun _ fits whole => ⟨_, rfl, ?_⟩, fun room tooLong => ?_, fun room fits short => ?_, fun short => ?_⟩
  · exact payloadStage_headed_read sound (reads _) (declared _ (hdr_le_declaredLength _ _)) fits
      (by rw [symbols]; exact whole)
  · rw [payloadStage_headed_implausible (header room) sound tooLong]
  · rw [payloadStage_headed_cut (header room) fits (by rw [symbols]; exact short)]
  · rw [payloadStage_headed_short (by rw [symbols]; exact short)]

/-! ## DV -/

/-- A write above the symbols does not change how they read. -/
theorem symbols_writeBuf (s : State) {r : Region} (off : Nat) (bits : Bits) {base n : Nat} (hr : 0x2000 ≤ r.base)
    (h : base + n ≤ 4096) : (s.writeBuf r off bits).symbols base n = s.symbols base n := by
  have start : s.pktBase < 4096 := s.range.base.isLt
  refine List.map_congr_left fun i hi => get_writeBuf_outside s r off bits _ (.inl ?_)
  have below : i < n := List.mem_range.1 hi
  show 0 + (s.pktBase + base) + i < r.base + off
  omega

/-- `s` with the voice bits of a DV packet in `VOICE` (rule R182). -/
def State.voiced (s : State) : State := s.writeBuf .voice 0 (s.plainRead 126 18 80)

theorem blockRead_voiced (s : State) {base skip n : Nat} (h : base + 15 * ceilDiv n 10 ≤ 4096) :
    s.voiced.blockRead base skip n = s.blockRead base skip n := by
  rw [State.blockRead, State.voiced, symbols_writeBuf s 0 _ (by decide) h]
  rfl

theorem checkedBlocks_dv : CheckedBlocks (row .dv) := ⟨⟨.inl rfl, by decide, by decide⟩, .inr rfl, rfl⟩

theorem plDv_short {s : State} (r : PacketRow) (h : s.length - 126 < 80) : plDv r s = (s, .shortBuffer) := if_pos h

theorem plDv_voiced {s : State} (r : PacketRow) (h : ¬ s.length - 126 < 80) :
    plDv r s = plHeaded 206 98 r s.voiced := if_neg h

theorem handleDv_eq : handleDv = plDv (row .dv) := rfl

/-- With the voice symbols there, the stage is that of the data field once the voice bits are written. -/
theorem payloadStage_dv {s : State} (h : 206 ≤ s.length) :
    s.payloadStage handleDv = s.voiced.payloadStage (plHeaded 206 98 (row .dv)) := by
  have run := plDv_voiced (s := s.payloadStart) (row .dv) (show ¬ s.length - 126 < 80 by omega)
  rw [handleDv_eq, payloadStage_eq, run]
  rfl

theorem payloadStage_dv_short {s : State} (h : s.length < 206) :
    s.payloadStage handleDv = s.payloadFailed .shortBuffer s.mem := by
  have run := plDv_short (s := s.payloadStart) (row .dv) (show s.length - 126 < 80 by omega)
  rw [handleDv_eq, payloadStage_failed run (.refl _) rfl (by decide)]
  rfl

/-- A data field that wrote at most `n` bits of `PAY` leaves the voice bits where they are, and the rest as it was before
them. -/
theorem SameCellsOutside.voiced {s t : State} {n : Nat} (h : SameCellsOutside 0x2000 n s.voiced t) (hn : n ≤ 0x1200) :
    HoldsBits t 0x3200 (s.plainRead 126 18 80) ∧
      ∀ a, (a < 0x2000 ∨ 0x2000 + n ≤ a) → (a < 0x3200 ∨ 0x3250 ≤ a) → t.mem.get a = s.mem.get a := by
  have size : (s.plainRead 126 18 80).length = 80 := plainRead_length s 126 18 80
  refine ⟨fun k hk => ?_, fun a pay voice => (h a pay).trans ?_⟩
  · rw [h _ (.inr (by omega)), List.getD_eq_getElem?_getD, List.getElem?_eq_getElem hk, Option.getD_some]
    exact get_writeBuf_inside s .voice 0 _ k hk (show 0 + k < 80 by omega)
  · exact get_writeBuf_outside s .voice 0 _ a (show a < 0x3200 + 0 ∨ 0x3200 + 0 + _ ≤ a by omega)

/-- Settles O57: the clauses are the ends of the checked block-coded payload at symbol 206, from the state with the voice
bits. -/
theorem dvPacket : Obligations.DvPacket := by
  intro s f hp
  have run : exec (.pktDv f) s = .next (s.payloadStage handleDv) := exec_packetInstr_pending .dv f hp
  have untouched : ∀ t : State, t.mem = s.voiced.mem → HoldsBits t 0x3200 (s.plainRead 126 18 80) ∧
      ∀ a, (a < 0x2000 ∨ 0x2000 + 0 ≤ a) → (a < 0x3200 ∨ 0x3250 ≤ a) → t.mem.get a = s.mem.get a := fun t ht =>
    SameCellsOutside.voiced (fun a _ => by rw [ht]) (by decide)
  have reads : ∀ tot, tot ≤ 12 → s.voiced.blockRead 206 98 (8 * tot) = s.blockRead 206 98 (8 * tot) := fun tot h =>
    blockRead_voiced s (by unfold ceilDiv; omega)
  have header := reads 1 (by decide)
  have length : ∀ p : Bits, (row .dv).hdr + lengthField p (row .dv).hdr + 2 = lengthField p 1 + 3 := fun p => by
    show 1 + lengthField p 1 + 2 = _
    omega
  dsimp only
  rw [run]
  refine ⟨fun tot bits voice read declared fits room => ⟨_, rfl, ?_⟩, fun p voice read room =>
    ⟨fun tooLong => ⟨_, rfl, ?_⟩, fun fits short => ⟨_, rfl, ?_⟩, fun fits whole failed => ⟨_, rfl, ?_⟩⟩,
    fun voice room failed => ⟨_, rfl, ?_⟩, fun voice short => ⟨_, rfl, ?_⟩, fun short => ?_⟩
  · rw [payloadStage_dv voice]
    obtain ⟨registers, written, outside⟩ := payloadStage_blocks_read checkedBlocks_dv ((reads tot fits).trans read)
      ((length bits).trans declared) fits room
    rw [blockRead_length read] at outside
    obtain ⟨kept, only⟩ := outside.voiced (by omega)
    exact ⟨registers, kept, written, only⟩
  · rw [payloadStage_dv voice, payloadStage_blocks_implausible (s := s.voiced) checkedBlocks_dv room
      (header.trans read) (length p ▸ tooLong)]
    exact ⟨rfl, untouched _ rfl⟩
  · rw [payloadStage_dv voice, payloadStage_blocks_cut (s := s.voiced) checkedBlocks_dv room (header.trans read)
      (length p ▸ fits) (length p ▸ short)]
    exact ⟨rfl, untouched _ rfl⟩
  · rw [payloadStage_dv voice, payloadStage_blocks_bodyUnread (s := s.voiced) checkedBlocks_dv room
      (header.trans read) (length p ▸ fits) (length p ▸ whole) (length p ▸ (reads _ fits).trans failed)]
    exact ⟨rfl, untouched _ rfl⟩
  · rw [payloadStage_dv voice, payloadStage_blocks_unread (s := s.voiced) checkedBlocks_dv room
      (header.trans failed)]
    exact ⟨rfl, untouched _ rfl⟩
  · rw [payloadStage_dv voice, payloadStage_blocks_short (s := s.voiced) checkedBlocks_dv short]
    exact ⟨rfl, untouched _ rfl⟩
  · rw [payloadStage_dv_short short]

end Sys2Proof.Machine

/-! # EV4: the length found block after block

The loop of rule R179 has, after `b` blocks that decoded and no length that validated, the reading of those blocks and the
lengths it covers behind it (`ev4From_blocks`). The three ways it ends are then one step from there: a length that
validates in the next block, a block that does not decode, and no block left. -/

namespace Sys2Proof.Machine

/-! ## Lengths that validate -/

theorem residueZero_take (bits : Bits) {n len : Nat} (uap : Byte) (h : 8 * len ≤ n) :
    residueZero (bits.take n) len uap = residueZero bits len uap := by
  rw [residueZero, crcGen, List.take_take, Nat.min_eq_left h, residueZero, crcGen]

section
variable {bits : Bits} {lo hi : Nat} {uap : Byte} (h2 : 2 ≤ lo) (inside : 8 * hi ≤ bits.length)
include h2 inside

theorem discover_eq_none (invalid : ∀ l, lo ≤ l → l ≤ hi → residueZero bits l uap = false) :
    discover bits lo hi uap = none := by
  rw [discover, List.find?_range'_eq_none]
  intro l hlo hhi
  rw [crcOk_eq_residueZero uap (by omega) (by omega), invalid l hlo (by omega)]
  rfl

theorem discover_eq_some {len : Nat} (hlo : lo ≤ len) (hhi : len ≤ hi) (valid : residueZero bits len uap = true)
    (least : ∀ l, lo ≤ l → l < len → residueZero bits l uap = false) : discover bits lo hi uap = some len := by
  rw [discover, List.find?_range'_eq_some]
  refine ⟨?_, by rw [List.mem_range'_1]; omega, fun l hl hlt => ?_⟩
  · rwa [crcOk_eq_residueZero uap (by omega) (by omega)]
  · rw [crcOk_eq_residueZero uap (by omega) (by omega), least l hl hlt]
    rfl

end

/-! ## The loop -/

theorem unfec23_one_block (c : Bits) :
    unfec23 (c.take 15) 10 = (unfec23Block (c.take 15)).map fun d => (d.1, d.2.toNat) := by
  rw [unfec23, ceilDiv_ten_mul 1, unfec23Blocks_add_one, blockAt_take (k := 0) c (Nat.le_refl 15)]
  show (unfec23Block (c.take 15)).map (fun b => ([] ++ b.1, 0 + b.2.toNat)) = _
  simp only [List.nil_append, Nat.zero_add]

/-- The loop of rule R179 with `k` blocks to go after the first `b`. -/
def State.ev4From (s : State) (k b lc : Nat) (done : Bits) : Bits × Nat × PayloadOutcome :=
  ev4Loop 122 s.clock6 s.ctx.whitened s.ctx.uap k b lc (s.symbols (126 + 15 * b) (15 * k)) done

/-- The largest length examined after `b` blocks. -/
def ev4Examined (b : Nat) : Nat := max 2 (min (10 * b / 8) 122)

theorem ev4Examined_add_one (b : Nat) : max (ev4Examined b) (min (10 * (b + 1) / 8) 122) = ev4Examined (b + 1) := by
  unfold ev4Examined
  omega

section
variable {s : State} {k b lc : Nat}

theorem ev4From_zero (done : Bits) : s.ev4From 0 b lc done = (done, 10 * b / 8, .crcMismatched) := rfl

theorem ev4From_stop (done : Bits) (failed : unfec23Block (s.symbols (126 + 15 * b) 15) = none) :
    s.ev4From (k + 1) b lc done =
      if b < 3 then (done, 0, .fecUncorrectable) else (done, 10 * b / 8, .crcMismatched) := by
  rw [State.ev4From, ev4Loop, unfec23_one_block, symbols_take s _ (by omega), failed]
  rfl

/-- A block that decodes goes to the bits so far, and the lengths it completes are tried. -/
theorem ev4From_block {done bits : Bits} (read : s.blockRead 126 18 (10 * b) = some done)
    (next : s.blockRead 126 18 (10 * (b + 1)) = some bits) : s.ev4From (k + 1) b lc done =
      (discover bits (lc + 1) (min (10 * (b + 1) / 8) 122) s.ctx.uap).elim
        (s.ev4From k (b + 1) (max lc (min (10 * (b + 1) / 8) 122)) bits) fun len => (bits, len, .crcMatched) := by
  rw [blockRead_add_block, read, Option.bind_some] at next
  obtain ⟨u, decoded, rfl⟩ := Option.map_eq_some_iff.1 next
  have rest : (s.symbols (126 + 15 * b) (15 * (k + 1))).drop 15 = s.symbols (126 + 15 * (b + 1)) (15 * k) := by
    rw [State.symbols, readBuf_drop]
    rfl
  rw [State.ev4From, ev4Loop, unfec23_one_block, symbols_take s _ (by omega), decoded, rest]
  dsimp only [Option.map_some]
  rw [show dewhiten u.1 s.clock6 10 (payloadSkip + 10 * b) s.ctx.whitened = s.dewhitened u.1 10 (18 + 10 * b) from rfl]
  generalize done ++ s.dewhitened u.1 10 (18 + 10 * b) = bits
  cases discover bits (lc + 1) (min (10 * (b + 1) / 8) 122) s.ctx.uap <;> rfl

end

/-- The first `b` blocks, where they decode and complete no length that validates. -/
theorem ev4From_blocks {s : State} {b : Nat} (k : Nat) {bits : Bits} (read : s.blockRead 126 18 (10 * b) = some bits)
    (invalid : ∀ l, 3 ≤ l → l ≤ 10 * b / 8 → residueZero bits l s.ctx.uap = false) :
    s.ev4From (b + k) 0 2 [] = s.ev4From k b (ev4Examined b) bits := by
  induction b generalizing k bits with
  | zero =>
    have empty : bits = [] := List.eq_nil_of_length_eq_zero (blockRead_length read)
    rw [empty, Nat.zero_add]
    rfl
  | succ b ih =>
    have size : bits.length = 10 * (b + 1) := blockRead_length read
    have before := blockRead_blocks_take (b := b) (j := 1) read
    have found : discover bits (ev4Examined b + 1) (min (10 * (b + 1) / 8) 122) s.ctx.uap = none :=
      discover_eq_none (by unfold ev4Examined; omega) (by omega) fun l hlo hhi =>
        invalid l (by unfold ev4Examined at hlo; omega) (by omega)
    rw [Nat.add_assoc, Nat.add_comm 1 k, ih (k + 1) before fun l h3 hl => ?_, ev4From_block before read, found,
      Option.elim_none, ev4Examined_add_one]
    rw [residueZero_take bits _ (by omega)]
    exact invalid l h3 (by omega)

/-- The least length that validates is found in the block that completes it. -/
theorem ev4From_found {s : State} {n len : Nat} {bits : Bits} (h3 : 3 ≤ len) (most : len ≤ 122)
    (there : ceilDiv (8 * len) 10 ≤ n) (read : s.blockRead 126 18 (10 * ceilDiv (8 * len) 10) = some bits)
    (valid : residueZero bits len s.ctx.uap = true)
    (least : ∀ l, 3 ≤ l → l < len → residueZero bits l s.ctx.uap = false) :
    s.ev4From n 0 2 [] = (bits, len, .crcMatched) := by
  obtain ⟨b, last, before, after⟩ : ∃ b, ceilDiv (8 * len) 10 = b + 1 ∧ 10 * b < 8 * len ∧ 8 * len ≤ 10 * (b + 1) :=
    ⟨ceilDiv (8 * len) 10 - 1, by unfold ceilDiv; omega⟩
  rw [last] at read there
  have size : bits.length = 10 * (b + 1) := blockRead_length read
  have head := blockRead_blocks_take (b := b) (j := 1) read
  obtain ⟨k, rfl⟩ : ∃ k, n = b + (k + 1) := ⟨n - (b + 1), by omega⟩
  have found : discover bits (ev4Examined b + 1) (min (10 * (b + 1) / 8) 122) s.ctx.uap = some len :=
    discover_eq_some (by unfold ev4Examined; omega) (by omega) (by unfold ev4Examined; omega) (by omega) valid
      fun l hlo hlt => least l (by unfold ev4Examined at hlo; omega) hlt
  rw [ev4From_blocks (k + 1) head fun l hl hlt => ?_, ev4From_block head read, found, Option.elim_some]
  rw [residueZero_take bits _ (by omega)]
  exact least l hl (by omega)

/-- No block left after `b` of them, or one that does not decode. -/
theorem ev4From_ended {s : State} {n b : Nat} {bits : Bits} (hb : b ≤ n)
    (read : s.blockRead 126 18 (10 * b) = some bits)
    (ended : b = n ∨ unfec23Block (s.symbols (126 + 15 * b) 15) = none)
    (invalid : ∀ l, 3 ≤ l → l ≤ 10 * b / 8 → residueZero bits l s.ctx.uap = false) :
    s.ev4From n 0 2 [] =
      if b = n ∨ 3 ≤ b then (bits, 10 * b / 8, .crcMismatched) else (bits, 0, .fecUncorrectable) := by
  obtain ⟨k, rfl⟩ : ∃ k, n = b + k := ⟨n - b, by omega⟩
  rw [ev4From_blocks k read invalid]
  cases k with
  | zero => rw [ev4From_zero, if_pos (.inl rfl)]
  | succ k =>
    have failed := ended.resolve_left (by omega)
    rw [ev4From_stop bits failed]
    by_cases early : b < 3
    · rw [if_pos early, if_neg (by omega)]
    · rw [if_neg early, if_pos (.inr (by omega))]

/-! ## The packet -/

/-- The blocks of payload that the search can read (rule R179). -/
def State.ev4Blocks (s : State) : Nat := min 98 ((s.length - 126) / 15)

/-- What the handler writes and reports where the loop ends with `r`. -/
def State.ev4Written (s : State) (r : Bits × Nat × PayloadOutcome) : State × PayloadOutcome :=
  ((s.writeBuf .pay 0 r.1).setPayloadLength r.2.1, r.2.2)

theorem handleEv4_eq (s : State) : handleEv4 s =
    if s.ev4Blocks < 3 then (s, .shortBuffer) else s.ev4Written (s.ev4From s.ev4Blocks 0 2 []) := rfl

section
variable {s : State} {bits : Bits} {len : Nat} {o : PayloadOutcome} (h : 3 ≤ s.ev4Blocks)
  (loop : s.ev4From s.ev4Blocks 0 2 [] = (bits, len, o))
include h loop

/-- The handler starts where the loop reads the same. -/
theorem handleEv4_start : handleEv4 s.payloadStart = s.payloadStart.ev4Written (bits, len, o) := by
  rw [handleEv4_eq]
  exact (if_neg (Nat.not_lt.2 h)).trans (congrArg _ loop)

theorem payloadStage_ev4_accepted (fits : bits.length ≤ 980) (hr : o.result ≠ .zero) (most : len ≤ 122) :
    AcceptedWith s (s.payloadStage handleEv4) (.plain len) o.result o.cause bits :=
  payloadStage_accepted (p := .plain len) (handleEv4_start h loop) hr (show len < 512 by omega) (by omega) rfl

theorem payloadStage_ev4_failed (fits : bits.length ≤ 980) (hz : o.result = .zero) (hn : o ≠ .noHandler) :
    FailedWith s (s.payloadStage handleEv4) o.cause bits := by
  rw [payloadStage_failed (handleEv4_start h loop) ((PayloadFrame.writePay _ _).trans (.setPayloadLength _ _)) hz hn]
  exact ⟨rfl, holdsBits_writePay s.payloadStart (by omega), get_writeBuf_outside s.payloadStart .pay 0 _⟩

end

/-- Settles O58: a length found, the search ended, a failure in the first three blocks, and too few blocks. -/
theorem ev4Packet : Obligations.Ev4Packet := by
  intro s f hp
  have run : exec (.pktEv4 f) s = .next (s.payloadStage handleEv4) := exec_packetInstr_pending .ev4 f hp
  have most : s.ev4Blocks ≤ 98 := Nat.min_le_left _ _
  dsimp only
  rw [run]
  refine ⟨fun len bits h3 hlen there read valid least => ⟨_, rfl, ?_⟩,
    fun b bits h3 hb read ended invalid => ⟨_, rfl, ?_⟩, fun b bits h3 early read failed => ⟨_, rfl, ?_⟩,
    fun short => ?_⟩
  · have blocks : ceilDiv (8 * len) 10 ≤ s.ev4Blocks := there
    have enough : 3 ≤ ceilDiv (8 * len) 10 := by unfold ceilDiv; omega
    have size := blockRead_length read
    exact payloadStage_ev4_accepted (o := .crcMatched) (Nat.le_trans enough blocks)
      (ev4From_found h3 hlen blocks read valid least) (by omega) (by decide) hlen
  · have blocks : b ≤ s.ev4Blocks := hb
    have size := blockRead_length read
    have loop := ev4From_ended blocks read ended invalid
    rw [if_pos (.inr h3)] at loop
    exact payloadStage_ev4_accepted (Nat.le_trans h3 blocks) loop (by omega) (by decide) (by omega)
  · have enough : 3 ≤ s.ev4Blocks := h3
    have size := blockRead_length read
    have loop := ev4From_ended (n := s.ev4Blocks) (by omega) read (.inr failed) (fun l hl hhi => by omega)
    rw [if_neg (by omega)] at loop
    exact payloadStage_ev4_failed enough loop (by omega) rfl (by decide)
  · have stop : handleEv4 s.payloadStart = (s.payloadStart, .shortBuffer) := (handleEv4_eq _).trans (if_pos short)
    rw [payloadStage_failed stop (.refl _) rfl (by decide)]
    rfl

end Sys2Proof.Machine

/-! # The packet context

The control commands by the state they end in; `DECODE` as its two stages, each with the facts already said of it
(`headerStage_created`, `payloadStage_end`); and the transitions of `STATE`, read off the effects an instruction can
have. -/

namespace Sys2Proof.Machine

section
variable {s t : State} {i : Instr}

/-! ## The control commands -/

theorem exec_nop (hf : s.phase ≠ .fault) : exec .nop s = .next { s with res := ⟨0, 0, .ok⟩ } := by
  rw [exec, execNop, command_run _ hf]
  rfl

theorem exec_restart (hf : s.phase ≠ .fault) (hp : s.phase ≠ .idle) :
    exec .restart s = .next { s with phase := .created, prog := Progress.cleared, res := ⟨0, 0, .ok⟩ } := by
  rw [exec, execRestart, command_run _ hf, if_neg hp]
  rfl

theorem exec_restart_idle (hp : s.phase = .idle) : exec .restart s = .next (s.raise .badState) := by
  rw [exec, execRestart, command_run _ (by rw [hp]; decide), if_pos hp]

theorem exec_create (hf : s.phase ≠ .fault) (ho : s.ops.a0.toNat ≤ s.wlen) : exec .create s = .next { s with
    range := ⟨BitVec.ofNat 12 s.ops.a0.toNat, BitVec.ofNat 12 (s.wlen - s.ops.a0.toNat)⟩
    prog := Progress.cleared
    phase := .created
    res := ⟨BitVec.ofNat 32 (s.wlen - s.ops.a0.toNat), 0, .ok⟩ } := by
  rw [exec, execCreate, command_run _ hf]
  exact congrArg _ (if_neg (Nat.not_lt.2 ho))

theorem exec_create_refused (hf : s.phase ≠ .fault) (ho : s.wlen < s.ops.a0.toNat) :
    exec .create s = .next (s.raise .badOperand) := by
  rw [exec, execCreate, command_run _ hf]
  exact congrArg _ (if_pos ho)

/-- `WLEN`, and so every offset in the window, has a place in the 12 bits of `PKT_BASE` and `LENGTH` (rules R16,
R17). -/
theorem toNat_ofNat_of_le_wlen {n : Nat} (hn : n ≤ s.wlen) : (BitVec.ofNat 12 n).toNat = n := by
  rw [BitVec.toNat_ofNat]
  exact Nat.mod_eq_of_lt (Nat.lt_of_le_of_lt hn s.port.wlen.isLt)

end

/-- Settles O26. -/
theorem nopAndRestart : Obligations.NopAndRestart := fun _ hf =>
  ⟨exec_nop hf, exec_restart hf, exec_restart_idle⟩

/-- Settles O27. -/
theorem clrCtxRestoresContext : Obligations.ClrCtxRestoresContext := by
  intro s hf
  rw [exec, execClrCtx, command_run _ hf]
  rfl

/-- Settles O28: an offset in the window and the rest of the window fit the registers that take them. -/
theorem createNamesPacket : Obligations.CreateNamesPacket := by
  refine fun s hf => ⟨fun ho => ⟨_, exec_create hf ho, ?_, ?_, ?_⟩, exec_create_refused hf⟩
  · exact toNat_ofNat_of_le_wlen ho
  · exact toNat_ofNat_of_le_wlen (Nat.sub_le _ _)
  · rw [State.length, toNat_ofNat_of_le_wlen (Nat.sub_le _ _)]

/-- Settles O30. -/
theorem setChannelKeepsDecode : Obligations.SetChannelKeepsDecode := by
  intro s hf
  rw [← byteOperand_eq, exec, execSetChannel, command_run _ hf]
  rfl

/-! ## `DECODE` -/

section
variable {s : State}

theorem exec_decodeHeader_headerStage (hp : s.phase = .created) (hu : s.ctx.haveUap = true) :
    exec .decodeHeader s = .next s.headerStage := by
  rw [exec_decodeHeader hp hu, headerStage_eq hp]

/-- The header stage of a created packet leaves it in `Created` or its header decoded (rule R150). -/
theorem headerStage_phase (hp : s.phase = .created) (hu : s.ctx.haveUap = true) :
    s.headerStage.phase = .created ∨ s.headerStage.phase = .headerDecoded := by
  rcases headerStage_created hp hu with ⟨r, rejected⟩ | ⟨h, accepted⟩
  · rw [rejected]
    exact .inl hp
  · rw [accepted.registers]
    exact .inr rfl

/-- No type's handler is missing, so a payload stage never enters `Fault`. -/
theorem payloadStage_phase_ne_fault (p : PacketType) (s : State) : (s.payloadStage (handlerOf p)).phase ≠ .fault := by
  rcases (payloadStage_end p s).verdict with ⟨phase, -⟩ | ⟨phase, -⟩ <;> simp [phase]

/-- `DECODE` where it is allowed: the header stage, and what then follows (rule R222). -/
theorem exec_decode (hp : s.phase = .created) (hu : s.ctx.haveUap = true) : exec .decode s = .next
    (if s.headerStage.phase ≠ .headerDecoded then s.headerStage.endDecodeNoHeader
      else (s.headerStage.payloadStage (handlerOf (packetTypeOf s.headerStage.prog.packetType))).endDecode) := by
  rw [exec, execDecode, command_run _ (by rw [hp]; decide), if_neg (not_not_intro hp), hu]
  rfl

theorem exec_decode_badState (hf : s.phase ≠ .fault) (hp : s.phase ≠ .created) :
    exec .decode s = .next (s.raise .badState) := by
  rw [exec, execDecode, command_run _ hf, if_pos hp]

theorem exec_decode_noUap (hp : s.phase = .created) (hu : s.ctx.haveUap = false) :
    exec .decode s = .next (s.raise .noUap) := by
  rw [exec, execDecode, command_run _ (by rw [hp]; decide), if_neg (not_not_intro hp), hu]
  rfl

end

/-- Settles O31: a header stage that failed leaves `DECODE_PAYLOAD` out of order, and one that succeeded leaves it the
payload stage that `DECODE` runs. -/
theorem decodeRunsBothStages : Obligations.DecodeRunsBothStages := by
  refine ⟨fun s hp hu => ?_, fun s => exec_decode_badState, fun s => exec_decode_noUap⟩
  have header := exec_decodeHeader_headerStage hp hu
  rw [exec_decode hp hu]
  rcases headerStage_phase hp hu with created | decoded
  · have noHeader : s.headerStage.phase ≠ .headerDecoded := by simp [created]
    refine ⟨_, _, header, exec_decodePayload_refused (by simp [created]) noHeader, .inl created, ?_⟩
    rw [if_pos noHeader, if_neg noHeader]
    rfl
  · refine ⟨_, _, header, exec_decodePayload decoded, .inr decoded, ?_⟩
    rw [if_neg (not_not_intro decoded), if_pos decoded, State.endDecode, if_neg (payloadStage_phase_ne_fault _ _)]

/-! ## The transitions of `STATE` -/

section
variable {s t : State} {i : Instr}

/-- The commands that name a packet or restart its decode, and so end in `Created` (rules R36, R211, R212, R220). -/
def packetOpeners : List Instr := [.create, .restart] ++ contextWriters

/-- What an instruction can do to `STATE`: nothing; lead to `Created`, which a context writer does not do from `Idle`;
decode a header, `DECODE` perhaps its payload too; or end a payload stage. -/
theorem Effect.phase (h : Effect s i t) :
    t.phase = s.phase ∨
    (t.phase = .created ∧ s.phase ≠ .fault ∧ i ∈ packetOpeners ∧ (s.phase = .idle → i ∉ contextWriters)) ∨
    (s.phase = .created ∧
      (t.phase = .headerDecoded ∧ (i = .decodeHeader ∨ i = .decode) ∨ t.phase = .payloadDecoded ∧ i = .decode)) ∨
    ((∃ p, RunsPayload i p s) ∧ (t.phase = .headerDecoded ∨ t.phase = .payloadDecoded)) := by
  cases h with
  | results => exact .inl rfl
  | work => exact .inl rfl
  | context i hi hf c hc r =>
    by_cases idle : s.phase = .idle
    · exact .inl ((if_pos idle).trans idle.symm)
    · exact .inr (.inl ⟨if_neg idle, hf, List.mem_append_right _ hi, fun e => absurd e idle⟩)
  | setChannel => exact .inl rfl
  | restart hf => exact .inr (.inl ⟨rfl, hf, by decide, fun _ => by decide⟩)
  | create hf => exact .inr (.inl ⟨rfl, hf, by decide, fun _ => by decide⟩)
  | decodeHeader t b ht =>
    have decoded : t.phase = .headerDecoded := by rw [ht.registers]; rfl
    exact .inr (.inr (.inl ⟨ht.created, .inl ⟨decoded, .inl rfl⟩⟩))
  | decodeNoHeader => exact .inl rfl
  | decode u t b hu ht =>
    rcases ht.verdict with ⟨failed, -⟩ | ⟨decoded, -⟩
    · exact .inr (.inr (.inl ⟨hu.created, .inl ⟨failed, .inr rfl⟩⟩))
    · exact .inr (.inr (.inl ⟨hu.created, .inr ⟨decoded, rfl⟩⟩))
  | payload i p t hi ht =>
    exact .inr (.inr (.inr ⟨⟨p, hi⟩, ht.verdict.imp (·.1) (·.1)⟩))
  | emit => exact .inl rfl

/-- `RESTART` is refused in `Idle` (rule R212), so `CREATE` is the one way out of it. -/
theorem eq_create_of_opener_of_idle (h : exec i s = .next t) (hi : i ∈ packetOpeners) (notWriter : i ∉ contextWriters)
    (idle : s.phase = .idle) (created : t.phase = .created) : i = .create := by
  rcases List.mem_append.1 hi with command | writer
  · rcases List.mem_pair.1 command with rfl | rfl
    · rfl
    · rw [exec_restart_idle idle] at h
      cases h
      rw [State.raise_phase, idle] at created
      cases created
  · exact absurd writer notWriter

/-- The four states at rest in which commands run (rule R30). -/
theorem phase_at_rest {p : Phase} (header : p ≠ .headerPending) (payload : p ≠ .payloadPending) (fault : p ≠ .fault) :
    p = .idle ∨ p = .created ∨ p = .headerDecoded ∨ p = .payloadDecoded := by
  cases p with
  | idle => exact .inl rfl
  | created => exact .inr (.inl rfl)
  | headerPending => exact absurd rfl header
  | headerDecoded => exact .inr (.inr (.inl rfl))
  | payloadPending => exact absurd rfl payload
  | payloadDecoded => exact .inr (.inr (.inr rfl))
  | fault => exact absurd rfl fault

end

/-- Settles O24: each way to change `STATE` (`Effect.phase`) is a row of the table, and a packet row in `PayloadPending`
ends where its payload stage does. -/
theorem stateTransitions : Obligations.StateTransitions := by
  refine ⟨fun i s t header payload h => ?_, fun p f s t pending h => ?_⟩
  · rcases (exec_effect h).phase with
      same | ⟨created, running, opener, notWriter⟩ | ⟨created, stage⟩ | ⟨⟨p, run⟩, stage⟩
    · exact .inl same
    · rcases phase_at_rest header payload running with idle | stays | decoded | decoded
      · have create := eq_create_of_opener_of_idle h opener (notWriter idle) idle created
        rw [idle, created]
        exact .inr create
      · exact .inl (created.trans stays.symm)
      · rw [decoded, created]
        exact .inr opener
      · rw [decoded, created]
        exact .inr opener
    · rw [created]
      rcases stage with ⟨decoded, event⟩ | ⟨decoded, event⟩
      · rw [decoded]
        exact .inr event
      · rw [decoded]
        exact .inr event
    · rcases run with ⟨event, decoded, -⟩ | ⟨-, pending⟩
      · rcases stage with failed | payloadDecoded
        · exact .inl (failed.trans decoded.symm)
        · rw [decoded, payloadDecoded]
          exact .inr event
      · exact absurd pending payload
  · rw [exec_packetInstr_pending p f pending] at h
    cases h
    rcases (payloadStage_end p s).verdict with ⟨phase, zero, -⟩ | ⟨phase, nonzero, -⟩
    · exact .inl ⟨zero, phase⟩
    · exact .inr ⟨nonzero, phase⟩

end Sys2Proof.Machine

/-! # Exceptions

Every instruction is a command, so it answers a next state and has no effect in `Fault`. There the core finds no word to
run, and no move of the host but reset touches `STATE`, `FAULT`, `CAUSE`, `R0` or `R1`. -/

namespace Sys2Proof.Machine

/-! ## Commands and the step -/

theorem setter_eq_command (s : State) (f : Context → Context) :
    ∃ body : State → State, setter s f = command s body := ⟨_, rfl⟩

theorem packetStage_eq_command (s : State) (handler : Handler) :
    ∃ body : State → State, packetStage s handler = command s body := ⟨_, rfl⟩

/-- Every meaning, a setter's and a packet row's included, runs through the one gate that `Fault` closes (rule R244). -/
theorem exec_eq_command (i : Instr) (s : State) : ∃ body : State → State, exec i s = command s body := by
  unfold exec
  cases i with
  | setLap | setUap | setNap | setClock | setWhitened => exact setter_eq_command s _
  | pktNull | pktPoll | pktFhs | pktDm1 | pktDh1 | pktHv1 | pktHv2 | pktHv3Ev3 | pktDv | pktAux1 | pktDm3 | pktDh3
  | pktEv4 | pktEv5 | pktDm5 | pktDh5 => exact packetStage_eq_command s _
  | _ => exact ⟨_, rfl⟩

theorem exec_fault (i : Instr) {s : State} (h : s.phase = .fault) : exec i s = .next s := by
  obtain ⟨body, gate⟩ := exec_eq_command i s
  rw [gate, command_fault body h]

theorem exec_total (i : Instr) (s : State) : ∃ t, exec i s = .next t := by
  by_cases h : s.phase = .fault
  · exact ⟨s, exec_fault i h⟩
  · obtain ⟨body, gate⟩ := exec_eq_command i s
    exact ⟨body s, gate.trans (command_run body h)⟩

theorem step_total (s : State) : ∃ t, step s = .next t := by
  unfold step
  split
  · exact ⟨_, rfl⟩
  · split
    · exact exec_total _ _
    · exact ⟨_, rfl⟩

/-- Outside `PayloadPending` the core runs nothing where no command is written, or where `Fault` ignores it. -/
theorem nextWord_eq_none {s : State} (hp : s.phase ≠ .payloadPending)
    (hc : s.phase = .fault ∨ ∀ w q, s.queue ≠ .write 0 w :: q) : s.nextWord = none := by
  refine Option.eq_none_iff_forall_ne_some.2 fun word due => ?_
  cases word with
  | command w =>
    obtain ⟨-, running, q, written⟩ := (nextWord_command_iff s w).1 due
    exact hc.elim running fun unwritten => unwritten w q written
  | header d => exact hp ((nextWord_header_iff s d).1 due).1

theorem step_of_nextWord_none {s : State} (h : s.nextWord = none) : step s = .next s.hostStep := by
  unfold step
  rw [h]

/-- Settles O7: a core with nothing to run leaves the step to a host with no move to make. -/
theorem stepNeverStops : Obligations.StepNeverStops := by
  refine ⟨step_total, fun s hp hq => ?_⟩
  rw [step_of_nextWord_none (nextWord_eq_none hp (.inr (by simp [hq]))), State.hostStep, hq]

/-! ## In `Fault` -/

/-- In `Fault` the core runs nothing, so a step is the host's move. -/
theorem step_fault {s : State} (h : s.phase = .fault) : step s = .next s.hostStep :=
  step_of_nextWord_none (nextWord_eq_none (by simp [h]) (.inl h))

/-- Settles O14: the step leaves the write of a command to the port, where the number of `CMD` stores nothing. -/
theorem faultIgnoresCommands : Obligations.FaultIgnoresCommands := by
  refine ⟨fun i s h => exec_fault i h, fun s w q h hq => ?_⟩
  rw [step_fault h, State.hostStep, State.popMove, hq]
  rfl

/-- `t` is in `Fault` as `s` is, with the sticky bit, `CAUSE`, `R0` and `R1` as `s` holds them (rule R247). -/
def StaysInFault (s t : State) : Prop := t.phase = .fault ∧ t.faultFlag = s.faultFlag ∧ t.res = s.res

/-- No write leaves `Fault`: a new window of symbols drops the packet, but not the state (rules R48, R247). -/
theorem writeReg_staysInFault {s : State} (h : s.phase = .fault) (r : BitVec 6) (v : Word) :
    StaysInFault s (s.writeReg r v) := by
  rcases writeReg_cases s r v with ⟨o, a, e⟩ | e | e
  · rw [e]
    exact ⟨h, rfl, rfl⟩
  · rw [e, State.loadSymbols]
    exact ⟨if_pos h, rfl, rfl⟩
  · rw [e, State.writeWlen]
    exact ⟨if_pos h, rfl, rfl⟩

theorem hostMove_staysInFault {s : State} (h : s.phase = .fault) {m : HostAction} (hm : m ≠ .reset) :
    StaysInFault s (s.hostMove m) := by
  cases m with
  | write r v => exact writeReg_staysInFault h r v
  | read r => exact ⟨h, rfl, rfl⟩
  | reset => exact absurd rfl hm

theorem hostStep_staysInFault {s : State} (h : s.phase = .fault) (hq : s.queue.head? ≠ some .reset) :
    StaysInFault s s.hostStep := by
  unfold State.hostStep
  split
  case h_1 => exact ⟨h, rfl, rfl⟩
  case h_2 m q due =>
    have notReset : m ≠ .reset := fun e => hq (by simp [due, e])
    exact hostMove_staysInFault (s := s.popMove) h notReset

/-- Settles O15: the step is the host's move (`step_fault`), and the move is the reset input or stays in `Fault`. -/
theorem onlyResetLeavesFault : Obligations.OnlyResetLeavesFault := by
  intro s t h run
  rw [step_fault h] at run
  cases run
  by_cases due : s.queue.head? = some .reset
  · exact .inr (List.head?_eq_some_iff.1 due)
  · exact .inl (hostStep_staysInFault h due)

end Sys2Proof.Machine

/-! # The reset input

A reset that is due leaves the core no word to run, in `PayloadPending` and in `Fault` as in every other state, so the step
is the host's move, which is the reset. -/

namespace Sys2Proof.Machine

/-- Where a reset is due the core runs nothing: a command would need the host's move, a packet row no reset (rule R270). -/
theorem nextWord_of_reset_due {s : State} {q : List HostAction} (hq : s.queue = .reset :: q) : s.nextWord = none := by
  refine Option.eq_none_iff_forall_ne_some.2 fun word due => ?_
  cases word with
  | command w =>
    obtain ⟨-, -, q', written⟩ := (nextWord_command_iff s w).1 due
    cases hq.symm.trans written
  | header d =>
    obtain ⟨-, -, notReset⟩ := (nextWord_header_iff s d).1 due
    exact notReset (by rw [hq]; rfl)

theorem hostStep_of_reset_due {s : State} {q : List HostAction} (hq : s.queue = .reset :: q) :
    s.hostStep = { State.reset with queue := q, readData := s.readData } := by
  rw [State.hostStep, hq]
  dsimp only [State.hostMove, State.applyReset]
  rw [State.popMove_queue, State.popMove_readData, hq, List.tail_cons]

/-- Settles O13: the core runs nothing (`nextWord_of_reset_due`), so the step is the host's move, the reset. -/
theorem resetInput : Obligations.ResetInput := by
  intro s q hq
  rw [step_of_nextWord_none (nextWord_of_reset_due hq), hostStep_of_reset_due hq]

end Sys2Proof.Machine
